-- ==== Sys2Proof/Word.lean ====
section
/-! DEFINITION. The word types of BPCC and the spec's unspecified value. -/

namespace Sys2Proof

/-- A command word, a data word, the response data, one stream element (30_encoding.md R70, R79). -/
abbrev Word := BitVec 32

/-- A 16-bit value: a plane word, a raw palette value, a descriptor word (00_scope.md R10). -/
abbrev Half := BitVec 16

/-- An 8-bit value: a staging byte, a color component, the `a8` field (30_encoding.md R71). -/
abbrev Byte := BitVec 8

/-- The `addr24` field: a plane-word address or a pixel index (30_encoding.md R72). -/
abbrev Addr := BitVec 24

/-- The content of a storage cell: `none` is the spec's own `⊥`, a value no command has specified
(00_scope.md R15). Copying a `⊥` cell writes `⊥`; a value computed from `⊥` is `⊥`. -/
abbrev Cell (α : Type) := Option α

/-- An RGB triple of three 8-bit components (10_state.md R24, 30_encoding.md R82). -/
structure Rgb where
  r : Byte
  g : Byte
  b : Byte
deriving DecidableEq, Repr

/-- Four like things, one for each color-cycle slot 0 to 3 (10_state.md R34, `NSLOTS` of R7). -/
structure Quad (α : Type) where
  s0 : α
  s1 : α
  s2 : α
  s3 : α
deriving DecidableEq, Repr

end Sys2Proof
end

