-- ==== Sys2Proof/Config.lean ====
section
/-! DEFINITION. The fixed parameters of 00_scope.md R7 and the model parameters it leaves to the host. -/

namespace Sys2Proof

namespace Config

/-- FREE VALUE (log 3): which numbers name a handle of the host's, besides the one handle the host is
sure to have. It leaves open how many handles there are. -/
opaque isHandle : Nat → Bool

end Config

/-- The host's cancellation handle: the model parameter `Handle` of 00_scope.md R7 (OPEN,
92_eei_decisions.md D24). The free value `Config.isHandle` decides its values, so it is any non-empty
type that numbers can name; BPCC stores a handle and hands it back and never looks into it
(10_state.md R43). DESIGN CHOICE: log 3. -/
inductive Handle where
  | first
  | other (n : Nat) (h : Config.isHandle n = true)
deriving DecidableEq, Repr, Inhabited

/-- The model parameter `SchedPolicy` of 00_scope.md R7 (OPEN, 92_eei_decisions.md D23): what the
host's scheduler does with an interval of 0 or less. BPCC has no time, so a policy answers, for the
interval and the number of ticks already delivered, whether the host delivers one more (log 6). -/
abbrev SchedPolicy := Word → Nat → Bool

namespace Config

/-- `PW_WORDS` (00_scope.md R7): words in the plane-word buffer. -/
abbrev pwWords : Nat := 16000

/-- `STG_BYTES` (00_scope.md R7): bytes in the staging buffer. -/
abbrev stgBytes : Nat := 160

/-- `PAL_MAX` (00_scope.md R7): physical palette entries. -/
abbrev palMax : Nat := 16

/-- `GROUP_PIXELS` (00_scope.md R7): pixels in one plane word. -/
abbrev groupPixels : Nat := 16

/-- FREE VALUE (log 3): the handle the host returns for the n-th SCHED request, n counted from 0
(00_scope.md R8(c), R14). Nothing constrains it but that it is never NONE (92_eei_decisions.md
D24), which its type says. -/
opaque hostHandle : Nat → Handle

/-- FREE VALUE (log 6): the host's `SchedPolicy`. No command's meaning reads it (42_color_cycle.md
R163: the interval "is information for the host only"). -/
opaque schedPolicy : SchedPolicy

end Config

end Sys2Proof
end

