-- ==== Sys2Proof/Syntax.lean ====
section
/-! DEFINITION. The commands of BPCC, one constructor per row of spec/opcode_table.json. -/

namespace Sys2Proof

/-- One slot's four descriptor words (30_encoding.md R84, 42_color_cycle.md R151). -/
structure Desc where
  left : Half
  right : Half
  dirRaw : Half
  delayRaw : Half
deriving DecidableEq, Repr

/-- The commands, in the order of the opcode map 30_encoding.md R75. -/
inductive Instr where
  /-- MODE #id (40_mode_palette.md R100). -/
  | mode (id : Half)
  /-- MODEQ (40_mode_palette.md R102). -/
  | modeq
  /-- PALREP n, the n raw values (40_mode_palette.md R103); n is the list's length. -/
  | palrep (vs : List Half)
  /-- PALSET i, #v (40_mode_palette.md R104). -/
  | palset (i : Byte) (v : Half)
  /-- PALRGB i (40_mode_palette.md R105). -/
  | palrgb (i : Byte)
  /-- PALRAW i (40_mode_palette.md R106). -/
  | palraw (i : Byte)
  /-- PWWR a, #v (41_bitplane_codec.md R123). -/
  | pwwr (a : Addr) (v : Half)
  /-- PWRD a (41_bitplane_codec.md R124). -/
  | pwrd (a : Addr)
  /-- STAGEW b, #v (41_bitplane_codec.md R141). -/
  | stagew (b : Byte) (v : Byte)
  /-- REILV #y (41_bitplane_codec.md R142). -/
  | reilv (y : Half)
  /-- PIX n (41_bitplane_codec.md R125). -/
  | pix (n : Addr)
  /-- RGBA n (41_bitplane_codec.md R127). -/
  | rgba (n : Addr)
  /-- UNPACK (41_bitplane_codec.md R126). -/
  | unpack
  /-- RENDER (41_bitplane_codec.md R128). -/
  | render
  /-- CCLOAD and the descriptor block, slot by slot (42_color_cycle.md R155, 30_encoding.md R84). -/
  | ccload (d : Quad Desc)
  /-- CCUNLD (42_color_cycle.md R156). -/
  | ccunld
  /-- CCSTART s (42_color_cycle.md R160). -/
  | ccstart (a : Byte)
  /-- CCANIM s (42_color_cycle.md R162). -/
  | ccanim (a : Byte)
  /-- CCSTEP s (42_color_cycle.md R166). -/
  | ccstep (a : Byte)
  /-- CCSTOP s (42_color_cycle.md R175). -/
  | ccstop (a : Byte)
  /-- CCTICK s (42_color_cycle.md R170). -/
  | cctick (a : Byte)
  /-- CCSTAT s, #q (42_color_cycle.md R180). -/
  | ccstat (a : Byte) (q : BitVec 2)
deriving DecidableEq, Repr

end Sys2Proof
end

