-- ==== Sys2Proof/WellFormed.lean ====
section
/-! DEFINITION. Which terms of `Instr` some command words stand for. -/

namespace Sys2Proof

/-- A command is well formed when an encoding carries it. Every operand's width is in its type, so
the one check left is PALREP's count, which travels in the 8-bit field `a8` (30_encoding.md R73,
92_eei_decisions.md D32). -/
def Instr.wellFormed : Instr → Bool
  | .mode _ => true
  | .modeq => true
  | .palrep vs => decide (vs.length < 256)
  | .palset _ _ => true
  | .palrgb _ => true
  | .palraw _ => true
  | .pwwr _ _ => true
  | .pwrd _ => true
  | .stagew _ _ => true
  | .reilv _ => true
  | .pix _ => true
  | .rgba _ => true
  | .unpack => true
  | .render => true
  | .ccload _ => true
  | .ccunld => true
  | .ccstart _ => true
  | .ccanim _ => true
  | .ccstep _ => true
  | .ccstop _ => true
  | .cctick _ => true
  | .ccstat _ _ => true

/-- `Instr.wellFormed` as a proposition. -/
abbrev Instr.WellFormed (i : Instr) : Prop := i.wellFormed = true

end Sys2Proof
end

