-- ==== Sys2Proof/Decode.lean ====
section
/-! DEFINITION. Command words to commands and back (30_encoding.md R70 to R78), total on every word.
A word that is no command is rejected by the name of its status: BadOpcode or ReservedField. -/

namespace Sys2Proof

/-- The rows of the opcode map (30_encoding.md R75). -/
inductive Op where
  | mode | modeq | palrep | palset | palrgb | palraw
  | pwwr | pwrd | stagew | reilv | pix | rgba | unpack | render
  | ccload | ccunld | ccstart | ccanim | ccstep | ccstop | cctick | ccstat
deriving DecidableEq, Repr

/-- Why a command word, with its data words, is no command (30_encoding.md R74). -/
inductive DecodeError where
  /-- The opcode is not in the map: BadOpcode(op). -/
  | badOpcode (op : Byte)
  /-- A must-be-zero bit of word j is set, j = 0 for the command word: ReservedField(j). -/
  | reservedField (j : Nat)
deriving DecidableEq, Repr

/-- What the decoder answers. -/
inductive Decoded where
  | instr (i : Instr)
  | reject (e : DecodeError)
deriving DecidableEq, Repr

/-- What the host sends on CMD and RESET (00_scope.md R8(a), (f)), in arrival order. -/
inductive Input where
  | word (w : Word)
  | reset
deriving DecidableEq, Repr

/-- The outcome of taking a command's data words off CMD. -/
inductive Gathered where
  /-- The data words, and what stands behind them. -/
  | words (ds : List Word) (rest : List Input)
  /-- Not all have arrived yet. -/
  | short
  /-- A RESET stands where a data word belongs. -/
  | resetInside
deriving DecidableEq, Repr

/-- The outcome of looking at CMD and RESET. -/
inductive Fetched where
  /-- No whole transaction has arrived. -/
  | idle
  /-- A RESET, and what stands behind it. -/
  | reset (rest : List Input)
  /-- A command word with all its data words, and what stands behind them. -/
  | command (cw : Word) (ds : List Word) (rest : List Input)
  /-- A RESET stands between a command word and its last data word. -/
  | resetInside
deriving DecidableEq, Repr

/-- The column `op` of 30_encoding.md R75. -/
def opCode : Op → Byte
  | .mode => 0x01#8
  | .modeq => 0x02#8
  | .palrep => 0x10#8
  | .palset => 0x11#8
  | .palrgb => 0x12#8
  | .palraw => 0x13#8
  | .pwwr => 0x20#8
  | .pwrd => 0x21#8
  | .stagew => 0x22#8
  | .reilv => 0x23#8
  | .pix => 0x30#8
  | .rgba => 0x31#8
  | .unpack => 0x32#8
  | .render => 0x33#8
  | .ccload => 0x40#8
  | .ccunld => 0x41#8
  | .ccstart => 0x42#8
  | .ccanim => 0x43#8
  | .ccstep => 0x44#8
  | .ccstop => 0x45#8
  | .cctick => 0x46#8
  | .ccstat => 0x47#8

/-- The column `mask` of 30_encoding.md R75. -/
def opMask : Op → Word
  | .mode => 0xFFFF0000#32
  | .modeq => 0xFFFFFFFF#32
  | .palrep => 0xFF00FFFF#32
  | .palset => 0xFF000000#32
  | .palrgb => 0xFF00FFFF#32
  | .palraw => 0xFF00FFFF#32
  | .pwwr => 0xFF000000#32
  | .pwrd => 0xFF000000#32
  | .stagew => 0xFF00FF00#32
  | .reilv => 0xFFFF0000#32
  | .pix => 0xFF000000#32
  | .rgba => 0xFF000000#32
  | .unpack => 0xFFFFFFFF#32
  | .render => 0xFFFFFFFF#32
  | .ccload => 0xFFFFFFFF#32
  | .ccunld => 0xFFFFFFFF#32
  | .ccstart => 0xFF00FFFF#32
  | .ccanim => 0xFF00FFFF#32
  | .ccstep => 0xFF00FFFF#32
  | .ccstop => 0xFF00FFFF#32
  | .cctick => 0xFF00FFFF#32
  | .ccstat => 0xFF00FFFC#32

/-- The column `match` of 30_encoding.md R75: the opcode in bits 31:24, every other bit 0. -/
def opMatch (o : Op) : Word := opCode o ++ 0#24

/-- Every row of 30_encoding.md R75, in its order. -/
def allOps : List Op :=
  [.mode, .modeq, .palrep, .palset, .palrgb, .palraw] ++
  [.pwwr, .pwrd, .stagew, .reilv, .pix, .rgba, .unpack, .render] ++
  [.ccload, .ccunld, .ccstart, .ccanim, .ccstep, .ccstop, .cctick, .ccstat]

/-- `op`, bits 31:24 (30_encoding.md R70). -/
def opField (cw : Word) : Byte := cw.extractLsb' 24 8

/-- `a8`, bits 23:16 (30_encoding.md R71). -/
def a8Field (cw : Word) : Byte := cw.extractLsb' 16 8

/-- `imm16`, bits 15:0 (30_encoding.md R71); also `d16` of a data word (R73). -/
def imm16Field (cw : Word) : Half := cw.extractLsb' 0 16

/-- `addr24`, bits 23:0 (30_encoding.md R72). -/
def addr24Field (cw : Word) : Addr := cw.extractLsb' 0 24

/-- The row an opcode names, `none` for a reserved opcode (30_encoding.md R76). -/
def findOp (b : Byte) : Option Op := allOps.find? (fun o => opCode o == b)

/-- The number of data words of a row's command word (30_encoding.md R73): 16 for CCLOAD, 1 for PWWR,
`a8` for PALREP, 0 for every other row. -/
def rowDataCount (o : Op) (cw : Word) : Nat :=
  match o with
  | .palrep => (a8Field cw).toNat
  | .pwwr => 1
  | .ccload => 16
  | .mode | .modeq | .palset | .palrgb | .palraw => 0
  | .pwrd | .stagew | .reilv | .pix | .rgba | .unpack | .render => 0
  | .ccunld | .ccstart | .ccanim | .ccstep | .ccstop | .cctick | .ccstat => 0

/-- The number of data words after a command word (30_encoding.md R73), 0 for a reserved opcode. -/
def dataCount (cw : Word) : Nat :=
  match findOp (opField cw) with
  | some o => rowDataCount o cw
  | none => 0

/-- The position, counted from `j`, of the first data word whose bits 31:16 are not all 0
(30_encoding.md R73, R74). -/
def firstBadData (j : Nat) : List Word → Option Nat
  | [] => none
  | d :: ds => if d.extractLsb' 16 16 = 0#16 then firstBadData (j + 1) ds else some j

/-- The n-th of a command's 16-bit values; it is only asked for values the command has. -/
def dataAt (ds : List Half) (n : Nat) : Half := ds.getD n 0#16

/-- Slot s of the descriptor block (30_encoding.md R84): word s, 4 + s, 8 + s and 12 + s. -/
def descAt (ds : List Half) (s : Nat) : Desc :=
  { left := dataAt ds s, right := dataAt ds (4 + s),
    dirRaw := dataAt ds (8 + s), delayRaw := dataAt ds (12 + s) }

/-- The command of a row from its command word and 16-bit data values (30_encoding.md R71, R72,
R75, R84). -/
def buildInstr (o : Op) (cw : Word) (ds : List Half) : Instr :=
  match o with
  | .mode => .mode (imm16Field cw)
  | .modeq => .modeq
  | .palrep => .palrep ds
  | .palset => .palset (a8Field cw) (imm16Field cw)
  | .palrgb => .palrgb (a8Field cw)
  | .palraw => .palraw (a8Field cw)
  | .pwwr => .pwwr (addr24Field cw) (dataAt ds 0)
  | .pwrd => .pwrd (addr24Field cw)
  | .stagew => .stagew (a8Field cw) (cw.extractLsb' 0 8)
  | .reilv => .reilv (imm16Field cw)
  | .pix => .pix (addr24Field cw)
  | .rgba => .rgba (addr24Field cw)
  | .unpack => .unpack
  | .render => .render
  | .ccload => .ccload ⟨descAt ds 0, descAt ds 1, descAt ds 2, descAt ds 3⟩
  | .ccunld => .ccunld
  | .ccstart => .ccstart (a8Field cw)
  | .ccanim => .ccanim (a8Field cw)
  | .ccstep => .ccstep (a8Field cw)
  | .ccstop => .ccstop (a8Field cw)
  | .cctick => .cctick (a8Field cw)
  | .ccstat => .ccstat (a8Field cw) (cw.extractLsb' 0 2)

/-- The decoding procedure of 30_encoding.md R74, on a command word and the data words that
`dataCount` says it has. -/
def decode (cw : Word) (ds : List Word) : Decoded :=
  match findOp (opField cw) with
  | none => .reject (.badOpcode (opField cw))
  | some o =>
    if cw &&& opMask o ≠ opMatch o then .reject (.reservedField 0)
    else
      match firstBadData 1 ds with
      | some j => .reject (.reservedField j)
      | none => .instr (buildInstr o cw (ds.map imm16Field))

/-- Takes a command's k data words off CMD: they are always consumed (30_encoding.md R73). -/
def gather : Nat → List Input → Gathered
  | 0, inp => .words [] inp
  | _ + 1, [] => .short
  | _ + 1, .reset :: _ => .resetInside
  | k + 1, .word w :: inp =>
    match gather k inp with
    | .words ds rest => .words (w :: ds) rest
    | .short => .short
    | .resetInside => .resetInside

/-- The next transaction on CMD, or RESET (00_scope.md R8(a), (f)). A command whose data words have
not all arrived is not a whole transaction yet: BPCC waits for them (DEDUCED, log 1). -/
def fetch : List Input → Fetched
  | [] => .idle
  | .reset :: rest => .reset rest
  | .word cw :: inp =>
    match gather (dataCount cw) inp with
    | .words ds rest => .command cw ds rest
    | .short => .idle
    | .resetInside => .resetInside

/-- A command word of format S (30_encoding.md R71). -/
def formatS (o : Op) (a8 : Byte) (imm : Half) : Word := (opCode o ++ a8 ++ imm : BitVec 32)

/-- A command word of format L (30_encoding.md R72). -/
def formatL (o : Op) (a : Addr) : Word := (opCode o ++ a : BitVec 32)

/-- A data word of format D (30_encoding.md R73). -/
def formatD (v : Half) : Word := (0#16 ++ v : BitVec 32)

/-- The 16 descriptor words of a block, in CCLOAD's order (30_encoding.md R84). -/
def descWords (d : Quad Desc) : List Half :=
  [d.s0.left, d.s1.left, d.s2.left, d.s3.left] ++
  [d.s0.right, d.s1.right, d.s2.right, d.s3.right] ++
  [d.s0.dirRaw, d.s1.dirRaw, d.s2.dirRaw, d.s3.dirRaw] ++
  [d.s0.delayRaw, d.s1.delayRaw, d.s2.delayRaw, d.s3.delayRaw]

/-- The words of a command (30_encoding.md R75, R89). -/
def encode : Instr → List Word
  | .mode id => [formatS .mode 0#8 id]
  | .modeq => [formatS .modeq 0#8 0#16]
  | .palrep vs => formatS .palrep (BitVec.ofNat 8 vs.length) 0#16 :: vs.map formatD
  | .palset i v => [formatS .palset i v]
  | .palrgb i => [formatS .palrgb i 0#16]
  | .palraw i => [formatS .palraw i 0#16]
  | .pwwr a v => [formatL .pwwr a, formatD v]
  | .pwrd a => [formatL .pwrd a]
  | .stagew b v => [formatS .stagew b (0#8 ++ v : BitVec 16)]
  | .reilv y => [formatS .reilv 0#8 y]
  | .pix n => [formatL .pix n]
  | .rgba n => [formatL .rgba n]
  | .unpack => [formatS .unpack 0#8 0#16]
  | .render => [formatS .render 0#8 0#16]
  | .ccload d => formatS .ccload 0#8 0#16 :: (descWords d).map formatD
  | .ccunld => [formatS .ccunld 0#8 0#16]
  | .ccstart a => [formatS .ccstart a 0#16]
  | .ccanim a => [formatS .ccanim a 0#16]
  | .ccstep a => [formatS .ccstep a 0#16]
  | .ccstop a => [formatS .ccstop a 0#16]
  | .cctick a => [formatS .cctick a 0#16]
  | .ccstat a q => [formatS .ccstat a (0#14 ++ q : BitVec 16)]

/-- The words of the transaction whose bits are w, bit 0 the least significant bit of the command
word and each data word 32 bits further on; bits from nbits up are 0. -/
def tableWords (nbits w : Nat) : List Word :=
  let bits := w % 2 ^ nbits
  let cw : Word := BitVec.ofNat 32 bits
  cw :: (List.range (dataCount cw)).map (fun k => BitVec.ofNat 32 (bits >>> (32 * (k + 1))))

/-- The command the decoder reads from the transaction whose bits are w. -/
def decodeTableWord (nbits w : Nat) : Option Instr :=
  match tableWords nbits w with
  | [] => none
  | cw :: ds =>
    match decode cw ds with
    | .instr i => some i
    | .reject _ => none

end Sys2Proof
end

