-- ==== Sys2Proof/Machine/State.lean ====
section
/-! DEFINITION. The state of BPCC, every piece of 10_state.md in it, its reset, and the reasons a
step can stop. -/

namespace Sys2Proof.Machine

/-- A file of cells, sparse: the cells that are not `⊥`, each with its address. An unlisted cell
reads as `⊥`, the reset content the spec gives (10_state.md R49). Canonical form: addresses strictly
rising and below the file's size (`Memory.wf`). For the staging buffer this is a list of
`Host.Cell`; the plane-word buffer is word addressed, so its entries are 16-bit words
(20_memory.md R50, R57; log 4). -/
abbrev Memory (α : Type) := List (Nat × α)

/-- The active mode, `MODE` of 10_state.md R22: one of 0, 1, 2; the value 3 is never held. -/
inductive GMode where
  | mode0
  | mode1
  | mode2
deriving DecidableEq, Repr

/-- A slot's rotation direction, one of -1, 0, +1 (10_state.md R34). -/
inductive Dir where
  | back
  | still
  | fwd
deriving DecidableEq, Repr

/-- The slot fields that are `⊥` until CCLOAD and again after CCUNLD (10_state.md R34, R37). -/
structure SlotFields where
  /-- `left`, u16. -/
  left : Half
  /-- `right`, u16. -/
  right : Half
  /-- `dir`. -/
  dir : Dir
  /-- `delay`, s32, milliseconds. -/
  delay : Word
  /-- `pos`, u16 between commands. -/
  pos : Half
  /-- `len`, s32. -/
  len : Word
deriving DecidableEq, Repr

/-- A color-cycle slot (10_state.md R34). -/
structure Slot where
  /-- `loaded`: the slot exists. -/
  loaded : Bool
  /-- `on`: the slot is armed. -/
  on : Bool
  /-- `anim`: a schedule is outstanding. -/
  anim : Bool
  /-- `handle`: the host's handle of the outstanding schedule, `none` for NONE. -/
  handle : Option Handle
  /-- `left`, `right`, `dir`, `delay`, `pos`, `len`: they become `⊥` together (R37, R156) and
  CCLOAD writes them together (R155). -/
  fields : Cell SlotFields
deriving DecidableEq, Repr

/-- The response statuses of 60_exceptions.md R200; the reserved codes have no name because they
are never returned (93_implementation_defined.md U4). -/
inductive Status where
  | ok
  | fail
  | invalidPaletteSize
  | indexOutOfRange
  | badOpcode
  | reservedField
  | badSlot
  | slotNotLoaded
  | busy
  | badDirection
  | cycleRange
  | planeAddressOverflow
deriving DecidableEq, Repr

/-- A response on RSP (30_encoding.md R79). -/
structure Response where
  status : Status
  data : Word
  stream : List Word
deriving DecidableEq, Repr

/-- What BPCC sends the host (00_scope.md R8(b) to (e)). -/
inductive Output where
  /-- SCHED(s, ms), and the handle the host returned within the transaction. -/
  | sched (s : Fin 4) (ms : Word) (h : Handle)
  /-- CANCEL(SL[s].handle). -/
  | cancel (h : Option Handle)
  /-- REDRAW. -/
  | redraw
  /-- A response. -/
  | response (r : Response)
deriving DecidableEq, Repr

/-- The state of BPCC. -/
structure State where
  /-- `MODE` (10_state.md R22). -/
  mode : GMode
  /-- `PAL_RAW[0..15]` (10_state.md R24). -/
  palRaw : Memory Half
  /-- `PAL_RGB[0..15]`, the live palette (10_state.md R24). -/
  palRgb : Memory Rgb
  /-- `SNAP[0..15]`, the one restore snapshot (10_state.md R30). -/
  snap : Memory Rgb
  /-- `PW[0..15999]`, the plane-word buffer (10_state.md R32). -/
  pw : Memory Half
  /-- `STG[0..159]`, the staging buffer (10_state.md R33). -/
  stg : Memory Byte
  /-- `SL[0..3]` (10_state.md R34). -/
  slots : Quad Slot
  /-- MODEL FIELD (log 1): what the host has sent on CMD and RESET and BPCC has not taken yet. -/
  input : List Input
  /-- MODEL FIELD (log 2): everything BPCC has sent the host so far, in order. -/
  out : List Output
  /-- MODEL FIELD (log 3): how many SCHED requests BPCC has sent; the free value
  `Config.hostHandle` is applied to it. -/
  schedCount : Nat
deriving DecidableEq, Repr

/-- Why a step can stop with a fault. -/
inductive Fault where
  /-- Raised by PALRGB, PALRAW, PWRD, PIX, UNPACK, RGBA and RENDER when the response's data or an
  element of its stream would be `⊥`: "A model shall treat a response carrying a `⊥` value as a
  fault" (00_scope.md R15, 93_implementation_defined.md U1). Safe: the hardware goes on and returns
  an unspecified value. -/
  | unspecifiedResponse
  /-- Raised by CCSTART, CCANIM, CCSTEP, CCTICK and CCSTAT when they would read a `⊥` slot field,
  which 10_state.md R37 says never happens: it does not in a state that keeps R39
  (`State.Inv`). Safe. -/
  | unspecifiedSlotField
  /-- Raised by the fetch when RESET stands between a command word and its last data word, which
  70_reset_and_hazards.md R230 says is not possible. Safe. -/
  | resetInsideCommand
deriving DecidableEq, Repr

/-- Why a step can be refused. -/
inductive Refusal where
  /-- Raised by `exec` for a command that has no meaning yet; no command is left so. Safe. -/
  | notModelled (mnemonic : String)
deriving DecidableEq, Repr

/-- A slot after reset (10_state.md R37). -/
def Slot.reset : Slot :=
  { loaded := false, on := false, anim := false, handle := none, fields := none }

/-- The state after RESET: the table of 10_state.md R49; the model's own fields as log 1, 2 and 3
say. -/
def State.reset : State :=
  { mode := .mode0, palRaw := [], palRgb := [], snap := [], pw := [], stg := [],
    slots := ⟨Slot.reset, Slot.reset, Slot.reset, Slot.reset⟩,
    input := [], out := [], schedCount := 0 }

end Sys2Proof.Machine
end

