-- ==== Sys2Proof/Machine/Operands.lean ====
section
/-! DEFINITION. The operand forms and value computations of the commands: the mode table, the colour
derivation, the descriptor decoding, the byte pairing, the packing of responses. -/

namespace Sys2Proof.Machine

/-- A mode descriptor `(W, H, P, RC)` (00_scope.md R17). -/
structure ModeDesc where
  w : Nat
  h : Nat
  p : Nat
  rc : Nat
deriving DecidableEq, Repr

/-- The mode table (10_state.md R20). The numbers of modes 1 and 2 are the spec's own from general
knowledge (92_eei_decisions.md D6; log 8). -/
def modeDesc : GMode → ModeDesc
  | .mode0 => { w := 320, h := 200, p := 4, rc := 16 }
  | .mode1 => { w := 640, h := 200, p := 2, rc := 4 }
  | .mode2 => { w := 640, h := 400, p := 1, rc := 2 }

/-- `DESC`, the active mode's descriptor (00_scope.md R17, 10_state.md R22). -/
def State.desc (s : State) : ModeDesc := modeDesc s.mode

/-- The mode an id selects; any value outside 0, 1, 2 selects mode 0 (30_encoding.md R83). -/
def modeOfId (id : Half) : GMode :=
  if id = 1#16 then .mode1 else if id = 2#16 then .mode2 else .mode0

/-- The id `MODE` holds (10_state.md R22). -/
def modeId : GMode → BitVec 2
  | .mode0 => 0#2
  | .mode1 => 1#2
  | .mode2 => 2#2

/-- The code of a status on RSP (60_exceptions.md R200). -/
def statusCode : Status → Byte
  | .ok => 0x00#8
  | .fail => 0x01#8
  | .invalidPaletteSize => 0x02#8
  | .indexOutOfRange => 0x03#8
  | .badOpcode => 0x04#8
  | .reservedField => 0x05#8
  | .badSlot => 0x06#8
  | .slotNotLoaded => 0x07#8
  | .busy => 0x08#8
  | .badDirection => 0x09#8
  | .cycleRange => 0x0A#8
  | .planeAddressOverflow => 0x0B#8

/-- The red nibble of a raw value (40_mode_palette.md R101). -/
def redNibble (v : Half) : Nat := 2 * ((v >>> 8) &&& 7#16).toNat + ((v >>> 11) &&& 1#16).toNat

/-- The green nibble of a raw value (40_mode_palette.md R101). -/
def greenNibble (v : Half) : Nat := 2 * ((v >>> 4) &&& 7#16).toNat + ((v >>> 7) &&& 1#16).toNat

/-- The blue nibble of a raw value (40_mode_palette.md R101). -/
def blueNibble (v : Half) : Nat := 2 * (v &&& 7#16).toNat + ((v >>> 3) &&& 1#16).toNat

/-- `derive(V)` (40_mode_palette.md R101). -/
def derive (v : Half) : Rgb :=
  { r := BitVec.ofNat 8 (redNibble v * 17)
    g := BitVec.ofNat 8 (greenNibble v * 17)
    b := BitVec.ofNat 8 (blueNibble v * 17) }

/-- An RGB triple in a response (30_encoding.md R80). -/
def packRgb (c : Rgb) : Word :=
  (c.r.setWidth 32 <<< 16) ||| (c.g.setWidth 32 <<< 8) ||| c.b.setWidth 32

/-- An RGBA pixel in a response, with alpha 255 (30_encoding.md R80). -/
def packRgba (c : Rgb) : Word :=
  (c.r.setWidth 32 <<< 24) ||| (c.g.setWidth 32 <<< 16) ||| (c.b.setWidth 32 <<< 8) ||| 255#32

/-- MODEQ's data (40_mode_palette.md R102). -/
def packModeDesc (m : GMode) : Word :=
  (BitVec.ofNat 32 (modeDesc m).w <<< 20) ||| (BitVec.ofNat 32 (modeDesc m).h <<< 8) |||
    (BitVec.ofNat 32 (modeDesc m).p <<< 4) ||| (modeId m).setWidth 32

/-- The word of two bytes, the first the more significant: the pairing of the staging buffer
(20_memory.md R56) and of every 16-bit word of the file (30_encoding.md R87). -/
def pairBytes (hi lo : Byte) : Half := (hi.setWidth 16 <<< 8) ||| lo.setWidth 16

/-- `S`, the staged bytes of one plane (41_bitplane_codec.md R140). -/
def stagedBytes (d : ModeDesc) : Nat := Config.stgBytes / d.p

/-- `G`, the staged words of one plane (41_bitplane_codec.md R140). -/
def stagedWords (d : ModeDesc) : Nat := stagedBytes d / 2

/-- `decodeDir` (42_color_cycle.md R150), undefined for raw values above 2. -/
def decodeDir (raw : Half) : Option Dir :=
  if raw = 0#16 then some .back
  else if raw = 1#16 then some .still
  else if raw = 2#16 then some .fwd
  else none

/-- The direction as a number (10_state.md R34). -/
def dirInt : Dir → Int
  | .back => -1
  | .still => 0
  | .fwd => 1

/-- `dir + 1`, as CCSTAT reports it (42_color_cycle.md R180). -/
def dirRaw : Dir → Word
  | .back => 0#32
  | .still => 1#32
  | .fwd => 2#32

/-- `delayMs(raw)`, exact (42_color_cycle.md R152); the division is the floor division of
00_scope.md R10. -/
def delayMs (raw : Half) : Int := (100 * (128 - (raw.toNat : Int)) + 3) / 6

/-- `rangeLength = rightColor - leftColor + 1`, exact (10_state.md R34, R35). -/
def rangeLen (left right : Half) : Int := (right.toNat : Int) - (left.toNat : Int) + 1

/-- The position a step gives (42_color_cycle.md R165): `pos - dir`, re-entering `[left, right]` at
the other end, as 92_eei_decisions.md D15 says (log 7: R169). The intermediate value may be -1 or
65536 and is never stored (10_state.md R35). -/
def nextPos (f : SlotFields) : Half :=
  let q : Int := (f.pos.toNat : Int) - dirInt f.dir
  if q < (f.left.toNat : Int) then f.right
  else if (f.right.toNat : Int) < q then f.left
  else BitVec.ofInt 16 q

/-- The read cursor's next place in a step (42_color_cycle.md R165). -/
def nextCursor (left right c : Nat) : Nat := if right < c + 1 then left else c + 1

/-- CCSTAT's selector 0 (42_color_cycle.md R180). -/
def packSlotState (sl : Slot) (f : SlotFields) : Word :=
  (f.pos.setWidth 32 <<< 16) ||| (dirRaw f.dir <<< 3) |||
    ((BitVec.ofBool sl.anim).setWidth 32 <<< 2) ||| ((BitVec.ofBool sl.on).setWidth 32 <<< 1) ||| 1#32

/-- CCSTAT's data for a loaded slot (42_color_cycle.md R180). -/
def packSlot (sl : Slot) (f : SlotFields) (q : BitVec 2) : Word :=
  if q = 0#2 then packSlotState sl f
  else if q = 1#2 then (f.right.setWidth 32 <<< 16) ||| f.left.setWidth 32
  else if q = 2#2 then f.delay
  else f.len

end Sys2Proof.Machine
end

