-- ==== Sys2Proof/Machine/Ops.lean ====
section
/-! DEFINITION. The named operations: cell files, slots, what BPCC sends, the ends of a command, the
parts of the commands that several of them share. -/

namespace Sys2Proof.Machine

/-! Cell files (20_memory.md R50, R54, R55; `⊥` of 00_scope.md R15). -/

/-- The content of a cell; an unlisted cell is `⊥`. -/
def Memory.get {α : Type} : Memory α → Nat → Cell α
  | [], _ => none
  | (b, v) :: m, a => if a = b then some v else Memory.get m a

/-- Lists a cell in front of the cells above it, unless it is `⊥`. -/
def Memory.put {α : Type} (a : Nat) (c : Cell α) (m : Memory α) : Memory α :=
  match c with
  | none => m
  | some v => (a, v) :: m

/-- Writes a cell; writing `⊥` makes it unlisted. -/
def Memory.write {α : Type} : Memory α → Nat → Cell α → Memory α
  | [], a, c => Memory.put a c []
  | (b, v) :: m, a, c =>
    if a < b then Memory.put a c ((b, v) :: m)
    else if a = b then Memory.put a c m
    else (b, v) :: Memory.write m a c

/-- The addresses rise strictly from `lo` on and stay below `size`. -/
def Memory.wfFrom {α : Type} (size : Nat) : Nat → Memory α → Bool
  | _, [] => true
  | lo, (a, _) :: m => decide (lo ≤ a) && decide (a < size) && Memory.wfFrom size (a + 1) m

/-- The canonical form of a file of `size` cells. Every listed cell differs from `⊥`, which is what
an unlisted cell reads as, by its type. -/
def Memory.wf {α : Type} (size : Nat) (m : Memory α) : Bool := Memory.wfFrom size 0 m

/-- `for i in 0 .. n-1`, in increasing i. -/
def forRange {σ : Type} (n : Nat) (f : Nat → σ → σ) (x : σ) : σ :=
  match n with
  | 0 => x
  | k + 1 => f k (forRange k f x)

/-- Copies cells 0 to n-1 from one file to another, `⊥` cells as `⊥`. -/
def copyCells {α : Type} (n : Nat) (src dst : Memory α) : Memory α :=
  forRange n (fun i m => m.write i (src.get i)) dst

/-- Makes cells 0 to n-1 of a file `⊥`: they are listed no more. -/
def clearCells {α : Type} (n : Nat) (m : Memory α) : Memory α := m.filter (fun c => n ≤ c.1)

/-- The values of f at i, i+1, …, n of them; `⊥` when one of them is. -/
def collect {α : Type} (f : Nat → Cell α) : Nat → Nat → Cell (List α)
  | 0, _ => some []
  | n + 1, i =>
    match f i with
    | none => none
    | some v => (collect f n (i + 1)).map (v :: ·)

/-! Slots (10_state.md R34). -/

/-- The one of four with a given slot number. -/
def Quad.get {α : Type} (q : Quad α) (k : Fin 4) : α :=
  match k with
  | 0 => q.s0
  | 1 => q.s1
  | 2 => q.s2
  | 3 => q.s3

/-- Replaces the one of four with a given slot number. -/
def Quad.set {α : Type} (q : Quad α) (k : Fin 4) (x : α) : Quad α :=
  match k with
  | 0 => { q with s0 := x }
  | 1 => { q with s1 := x }
  | 2 => { q with s2 := x }
  | 3 => { q with s3 := x }

/-- Applies a function to each of four. -/
def Quad.map {α β : Type} (g : α → β) (q : Quad α) : Quad β := ⟨g q.s0, g q.s1, g q.s2, g q.s3⟩

/-- `SL[s]`. -/
def State.slot (s : State) (k : Fin 4) : Slot := Quad.get s.slots k

/-- Writes `SL[s]`. -/
def State.setSlot (s : State) (k : Fin 4) (sl : Slot) : State :=
  { s with slots := Quad.set s.slots k sl }

/-! What BPCC sends, and how a command ends (00_scope.md R13, R14). -/

/-- Sends one thing to the host, behind everything sent before. -/
def State.send (s : State) (o : Output) : State := { s with out := s.out ++ [o] }

/-- Sends the command's one response (30_encoding.md R79). -/
def State.respond (s : State) (st : Status) (d : Word) (stream : List Word) : State :=
  s.send (.response { status := st, data := d, stream := stream })

/-- `emit SCHED(s, ms) -> h`: the host returns the handle within the transaction (00_scope.md R14).
The handle is the free value of log 3. -/
def State.sched (s : State) (k : Fin 4) (ms : Word) : State :=
  { s.send (.sched k ms (Config.hostHandle s.schedCount)) with schedCount := s.schedCount + 1 }

/-- `if SL[s].anim = 1: emit CANCEL(SL[s].handle)` (42_color_cycle.md R162, R175). -/
def State.cancelled (s : State) (k : Fin 4) : State :=
  if (s.slot k).anim then s.send (.cancel (s.slot k).handle) else s

/-- The outcome of a command. -/
abbrev Result := Host.Outcome State Fault Refusal

/-- `respond(OK, d)`. -/
def ok (d : Word) (s : State) : Result := .next (s.respond .ok d [])

/-- `respond_stream(OK, d, list)` (00_scope.md R13). -/
def okStream (d : Word) (stream : List Word) (s : State) : Result :=
  .next (s.respond .ok d stream)

/-- `raise E(info)`: what BPCC has in place of taking an exception. The command ends with status E
and response data info; it has written no state and emitted no event (00_scope.md R13,
60_exceptions.md R202, R206). There is no return from it: the next command is performed normally. -/
def raise (e : Status) (info : Word) (s : State) : Result := .next (s.respond e info [])

/-- `respond(FAIL, 0)` (60_exceptions.md R201). -/
def fail (s : State) : Result := .next (s.respond .fail 0#32 [])

/-- `respond(OK, d)` where d may be `⊥`: a response carrying `⊥` is a fault (00_scope.md R15). -/
def okCell (d : Cell Word) (s : State) : Result :=
  match d with
  | some v => ok v s
  | none => .fault .unspecifiedResponse

/-- `respond_stream(OK, d, list)` where an element may be `⊥` (00_scope.md R15). -/
def okStreamCell (d : Word) (stream : Cell (List Word)) (s : State) : Result :=
  match stream with
  | some vs => okStream d vs s
  | none => .fault .unspecifiedResponse

/-- The check of a slot operand: BadSlot for s ≥ 4 (30_encoding.md R77). -/
def withSlot (a : Byte) (s : State) (k : Fin 4 → Result) : Result :=
  if h : a.toNat < 4 then k ⟨a.toNat, h⟩ else raise .badSlot (a.setWidth 32) s

/-- Reads the slot fields that may be `⊥`. 10_state.md R37: a `⊥` slot field is never read; in a
state that does not keep R39 the read is a fault. -/
def withFields (sl : Slot) (k : SlotFields → Result) : Result :=
  match sl.fields with
  | some f => k f
  | none => .fault .unspecifiedSlotField

/-! The palette (10_state.md R24) and the snapshot (R30). -/

/-- Writes both halves of a palette entry: the raw value and `derive` of it (10_state.md R26). -/
def State.setPal (s : State) (i : Nat) (v : Half) : State :=
  { s with palRaw := s.palRaw.write i (some v), palRgb := s.palRgb.write i (some (derive v)) }

/-- Writes the values of a list to the entries i, i+1, … (40_mode_palette.md R103). -/
def State.setPals (s : State) : Nat → List Half → State
  | _, [] => s
  | i, v :: vs => State.setPals (s.setPal i v) (i + 1) vs

/-- Makes all 16 entries of both halves `⊥` (40_mode_palette.md R100). -/
def State.clearPalette (s : State) : State :=
  { s with palRaw := clearCells Config.palMax s.palRaw, palRgb := clearCells Config.palMax s.palRgb }

/-- `for i in 0 .. RC-1: SNAP[i] <- PAL_RGB[i]` (42_color_cycle.md R160). -/
def State.takeSnapshot (s : State) : State :=
  { s with snap := copyCells s.desc.rc s.palRgb s.snap }

/-- `for i in 0 .. RC-1: PAL_RGB[i] <- SNAP[i]` (42_color_cycle.md R175). -/
def State.restorePalette (s : State) : State :=
  { s with palRgb := copyCells s.desc.rc s.snap s.palRgb }

/-! The bitplane codec (41_bitplane_codec.md). -/

/-- `MemWrite(a, 1, [c])` (00_scope.md R12). -/
def State.writePw (s : State) (a : Nat) (c : Cell Half) : State := { s with pw := s.pw.write a c }

/-- `STG[b] <- c` (00_scope.md R12). -/
def State.writeStg (s : State) (b : Nat) (c : Cell Byte) : State :=
  { s with stg := s.stg.write b c }

/-- `pixIndex(n)` under a mode descriptor (41_bitplane_codec.md R120): `⊥` when a word it reads
is. -/
def pixIndex (d : ModeDesc) (pw : Memory Half) (n : Nat) : Cell Nat :=
  let g := n / Config.groupPixels
  let b := 15 - n % Config.groupPixels
  forRange d.p
    (fun p acc => do
      let r ← acc
      let w ← pw.get (g * d.p + p)
      return if w.getLsbD b then r ||| (1 <<< p) else r)
    (some 0)

/-- The response element of a color index (30_encoding.md R80). -/
def indexElement (s : State) (n : Nat) : Cell Word :=
  (pixIndex s.desc s.pw n).map (BitVec.ofNat 32)

/-- `rgba(n)`, the response element of pixel n's realised colour (41_bitplane_codec.md R122, R127,
R128). -/
def rgbaElement (s : State) (n : Nat) : Cell Word := do
  let i ← pixIndex s.desc s.pw n
  let c ← s.palRgb.get i
  return packRgba c

/-- The plane word REILV builds from a plane's staged bytes (41_bitplane_codec.md R142): `⊥` when
one of the bytes is. -/
def stagedWord (d : ModeDesc) (stg : Memory Byte) (p g : Nat) : Cell Half := do
  let hi ← stg.get (p * stagedBytes d + 2 * g)
  let lo ← stg.get (p * stagedBytes d + 2 * g + 1)
  return pairBytes hi lo

/-- REILV's writes (41_bitplane_codec.md R142): for each word position g, for each plane p. -/
def reinterleave (d : ModeDesc) (stg : Memory Byte) (base : Nat) (pw : Memory Half) : Memory Half :=
  forRange (stagedWords d)
    (fun g m => forRange d.p (fun p m => m.write (base + g * d.p + p) (stagedWord d stg p g)) m)
    pw

/-! The step of the color-cycle engine (42_color_cycle.md R165). -/

/-- The palette writes of a step: k from 0 to n-1, the live palette at `left + k` from the snapshot
at the read cursor, which starts at c. Answers the palette and the cursor after. -/
def rotate (snap : Memory Rgb) (left right n c : Nat) (pal : Memory Rgb) : Memory Rgb × Nat :=
  forRange n
    (fun k x => (x.1.write (left + k) (snap.get x.2), nextCursor left right x.2))
    (pal, c)

/-- `step(s)` (42_color_cycle.md R165) on slot k with the fields f: the new position, the palette
writes, REDRAW. A range length of 0 or less writes nothing. -/
def State.cycleStep (s : State) (k : Fin 4) (f : SlotFields) : State :=
  let q := nextPos f
  let pal := (rotate s.snap f.left.toNat f.right.toNat f.len.toInt.toNat q.toNat s.palRgb).1
  let stepped := s.setSlot k { s.slot k with fields := some { f with pos := q } }
  { stepped with palRgb := pal }.send .redraw

/-! The ends of a transaction that reaches no command. -/

/-- The response to words that are no command (30_encoding.md R74, 60_exceptions.md R200). -/
def rejectWords (e : DecodeError) (s : State) : Result :=
  match e with
  | .badOpcode op => raise .badOpcode (op.setWidth 32) s
  | .reservedField j => raise .reservedField (BitVec.ofNat 32 j) s

/-- RESET (70_reset_and_hazards.md R230): the state of `State.reset`; no event, no response. What
the host has already been sent, and what it sent behind the RESET, stand as they are. -/
def State.applyReset (s : State) (rest : List Input) : State :=
  { State.reset with input := rest, out := s.out, schedCount := s.schedCount }

end Sys2Proof.Machine
end

