-- ==== Sys2Proof/Machine/Flags.lean ====
section
/-! DEFINITION. The slot flags `loaded`, `on`, `anim`, the only flags of BPCC (10_state.md R40), as
commands test and write them. -/

namespace Sys2Proof.Machine

/-- Some slot is on. -/
def State.anyOn (s : State) : Bool := s.slots.s0.on || s.slots.s1.on || s.slots.s2.on || s.slots.s3.on

/-- The mask of the slots that are on, bit s for slot s: Busy's data (60_exceptions.md R200). -/
def State.onMask (s : State) : Word :=
  BitVec.ofNat 32 (s.slots.s0.on.toNat + 2 * s.slots.s1.on.toNat + 4 * s.slots.s2.on.toNat +
    8 * s.slots.s3.on.toNat)

/-- The check of MODE, CCLOAD and CCUNLD: Busy while any slot is on (40_mode_palette.md R100,
42_color_cycle.md R155, R156). -/
def unlessBusy (s : State) (r : Result) : Result := if s.anyOn then raise .busy s.onMask s else r

/-- The slot state Off, Armed or Animating (10_state.md R38). -/
inductive Phase where
  | off
  | armed
  | animating
deriving DecidableEq, Repr

/-- A slot's state, encoded by its flags (10_state.md R38). -/
def Slot.phase (sl : Slot) : Phase := if sl.on then (if sl.anim then .animating else .armed) else .off

/-- CCSTART's write of the flags and fields: `pos` 0, `len` recomputed, `on` 1; `anim` and `handle`
unchanged (42_color_cycle.md R160). -/
def Slot.arm (sl : Slot) (f : SlotFields) : Slot :=
  { sl with fields := some { f with pos := 0#16, len := BitVec.ofInt 32 (rangeLen f.left f.right) },
            on := true }

/-- CCANIM's write: the new handle, `anim` 1 (42_color_cycle.md R162). -/
def Slot.animate (sl : Slot) (h : Handle) : Slot := { sl with handle := some h, anim := true }

/-- CCSTOP's write: `on` 0, `anim` 0, `handle` NONE (42_color_cycle.md R175). -/
def Slot.disarm (sl : Slot) : Slot := { sl with on := false, anim := false, handle := none }

/-- CCLOAD's write of one slot, from its descriptor and its decoded direction
(42_color_cycle.md R155). -/
def Slot.load (d : Desc) (dir : Dir) : Slot :=
  { loaded := true, on := false, anim := false, handle := none,
    fields := some
      { left := d.left, right := d.right, dir := dir,
        delay := BitVec.ofInt 32 (delayMs d.delayRaw), pos := 0#16,
        len := BitVec.ofInt 32 (rangeLen d.left d.right) } }

/-- CCUNLD's write of one slot: `loaded` 0, the fields `⊥`, the other flags and the handle unchanged
(42_color_cycle.md R156). -/
def Slot.unload (sl : Slot) : Slot := { sl with loaded := false, fields := none }

end Sys2Proof.Machine
end

