-- ==== Sys2Proof/Machine/Bitplane.lean ====
section
/-! DEFINITION. The bitplane codec commands (41_bitplane_codec.md). -/

namespace Sys2Proof.Machine

/-- PWWR a, #v (41_bitplane_codec.md R123). -/
def execPwwr (a : Addr) (v : Half) (s : State) : Result :=
  if Config.pwWords ≤ a.toNat then raise .indexOutOfRange (a.setWidth 32) s
  else ok 0#32 (s.writePw a.toNat (some v))

/-- PWRD a (41_bitplane_codec.md R124). -/
def execPwrd (a : Addr) (s : State) : Result :=
  if Config.pwWords ≤ a.toNat then raise .indexOutOfRange (a.setWidth 32) s
  else okCell ((s.pw.get a.toNat).map (·.setWidth 32)) s

/-- STAGEW b, #v (41_bitplane_codec.md R141). -/
def execStagew (b : Byte) (v : Byte) (s : State) : Result :=
  if Config.stgBytes ≤ b.toNat then raise .indexOutOfRange (b.setWidth 32) s
  else ok 0#32 (s.writeStg b.toNat (some v))

/-- REILV #y (41_bitplane_codec.md R142). -/
def execReilv (y : Half) (s : State) : Result :=
  let words := stagedWords s.desc * s.desc.p
  let base := y.toNat * words
  if Config.pwWords < base + words then raise .planeAddressOverflow (y.setWidth 32) s
  else ok 0#32 { s with pw := reinterleave s.desc s.stg base s.pw }

/-- PIX n (41_bitplane_codec.md R125). -/
def execPix (n : Addr) (s : State) : Result :=
  if s.desc.w * s.desc.h ≤ n.toNat then raise .indexOutOfRange (n.setWidth 32) s
  else okCell (indexElement s n.toNat) s

/-- RGBA n (41_bitplane_codec.md R127). -/
def execRgba (n : Addr) (s : State) : Result :=
  if s.desc.w * s.desc.h ≤ n.toNat then raise .indexOutOfRange (n.setWidth 32) s
  else okCell (rgbaElement s n.toNat) s

/-- UNPACK (41_bitplane_codec.md R122, R126). -/
def execUnpack (s : State) : Result :=
  let pixels := s.desc.w * s.desc.h
  okStreamCell (BitVec.ofNat 32 pixels) (collect (indexElement s) pixels 0) s

/-- RENDER (41_bitplane_codec.md R128). -/
def execRender (s : State) : Result :=
  let pixels := s.desc.w * s.desc.h
  okStreamCell (BitVec.ofNat 32 pixels) (collect (rgbaElement s) pixels 0) s

end Sys2Proof.Machine
end

