-- ==== Sys2Proof/Machine/ColorCycle.lean ====
section
/-! DEFINITION. The color-cycle engine commands (42_color_cycle.md). -/

namespace Sys2Proof.Machine

/-- The response of BadDirection for slot s (42_color_cycle.md R155). -/
def badDirection (slot : Word) (d : Desc) (s : State) : Result :=
  raise .badDirection ((slot <<< 16) ||| d.dirRaw.setWidth 32) s

/-- CCLOAD and the descriptor block (42_color_cycle.md R155); the lowest slot with a bad direction
is reported. -/
def execCcload (d : Quad Desc) (s : State) : Result :=
  unlessBusy s
    (match decodeDir d.s0.dirRaw, decodeDir d.s1.dirRaw, decodeDir d.s2.dirRaw, decodeDir d.s3.dirRaw with
    | none, _, _, _ => badDirection 0#32 d.s0 s
    | some _, none, _, _ => badDirection 1#32 d.s1 s
    | some _, some _, none, _ => badDirection 2#32 d.s2 s
    | some _, some _, some _, none => badDirection 3#32 d.s3 s
    | some d0, some d1, some d2, some d3 =>
      ok 0#32
        { s with slots := ⟨Slot.load d.s0 d0, Slot.load d.s1 d1, Slot.load d.s2 d2, Slot.load d.s3 d3⟩ })

/-- CCUNLD (42_color_cycle.md R156). -/
def execCcunld (s : State) : Result :=
  unlessBusy s (ok 0#32 { s with slots := Quad.map Slot.unload s.slots })

/-- CCSTART s (42_color_cycle.md R160). -/
def execCcstart (a : Byte) (s : State) : Result :=
  withSlot a s fun k =>
    if (s.slot k).loaded = false then raise .slotNotLoaded (a.setWidth 32) s
    else
      withFields (s.slot k) fun f =>
        if f.dir = .still then fail s
        else if 1 ≤ rangeLen f.left f.right ∧ s.desc.rc ≤ f.right.toNat then
          raise .cycleRange (f.right.setWidth 32) s
        else ok 0#32 (s.takeSnapshot.setSlot k ((s.slot k).arm f))

/-- CCANIM s (42_color_cycle.md R162). -/
def execCcanim (a : Byte) (s : State) : Result :=
  withSlot a s fun k =>
    if (s.slot k).on = false then fail s
    else
      withFields (s.slot k) fun f =>
        ok 0#32 (((s.cancelled k).sched k f.delay).setSlot k
          ((s.slot k).animate (Config.hostHandle s.schedCount)))

/-- CCSTEP s (42_color_cycle.md R166). -/
def execCcstep (a : Byte) (s : State) : Result :=
  withSlot a s fun k =>
    if (s.slot k).on = false then fail s
    else withFields (s.slot k) fun f => ok 0#32 (s.cycleStep k f)

/-- CCSTOP s (42_color_cycle.md R175). -/
def execCcstop (a : Byte) (s : State) : Result :=
  withSlot a s fun k =>
    if (s.slot k).on = false then fail s
    else ok 0#32 ((s.cancelled k).restorePalette.setSlot k (s.slot k).disarm)

/-- CCTICK s (42_color_cycle.md R170). -/
def execCctick (a : Byte) (s : State) : Result :=
  withSlot a s fun k =>
    if (s.slot k).anim = false then fail s
    else withFields (s.slot k) fun f => ok 0#32 (s.cycleStep k f)

/-- CCSTAT s, #q (42_color_cycle.md R180). -/
def execCcstat (a : Byte) (q : BitVec 2) (s : State) : Result :=
  withSlot a s fun k =>
    if (s.slot k).loaded = false then ok 0#32 s
    else withFields (s.slot k) fun f => ok (packSlot (s.slot k) f q) s

end Sys2Proof.Machine
end

