-- ==== Sys2Proof/Machine/ModePalette.lean ====
section
/-! DEFINITION. The mode and palette commands (40_mode_palette.md). -/

namespace Sys2Proof.Machine

/-- MODE #id (40_mode_palette.md R100). -/
def execMode (id : Half) (s : State) : Result :=
  unlessBusy s (ok 0#32 { s.clearPalette with mode := modeOfId id })

/-- MODEQ (40_mode_palette.md R102). -/
def execModeq (s : State) : Result := ok (packModeDesc s.mode) s

/-- PALREP n, the n values (40_mode_palette.md R103). -/
def execPalrep (vs : List Half) (s : State) : Result :=
  if vs.length ≠ s.desc.rc then raise .invalidPaletteSize (BitVec.ofNat 32 vs.length) s
  else ok 0#32 (s.setPals 0 vs)

/-- PALSET i, #v (40_mode_palette.md R104). -/
def execPalset (i : Byte) (v : Half) (s : State) : Result :=
  if s.desc.rc ≤ i.toNat then raise .indexOutOfRange (i.setWidth 32) s
  else ok 0#32 (s.setPal i.toNat v)

/-- PALRGB i (40_mode_palette.md R105). -/
def execPalrgb (i : Byte) (s : State) : Result :=
  if s.desc.rc ≤ i.toNat then raise .indexOutOfRange (i.setWidth 32) s
  else okCell ((s.palRgb.get i.toNat).map packRgb) s

/-- PALRAW i (40_mode_palette.md R106). -/
def execPalraw (i : Byte) (s : State) : Result :=
  if s.desc.rc ≤ i.toNat then raise .indexOutOfRange (i.setWidth 32) s
  else okCell ((s.palRaw.get i.toNat).map (·.setWidth 32)) s

end Sys2Proof.Machine
end

