-- ==== Sys2Proof/Machine/Dispatch.lean ====
section
/-! DEFINITION. The meaning of each command, one arm per row of spec/opcode_table.json. -/

namespace Sys2Proof.Machine

def exec (i : Instr) (s : State) : Host.Outcome State Fault Refusal :=
  match i with
  | .mode id => Sys2Proof.Machine.execMode id s
  | .modeq => Sys2Proof.Machine.execModeq s
  | .palrep vs => Sys2Proof.Machine.execPalrep vs s
  | .palset a v => Sys2Proof.Machine.execPalset a v s
  | .palrgb a => Sys2Proof.Machine.execPalrgb a s
  | .palraw a => Sys2Proof.Machine.execPalraw a s
  | .pwwr a v => Sys2Proof.Machine.execPwwr a v s
  | .pwrd a => Sys2Proof.Machine.execPwrd a s
  | .stagew b v => Sys2Proof.Machine.execStagew b v s
  | .reilv y => Sys2Proof.Machine.execReilv y s
  | .pix n => Sys2Proof.Machine.execPix n s
  | .rgba n => Sys2Proof.Machine.execRgba n s
  | .unpack => Sys2Proof.Machine.execUnpack s
  | .render => Sys2Proof.Machine.execRender s
  | .ccload d => Sys2Proof.Machine.execCcload d s
  | .ccunld => Sys2Proof.Machine.execCcunld s
  | .ccstart a => Sys2Proof.Machine.execCcstart a s
  | .ccanim a => Sys2Proof.Machine.execCcanim a s
  | .ccstep a => Sys2Proof.Machine.execCcstep a s
  | .ccstop a => Sys2Proof.Machine.execCcstop a s
  | .cctick a => Sys2Proof.Machine.execCctick a s
  | .ccstat a q => Sys2Proof.Machine.execCcstat a q s

end Sys2Proof.Machine
end

