-- ==== Sys2Proof/Machine/Step.lean ====
section
/-! DEFINITION. One step of BPCC: it takes the next transaction off CMD, or the RESET, and performs it
(20_memory.md R64, 70_reset_and_hazards.md R251). -/

namespace Sys2Proof.Machine

/-- One step (log 1). Where no whole transaction has arrived, BPCC holds its state unchanged
(60_exceptions.md R221, 70_reset_and_hazards.md R232). -/
def step (s : State) : Host.Outcome State Fault Refusal :=
  match fetch s.input with
  | .idle => .next s
  | .reset rest => .next (s.applyReset rest)
  | .resetInside => .fault .resetInsideCommand
  | .command cw ds rest =>
    match decode cw ds with
    | .instr i => exec i { s with input := rest }
    | .reject e => rejectWords e { s with input := rest }

/-- `s` with the transaction whose bits are w at the head of CMD, so that the next step performs it
(log 1). -/
def State.withFetchWord (s : State) (nbits w : Nat) : State :=
  { s with input := (tableWords nbits w).map Input.word ++ s.input }

end Sys2Proof.Machine
end

