-- ==== Sys2Proof/Machine/HostSide.lean ====
section
/-! DEFINITION. The host's side of CMD: the encodings of the file boundary (30_encoding.md R84, R87,
R88), the pseudo-instructions (R90), the assembler line (R89), the boot order
(70_reset_and_hazards.md R233). No command's meaning depends on it (log 9). -/

namespace Sys2Proof.Machine

/-- The pseudo-instructions (30_encoding.md R90). -/
inductive Pseudo where
  | pwcopy (a : Addr) (vs : List Half)
  | stgline (bs : List Byte)
  | stgfill (v : Byte)
  | ccdesc (left right dirRaw delayRaw : Quad Half)
  | ccrun (a : Byte)
deriving DecidableEq, Repr

/-- `PWWR a, #v0`, `PWWR a+1, #v1`, … (30_encoding.md R90). DESIGN CHOICE (log 9): an address past
`2^24 - 1`, which no `addr24` field holds, is counted on from 0; the spec does not say what such a
PWCOPY assembles to. -/
def copyWords : Addr → List Half → List Instr
  | _, [] => []
  | a, v :: vs => .pwwr a v :: copyWords (a + 1#24) vs

/-- `STAGEW b, #v0`, `STAGEW b+1, #v1`, … (30_encoding.md R90). STGLINE and STGFILL have 160 bytes, so
the index stays below 160; a longer list, which R90 does not have, is counted on from 0 past 255
(DESIGN CHOICE, log 9). -/
def stageBytes : Byte → List Byte → List Instr
  | _, [] => []
  | b, v :: vs => .stagew b v :: stageBytes (b + 1#8) vs

/-- A pseudo-instruction's expansion (30_encoding.md R90). -/
def expandPseudo : Pseudo → List Instr
  | .pwcopy a vs => copyWords a vs
  | .stgline bs => stageBytes 0#8 bs
  | .stgfill v => stageBytes 0#8 (List.replicate Config.stgBytes v)
  | .ccdesc l r d t =>
    [.ccload ⟨⟨l.s0, r.s0, d.s0, t.s0⟩, ⟨l.s1, r.s1, d.s1, t.s1⟩,
              ⟨l.s2, r.s2, d.s2, t.s2⟩, ⟨l.s3, r.s3, d.s3, t.s3⟩⟩]
  | .ccrun a => [.ccstart a, .ccanim a]

/-- The 16-bit words of file bytes, the first byte of each pair the more significant
(30_encoding.md R87); an odd last byte is left out. -/
def fileWords : List Byte → List Half
  | hi :: lo :: bs => pairBytes hi lo :: fileWords bs
  | [_] => []
  | [] => []

/-- The mode id in the header word, bits 7:0 (30_encoding.md R88). -/
def headerMode (h : Half) : Half := h &&& 0x00FF#16

/-- Bit 15 of the header word: the pixel data are compressed (30_encoding.md R88). -/
def headerCompressed (h : Half) : Bool := h.getLsbD 15

/-- The cycling command of a trailer: CCLOAD of exactly 32 bytes, else CCUNLD
(42_color_cycle.md R157, 30_encoding.md R84). -/
def trailerCommand (bytes : List Byte) : Instr :=
  if bytes.length = 32 then
    .ccload ⟨descAt (fileWords bytes) 0, descAt (fileWords bytes) 1,
             descAt (fileWords bytes) 2, descAt (fileWords bytes) 3⟩
  else .ccunld

/-- Staging and re-interleaving of scanlines y, y+1, … (70_reset_and_hazards.md R233: y = 0 .. 199; a
list past scanline 65535, which R233 does not have, is counted on from 0: DESIGN CHOICE, log 9). -/
def scanlineCommands : Half → List (List Byte) → List Instr
  | _, [] => []
  | y, bs :: lines => expandPseudo (.stgline bs) ++ .reilv y :: scanlineCommands (y + 1#16) lines

/-- The host's initialisation from a raw image: the plane words go in by PWWR
(70_reset_and_hazards.md R233, 30_encoding.md R88). -/
def bootRaw (header : Half) (palette image : List Half) (trailer : List Byte) : List Instr :=
  [.mode (headerMode header), .palrep palette] ++ expandPseudo (.pwcopy 0#24 image) ++
    [trailerCommand trailer]

/-- The host's initialisation from a compressed image, whose scanlines the host's RLE decoder has
unpacked: the bytes go in by STAGEW and REILV (70_reset_and_hazards.md R233, 30_encoding.md R88). -/
def bootStaged (header : Half) (palette : List Half) (lines : List (List Byte))
    (trailer : List Byte) : List Instr :=
  [.mode (headerMode header), .palrep palette] ++ scanlineCommands 0#16 lines ++
    [trailerCommand trailer]

/-- An image file as the host has parsed it (30_encoding.md R87, R88): the header word, the palette
words, the bytes of the pixel data, the bytes behind them. -/
structure ImageFile where
  header : Half
  palette : List Half
  pixels : List Byte
  trailer : List Byte
deriving DecidableEq, Repr

/-- The host's initialisation from an image file: bit 15 of the header says whether the pixel data
are compressed, and so whether they go in by STAGEW and REILV or by PWWR (30_encoding.md R88,
70_reset_and_hazards.md R233). `rle` is the host's RLE packet decoder, which is out of scope
(00_scope.md R5(a)). -/
def bootImage (rle : List Byte → List (List Byte)) (f : ImageFile) : List Instr :=
  if headerCompressed f.header then bootStaged f.header f.palette (rle f.pixels) f.trailer
  else bootRaw f.header f.palette (fileWords f.pixels) f.trailer

/-- Data words in an assembler line (30_encoding.md R89), in the braces whose code points are 123
and 125. -/
def asmData (vs : List Half) : String :=
  String.singleton (Char.ofNat 123) ++ String.intercalate ", " (vs.map (fun v => toString v.toNat)) ++
    String.singleton (Char.ofNat 125)

/-- The assembler line of a command, numbers in decimal (30_encoding.md R89). -/
def asmLine : Instr → String
  | .mode id => "MODE #" ++ toString id.toNat
  | .modeq => "MODEQ"
  | .palrep vs => "PALREP " ++ toString vs.length ++ ", " ++ asmData vs
  | .palset i v => "PALSET " ++ toString i.toNat ++ ", #" ++ toString v.toNat
  | .palrgb i => "PALRGB " ++ toString i.toNat
  | .palraw i => "PALRAW " ++ toString i.toNat
  | .pwwr a v => "PWWR " ++ toString a.toNat ++ ", #" ++ toString v.toNat
  | .pwrd a => "PWRD " ++ toString a.toNat
  | .stagew b v => "STAGEW " ++ toString b.toNat ++ ", #" ++ toString v.toNat
  | .reilv y => "REILV #" ++ toString y.toNat
  | .pix n => "PIX " ++ toString n.toNat
  | .rgba n => "RGBA " ++ toString n.toNat
  | .unpack => "UNPACK"
  | .render => "RENDER"
  | .ccload d => "CCLOAD " ++ asmData (descWords d)
  | .ccunld => "CCUNLD"
  | .ccstart a => "CCSTART " ++ toString a.toNat
  | .ccanim a => "CCANIM " ++ toString a.toNat
  | .ccstep a => "CCSTEP " ++ toString a.toNat
  | .ccstop a => "CCSTOP " ++ toString a.toNat
  | .cctick a => "CCTICK " ++ toString a.toNat
  | .ccstat a q => "CCSTAT " ++ toString a.toNat ++ ", #" ++ toString q.toNat

end Sys2Proof.Machine
end

