-- ==== Sys2Proof/Safety.lean ====
section
/-! DEFINITION. The terms the statements use: the invariants of 10_state.md, and who writes what. -/

namespace Sys2Proof.Machine

/-- The ranges of a loaded slot's fields (10_state.md R35, R36). -/
structure FieldsInv (f : SlotFields) : Prop where
  /-- `len` is `right - left + 1`. -/
  len_eq : f.len.toInt = rangeLen f.left f.right
  /-- `delay` lies in -1090117 .. 2133. -/
  delay_range : -1090117 ≤ f.delay.toInt ∧ f.delay.toInt ≤ 2133
  /-- `pos` is 0, `left`, `right` or between them. -/
  pos_range : f.pos = 0#16 ∨ f.pos = f.left ∨ f.pos = f.right ∨
    (f.left.toNat ≤ f.pos.toNat ∧ f.pos.toNat ≤ f.right.toNat)

/-- The invariants of one slot (10_state.md R37, R39). -/
structure SlotInv (m : GMode) (sl : Slot) : Prop where
  /-- `anim = 1` implies `on = 1`. -/
  anim_on : sl.anim = true → sl.on = true
  /-- `on = 1` implies `loaded = 1`. -/
  on_loaded : sl.on = true → sl.loaded = true
  /-- `handle ≠ NONE` exactly when `anim = 1`. -/
  handle_anim : sl.handle.isSome = sl.anim
  /-- The fields are `⊥` exactly when `loaded = 0`. -/
  loaded_fields : sl.fields.isSome = sl.loaded
  /-- The fields are in their ranges. -/
  fields_inv : ∀ f, sl.fields = some f → FieldsInv f
  /-- `on = 1` implies `dir ≠ 0`. -/
  on_dir : ∀ f, sl.on = true → sl.fields = some f → f.dir ≠ .still
  /-- `on = 1` and `len ≥ 1` imply `right < RC`. -/
  on_range : ∀ f, sl.on = true → sl.fields = some f → 1 ≤ f.len.toInt →
    f.right.toNat < (modeDesc m).rc

/-- The invariants of the machine: every cell file is in canonical form within its size
(10_state.md R24, R30, R32, R33, 41_bitplane_codec.md R144), every slot keeps R39. -/
structure State.Inv (s : State) : Prop where
  palRaw_wf : s.palRaw.wf Config.palMax = true
  palRgb_wf : s.palRgb.wf Config.palMax = true
  snap_wf : s.snap.wf Config.palMax = true
  pw_wf : s.pw.wf Config.pwWords = true
  stg_wf : s.stg.wf Config.stgBytes = true
  slots_inv : ∀ k, SlotInv s.mode (s.slot k)

/-- The output is a response (00_scope.md R8(b)); every other output is an event. -/
def Output.isResponse : Output → Bool
  | .response _ => true
  | .sched _ _ _ => false
  | .cancel _ => false
  | .redraw => false

end Sys2Proof.Machine

namespace Sys2Proof

/-- The commands that only read: they "change no state and emit no event" (20_memory.md R61). -/
def Instr.onlyReads : Instr → Bool
  | .pwrd _ | .pix _ | .unpack | .rgba _ | .render | .palrgb _ | .palraw _ | .modeq | .ccstat _ _ => true
  | .mode _ | .palrep _ | .palset _ _ | .pwwr _ _ | .stagew _ _ | .reilv _ | .ccload _ | .ccunld => false
  | .ccstart _ | .ccanim _ | .ccstep _ | .ccstop _ | .cctick _ => false

/-- The commands whose response carries the content of a cell (00_scope.md R15,
70_reset_and_hazards.md R234). -/
def Instr.readsCells : Instr → Bool
  | .pwrd _ | .pix _ | .unpack | .rgba _ | .render | .palrgb _ | .palraw _ => true
  | .modeq | .ccstat _ _ => false
  | .mode _ | .palrep _ | .palset _ _ | .pwwr _ _ | .stagew _ _ | .reilv _ | .ccload _ | .ccunld => false
  | .ccstart _ | .ccanim _ | .ccstep _ | .ccstop _ | .cctick _ => false

/-- The color-cycle commands of 42_color_cycle.md. -/
def Instr.isCycle : Instr → Bool
  | .ccload _ | .ccunld | .ccstart _ | .ccanim _ | .ccstep _ | .ccstop _ | .cctick _ | .ccstat _ _ => true
  | .mode _ | .modeq | .palrep _ | .palset _ _ | .palrgb _ | .palraw _ => false
  | .pwwr _ _ | .pwrd _ | .stagew _ _ | .reilv _ | .pix _ | .rgba _ | .unpack | .render => false

/-- The slot operand of a command that names one slot (30_encoding.md R75). -/
def Instr.slotOperand : Instr → Option Byte
  | .ccstart a | .ccanim a | .ccstep a | .ccstop a | .cctick a | .ccstat a _ => some a
  | .ccload _ | .ccunld | .mode _ | .modeq | .palrep _ | .palset _ _ | .palrgb _ | .palraw _ => none
  | .pwwr _ _ | .pwrd _ | .stagew _ _ | .reilv _ | .pix _ | .rgba _ | .unpack | .render => none

end Sys2Proof

namespace Sys2Proof.Machine

/-- Performs commands one after the other (20_memory.md R64). -/
def runAll : List Instr → State → Result
  | [], s => .next s
  | i :: is, s =>
    match exec i s with
    | .next t => runAll is t
    | .fault r => .fault r
    | .refused r => .refused r

/-- The response is Busy with bit j of its data set exactly for each slot j that is on, and nothing
else happens (60_exceptions.md R200). -/
def AnswersBusy (s : State) (r : Result) : Prop :=
  ∃ m : Word, r = .next (s.respond .busy m []) ∧
    ∀ j, m.getLsbD j = true ↔ ∃ k : Fin 4, k.val = j ∧ (s.slot k).on = true

/-- The 16-bit word at byte 2·i of a trailer, as a number: the first byte of a pair is the more
significant (30_encoding.md R87). -/
def trailerWord (trailer : List Byte) (i : Nat) : Nat :=
  (trailer.getD (2 * i) 0#8).toNat * 256 + (trailer.getD (2 * i + 1) 0#8).toNat

/-- The slots after the host's initialisation from reset (30_encoding.md R84, 42_color_cycle.md R155,
R157): a trailer of 32 bytes whose four direction words are at most 2 loads the four slots, with left,
right, direction and delay at the words k, 4 + k, 8 + k, 12 + k; after any other trailer every slot is
as at reset. -/
def SlotsOfTrailer (trailer : List Byte) (t : State) : Prop :=
  (trailer.length = 32 → (∀ k, k < 4 → trailerWord trailer (8 + k) ≤ 2) →
    ∀ k : Fin 4, ∃ f : SlotFields,
      t.slot k = { loaded := true, on := false, anim := false, handle := none, fields := some f } ∧
      f.left.toNat = trailerWord trailer k ∧ f.right.toNat = trailerWord trailer (4 + k) ∧
      dirInt f.dir = (trailerWord trailer (8 + k) : Int) - 1 ∧
      f.delay.toInt = Int.fdiv (100 * (128 - (trailerWord trailer (12 + k) : Int)) + 3) 6 ∧
      f.pos = 0#16 ∧
      f.len.toInt = (trailerWord trailer (4 + k) : Int) - trailerWord trailer k + 1) ∧
  (¬(trailer.length = 32 ∧ ∀ k, k < 4 → trailerWord trailer (8 + k) ≤ 2) →
    ∀ k, t.slot k = Slot.reset)

/-- The position after a step of 42_color_cycle.md R165, as a number. -/
def steppedPos (f : SlotFields) : Int :=
  if (f.pos.toNat : Int) - dirInt f.dir < f.left.toNat then f.right.toNat
  else if (f.pos.toNat : Int) - dirInt f.dir > f.right.toNat then f.left.toNat
  else f.pos.toNat - dirInt f.dir

/-- What a step of slot k with the fields f does to the machine (42_color_cycle.md R165, in the
closed form of R167): the position; the palette range; everything else as before; REDRAW and the OK
response. -/
structure StepEffect (s t : State) (k : Fin 4) (f : SlotFields) : Prop where
  /-- The slot's position is the stepped one; its other fields and its flags are as before. -/
  pos_eq : ∃ q : Half, (q.toNat : Int) = steppedPos f ∧
    t.slot k = { s.slot k with fields := some { f with pos := q } }
  /-- The other slots are as before. -/
  others : ∀ j, j ≠ k → t.slot j = s.slot j
  /-- Entry `left + j` takes the snapshot's entry `left + ((q - left + j) mod N)`. -/
  range : f.left.toNat ≤ f.right.toNat → ∀ j, j < f.right.toNat - f.left.toNat + 1 →
    t.palRgb.get (f.left.toNat + j) = s.snap.get (f.left.toNat +
      ((steppedPos f).toNat - f.left.toNat + j) % (f.right.toNat - f.left.toNat + 1))
  /-- Every entry outside `left .. right` is as before. -/
  outside : ∀ i, (i < f.left.toNat ∨ f.right.toNat < i) → t.palRgb.get i = s.palRgb.get i
  /-- REDRAW, then the response. -/
  sent : t.out = s.out ++ [.redraw, .response { status := .ok, data := 0#32, stream := [] }]
  /-- Everything else is as before. -/
  frame : t = { s with palRgb := t.palRgb, slots := t.slots, out := t.out }

end Sys2Proof.Machine
end

