-- ==== Sys2Proof/Certificates/Slice0/Obligations.lean ====
section
/-! DEFINITION. The statements for the provers. `{ s with pw := t.pw, … } = t` says that every field
of the state that the update does not name is unchanged. What a command sends (RSP, SCHED, CANCEL,
REDRAW of 00_scope.md R8) is read in the model's field `out` (log 2), what the host sends (CMD, RESET)
in its field `input` (log 1): the fields are the model's, what stands in them is the spec's. -/

open Sys2Proof Sys2Proof.Machine

/-! Reset, the invariants, the machine as a whole. -/

/-- 10_state.md R49: the reset-value table. -/
def Obligations.ResetStateValues : Prop :=
  State.reset.mode = .mode0 ∧
  (∀ i, State.reset.palRaw.get i = none ∧ State.reset.palRgb.get i = none ∧
    State.reset.snap.get i = none) ∧
  (∀ a, State.reset.pw.get a = none) ∧ (∀ b, State.reset.stg.get b = none) ∧
  ∀ k, (State.reset.slot k).loaded = false ∧ (State.reset.slot k).on = false ∧
    (State.reset.slot k).anim = false ∧ (State.reset.slot k).handle = none ∧
    (State.reset.slot k).fields = none

/-- 10_state.md R39: reset has the invariants; the canonical form of the cell files is the model's own
(log 4). -/
def Obligations.ResetHasInvariants : Prop := State.reset.Inv

/-- 10_state.md R39: every step keeps the invariants; with them, the field ranges of R35 and the
canonical form of every cell file, which is the model's own (log 4). -/
def Obligations.StepKeepsInvariants : Prop :=
  ∀ s t : State, s.Inv → step s = .next t → t.Inv

/-- 10_state.md R37: "A `⊥` slot field is never read". -/
def Obligations.SlotFieldsNeverReadUnspecified : Prop :=
  ∀ (i : Instr) (s : State), s.Inv → exec i s ≠ .fault .unspecifiedSlotField

/-- A command completes, or it is one of the seven of 70_reset_and_hazards.md R234 and its response
would carry `⊥` (00_scope.md R15). -/
def Obligations.CommandsCompleteOrReadUnspecified : Prop :=
  ∀ (i : Instr) (s : State), s.Inv →
    (∃ t, exec i s = .next t) ∨
    (i.readsCells = true ∧ exec i s = .fault .unspecifiedResponse)

/-- 00_scope.md R15, 93_implementation_defined.md U1: a response that would carry `⊥` is a fault: of a
palette entry or a plane word that is read, of a plane word that a pixel is unpacked from, of the
palette entry that a pixel's index names. -/
def Obligations.UnspecifiedResponseFaults : Prop :=
  ∀ s : State,
    (∀ i : Byte, i.toNat < s.desc.rc → s.palRgb.get i.toNat = none →
      exec (.palrgb i) s = .fault .unspecifiedResponse) ∧
    (∀ i : Byte, i.toNat < s.desc.rc → s.palRaw.get i.toNat = none →
      exec (.palraw i) s = .fault .unspecifiedResponse) ∧
    (∀ a : Addr, a.toNat < 16000 → s.pw.get a.toNat = none →
      exec (.pwrd a) s = .fault .unspecifiedResponse) ∧
    (∀ n : Addr, n.toNat < s.desc.w * s.desc.h →
      (∃ p, p < s.desc.p ∧ s.pw.get (n.toNat / 16 * s.desc.p + p) = none) →
      exec (.pix n) s = .fault .unspecifiedResponse ∧
      exec (.rgba n) s = .fault .unspecifiedResponse) ∧
    (∀ (n : Addr) (r : Nat), n.toNat < s.desc.w * s.desc.h →
      pixIndex s.desc s.pw n.toNat = some r → s.palRgb.get r = none →
      exec (.rgba n) s = .fault .unspecifiedResponse) ∧
    ((∃ a, a < 16000 ∧ s.pw.get a = none) →
      exec .unpack s = .fault .unspecifiedResponse ∧
      exec .render s = .fault .unspecifiedResponse) ∧
    ((∃ n r, n < s.desc.w * s.desc.h ∧ pixIndex s.desc s.pw n = some r ∧ s.palRgb.get r = none) →
      exec .render s = .fault .unspecifiedResponse)

/-- 30_encoding.md R79: exactly one response, behind the command's events; a stream only on an OK
response to UNPACK or RENDER. -/
def Obligations.OneResponsePerCommand : Prop :=
  ∀ (i : Instr) (s t : State), exec i s = .next t →
    ∃ (evs : List Output) (r : Response), t.out = s.out ++ evs ++ [.response r] ∧
      (∀ o ∈ evs, o.isResponse = false) ∧
      (r.stream ≠ [] → r.status = .ok ∧ (i = .unpack ∨ i = .render))

/-- 60_exceptions.md R202, R201: a status other than OK leaves every piece of state unchanged and
comes with no event. -/
def Obligations.ErrorChangesNothing : Prop :=
  ∀ (i : Instr) (s t : State), exec i s = .next t →
    ∃ (evs : List Output) (r : Response), t.out = s.out ++ evs ++ [.response r] ∧
      (r.status ≠ .ok → t = { s with out := s.out ++ [.response r] })

/-- 20_memory.md R61: a read changes no state, emits no event, and answers the same again. -/
def Obligations.ReadsChangeNothing : Prop :=
  ∀ (i : Instr) (s t : State), i.onlyReads = true → exec i s = .next t →
    ∃ r : Response, t = { s with out := s.out ++ [.response r] } ∧
      exec i t = .next { t with out := t.out ++ [.response r] }

/-! Who writes what. -/

/-- 10_state.md R22: MODE is written only by the MODE command, never to 3, and cannot change while a
slot is on. -/
def Obligations.ModeWrittenOnlyByMode : Prop :=
  (∀ m : GMode, modeId m ≠ 3#2) ∧
  ∀ (i : Instr) (s t : State), exec i s = .next t → t.mode ≠ s.mode →
    (∃ id, i = .mode id) ∧ ∀ k, (s.slot k).on = false

/-- 10_state.md R26: who writes a palette entry, and with what. -/
def Obligations.PaletteWriters : Prop :=
  ∀ (i : Instr) (s t : State), s.Inv → exec i s = .next t → ∀ j,
    (t.palRaw.get j ≠ s.palRaw.get j →
      (∃ vs, i = .palrep vs) ∨ (∃ a v, i = .palset a v) ∨
      (∃ id, i = .mode id ∧ t.palRaw.get j = none)) ∧
    (t.palRgb.get j ≠ s.palRgb.get j →
      (((∃ vs, i = .palrep vs) ∨ (∃ a v, i = .palset a v)) ∧
        t.palRgb.get j = (t.palRaw.get j).map derive) ∨
      ((∃ a, i = .ccstep a ∨ i = .cctick a ∨ i = .ccstop a) ∧
        ∃ c, t.palRgb.get j = s.snap.get c) ∨
      (∃ id, i = .mode id ∧ t.palRgb.get j = none))

/-- 10_state.md R31: SNAP is written only by CCSTART, entries below RC, from the live palette. -/
def Obligations.SnapshotWriters : Prop :=
  ∀ (i : Instr) (s t : State), s.Inv → exec i s = .next t → ∀ j,
    t.snap.get j ≠ s.snap.get j →
      (∃ a, i = .ccstart a) ∧ j < s.desc.rc ∧ t.snap.get j = s.palRgb.get j

/-- 10_state.md R31, R44: no command but CCSTEP, CCTICK and CCSTOP reads the snapshot: with any other
snapshot contents every other command answers the same and leaves the same state outside SNAP. -/
def Obligations.SnapshotReadOnlyByStepAndStop : Prop :=
  ∀ (i : Instr) (s t : State) (m : Memory Rgb),
    (∀ a, i ≠ .ccstep a ∧ i ≠ .cctick a ∧ i ≠ .ccstop a) → exec i s = .next t →
    ∃ u, exec i { s with snap := m } = .next u ∧ u = { t with snap := u.snap }

/-- 10_state.md R32, R33: PW is written only by PWWR and REILV, STG only by STAGEW. -/
def Obligations.BufferWriters : Prop :=
  ∀ (i : Instr) (s t : State), exec i s = .next t →
    (t.pw ≠ s.pw → (∃ a v, i = .pwwr a v) ∨ ∃ y, i = .reilv y) ∧
    (t.stg ≠ s.stg → ∃ b v, i = .stagew b v)

/-- 10_state.md R41: only the commands of 42_color_cycle.md write a slot. -/
def Obligations.SlotsWrittenOnlyByCycleCommands : Prop :=
  ∀ (i : Instr) (s t : State), exec i s = .next t → ∀ k, t.slot k ≠ s.slot k → i.isCycle = true

/-- 42_color_cycle.md R185: a command on slot s writes no field of another slot. -/
def Obligations.SlotsAreIndependent : Prop :=
  ∀ (i : Instr) (s t : State) (a : Byte), i.slotOperand = some a → exec i s = .next t →
    ∀ k : Fin 4, k.val ≠ a.toNat → t.slot k = s.slot k

/-- 60_exceptions.md R211: every CCSTEP and CCTICK that responds OK emits one REDRAW, before its
response; no other command emits one. -/
def Obligations.RedrawOnlyFromSteps : Prop :=
  ∀ (i : Instr) (s t : State), exec i s = .next t →
    ∃ (evs : List Output) (r : Response), t.out = s.out ++ evs ++ [.response r] ∧
      ((r.status = .ok ∧ ∃ a, i = .ccstep a ∨ i = .cctick a) → evs = [.redraw]) ∧
      ((r.status ≠ .ok ∨ ∀ a, i ≠ .ccstep a ∧ i ≠ .cctick a) → Output.redraw ∉ evs)

/-- 42_color_cycle.md R164: CANCEL comes only from CCANIM and CCSTOP on an Animating slot, with that
slot's handle. -/
def Obligations.CancelOnlyFromAnimatingSlot : Prop :=
  ∀ (i : Instr) (s t : State) (evs : List Output) (h : Option Handle), s.Inv →
    exec i s = .next t → t.out = s.out ++ evs → Output.cancel h ∈ evs →
    ∃ (a : Byte) (k : Fin 4), (i = .ccanim a ∨ i = .ccstop a) ∧ k.val = a.toNat ∧
      (s.slot k).anim = true ∧ h = (s.slot k).handle ∧ h ≠ none

/-! Encoding and the step. -/

/-- 30_encoding.md R74, R75, 00_scope.md R8(a): the words of a well-formed command, with anything
behind them on CMD, are taken off CMD as one transaction and decode to that command. -/
def Obligations.DecodeOfEncode : Prop :=
  ∀ (i : Instr) (rest : List Input), i.WellFormed →
    ∃ cw ds, encode i = cw :: ds ∧
      fetch ((encode i).map Input.word ++ rest) = .command cw ds rest ∧ decode cw ds = .instr i

/-- 30_encoding.md R74, R75: words that decode to a command are that command's encoding; no other
words stand for it. -/
def Obligations.EncodeOfDecode : Prop :=
  ∀ (cw : Word) (ds : List Word) (i : Instr), ds.length = dataCount cw → decode cw ds = .instr i →
    encode i = cw :: ds ∧ i.WellFormed

/-- 30_encoding.md R76: a word whose opcode is not in the map raises BadOpcode and consumes no data
words. -/
def Obligations.ReservedOpcodesRejected : Prop :=
  ∀ (cw : Word) (rest : List Input),
    (∀ o : Op, opCode o ≠ cw.extractLsb' 24 8) →
    fetch (.word cw :: rest) = .command cw [] rest ∧
      decode cw [] = .reject (.badOpcode (cw.extractLsb' 24 8))

/-- 30_encoding.md R74: a listed opcode whose must-be-zero bits are not all 0 raises
ReservedField(0), and else the first data word with a bit of 31:16 set raises ReservedField of its
position. -/
def Obligations.ReservedFieldsRejected : Prop :=
  ∀ (cw : Word) (ds : List Word) (o : Op), opCode o = cw.extractLsb' 24 8 →
    (cw &&& opMask o ≠ opMatch o → decode cw ds = .reject (.reservedField 0)) ∧
    (cw &&& opMask o = opMatch o → ∀ j, j < ds.length →
      (ds.getD j 0#32).toNat ≥ 65536 → (∀ l, l < j → (ds.getD l 0#32).toNat < 65536) →
      decode cw ds = .reject (.reservedField (j + 1)))

/-- Words of 95_test_vectors.md decode to the commands they stand for. -/
def Obligations.KnownWordsDecode : Prop :=
  decode 0x01000007#32 [] = .instr (.mode 7#16) ∧
  decode 0x11000FFF#32 [] = .instr (.palset 0#8 0x0FFF#16) ∧
  decode 0x20000000#32 [0x0000AAAA#32] = .instr (.pwwr 0#24 0xAAAA#16) ∧
  decode 0x222800C0#32 [] = .instr (.stagew 40#8 0xC0#8) ∧
  decode 0x3000F9FF#32 [] = .instr (.pix 63999#24) ∧
  decode 0x47030002#32 [] = .instr (.ccstat 3#8 2#2) ∧
  decode 0x02000001#32 [] = .reject (.reservedField 0) ∧
  decode 0x05123456#32 [] = .reject (.badOpcode 0x05#8)

/-- A step runs the decoded command: when a whole transaction stands at the head of CMD and decodes
to i, step is exec of i with the transaction taken off CMD. That CMD is the field `input` and that the
step takes a whole transaction at once is the model's (log 1). -/
def Obligations.StepRunsDecoded : Prop :=
  ∀ (s : State) (cw : Word) (ds : List Word) (rest : List Input) (i : Instr),
    fetch s.input = .command cw ds rest → decode cw ds = .instr i →
    step s = exec i { s with input := rest }

/-- 30_encoding.md R73, R74, 60_exceptions.md R200, R202: words that are no command are taken off CMD
and answered BadOpcode or ReservedField; nothing else happens. -/
def Obligations.StepRejectsWords : Prop :=
  ∀ (s : State) (cw : Word) (ds : List Word) (rest : List Input),
    fetch s.input = .command cw ds rest →
    (∀ op, decode cw ds = .reject (.badOpcode op) →
      step s = .next { s with input := rest, out := s.out ++ [.response
        { status := .badOpcode, data := op.setWidth 32, stream := [] }] }) ∧
    (∀ j, decode cw ds = .reject (.reservedField j) →
      step s = .next { s with input := rest, out := s.out ++ [.response
        { status := .reservedField, data := BitVec.ofNat 32 j, stream := [] }] })

/-- 70_reset_and_hazards.md R230, R231: RESET gives the reset state, with no event and no response;
a tick that arrives after it responds FAIL and changes nothing. R232, 60_exceptions.md R221: with
nothing on CMD BPCC holds its state. The fields `input`, `out` and `schedCount` are the model's own
(log 1, 2, 3). -/
def Obligations.StepTakesReset : Prop :=
  (∀ s : State, s.input = [] → step s = .next s) ∧
  ∀ (s : State) (rest : List Input), s.input = .reset :: rest →
    ∃ t, step s = .next t ∧
      t = { State.reset with input := rest, out := s.out, schedCount := s.schedCount } ∧
      ∀ a : Byte, a.toNat < 4 → exec (.cctick a) t = .next (t.respond .fail 0#32 [])

/-! Values. -/

/-- 10_state.md R20, R21: the mode table, 256000 bits in every mode, the whole buffer used. -/
def Obligations.ModeTableUsesWholeBuffer : Prop :=
  modeDesc .mode0 = { w := 320, h := 200, p := 4, rc := 16 } ∧
  modeDesc .mode1 = { w := 640, h := 200, p := 2, rc := 4 } ∧
  modeDesc .mode2 = { w := 640, h := 400, p := 1, rc := 2 } ∧
  ∀ m, (modeDesc m).w * (modeDesc m).h * (modeDesc m).p = 256000 ∧
    (modeDesc m).w * (modeDesc m).h * (modeDesc m).p / 16 = 16000 ∧
    (modeDesc m).w % 16 = 0 ∧ (modeDesc m).rc = 2 ^ (modeDesc m).p

/-- 40_mode_palette.md R101: the colour derivation, in numbers; bits 15:12 are not read; with the
extension bits 11, 7, 3 zero every component is 34 times the 3-bit value. -/
def Obligations.DeriveFormula : Prop :=
  ∀ v : Half,
    (derive v).r.toNat = 17 * (2 * (v.toNat / 256 % 8) + v.toNat / 2048 % 2) ∧
    (derive v).g.toNat = 17 * (2 * (v.toNat / 16 % 8) + v.toNat / 128 % 2) ∧
    (derive v).b.toNat = 17 * (2 * (v.toNat % 8) + v.toNat / 8 % 2) ∧
    derive v = derive (v &&& 0x0FFF#16) ∧
    (v &&& 0x0888#16 = 0#16 → (derive v).r.toNat = 34 * (v.toNat / 256 % 8) ∧
      (derive v).g.toNat = 34 * (v.toNat / 16 % 8) ∧ (derive v).b.toNat = 34 * (v.toNat % 8))

/-- 42_color_cycle.md R152: the delay is the integer nearest to 1000·(128 - raw)/60, within a third
of it, and lies in -1090117 .. 2133. -/
def Obligations.DelayIsNearest : Prop :=
  ∀ raw : Half,
    -20 ≤ 60 * delayMs raw - 1000 * (128 - (raw.toNat : Int)) ∧
    60 * delayMs raw - 1000 * (128 - (raw.toNat : Int)) ≤ 20 ∧
    -1090117 ≤ delayMs raw ∧ delayMs raw ≤ 2133 ∧
    (128 < raw.toNat → delayMs raw < 0)

/-- 41_bitplane_codec.md R120, 20_memory.md R52: bit p of the color index of the pixel at column x,
row y is bit `15 - (x mod 16)` of the word at `(y·(W div 16) + (x div 16))·P + p`, and no other bit
is set. -/
def Obligations.PixelIndexBits : Prop :=
  ∀ (m : GMode) (pw : Memory Half) (x y : Nat), x < (modeDesc m).w → y < (modeDesc m).h →
    (∀ p, p < (modeDesc m).p →
      (pw.get ((y * ((modeDesc m).w / 16) + x / 16) * (modeDesc m).p + p)).isSome = true) →
    ∃ r, pixIndex (modeDesc m) pw (y * (modeDesc m).w + x) = some r ∧ r < (modeDesc m).rc ∧
      ∀ p w, p < (modeDesc m).p →
        pw.get ((y * ((modeDesc m).w / 16) + x / 16) * (modeDesc m).p + p) = some w →
        r.testBit p = w.getLsbD (15 - x % 16)

/-! The mode and palette commands. -/

/-- 40_mode_palette.md R100. -/
def Obligations.ModeCommand : Prop :=
  ∀ (id : Half) (s : State),
    encode (.mode id) = [(0x01#8 ++ 0x00#8 ++ id : BitVec 32)] ∧
    ((∃ k, (s.slot k).on = true) → AnswersBusy s (exec (.mode id) s)) ∧
    ((∀ k, (s.slot k).on = false) → ∃ t, exec (.mode id) s = .next t ∧
      t.mode = (if id.toNat = 1 then .mode1 else if id.toNat = 2 then .mode2 else .mode0) ∧
      (∀ i, i < 16 → t.palRaw.get i = none ∧ t.palRgb.get i = none) ∧
      (∀ i, 16 ≤ i → t.palRaw.get i = s.palRaw.get i ∧ t.palRgb.get i = s.palRgb.get i) ∧
      t.out = s.out ++ [.response { status := .ok, data := 0#32, stream := [] }] ∧
      t = { s with mode := t.mode, palRaw := t.palRaw, palRgb := t.palRgb, out := t.out })

/-- 40_mode_palette.md R102. -/
def Obligations.ModeqCommand : Prop :=
  ∀ s : State,
    encode .modeq = [0x02000000#32] ∧
    ∃ d : Word, exec .modeq s = .next (s.respond .ok d []) ∧
      d.toNat = s.desc.w * 2 ^ 20 + s.desc.h * 2 ^ 8 + s.desc.p * 2 ^ 4 + (modeId s.mode).toNat ∧
      d = (match s.mode with
        | .mode0 => 0x1400C840#32
        | .mode1 => 0x2800C821#32
        | .mode2 => 0x28019012#32)

/-- 40_mode_palette.md R103; its data words are taken off CMD whatever the outcome. -/
def Obligations.PalrepCommand : Prop :=
  ∀ (vs : List Half) (s : State), vs.length < 256 →
    encode (.palrep vs) = ((0x10#8 ++ BitVec.ofNat 8 vs.length ++ 0#16 : BitVec 32) ::
      vs.map (fun v => (0#16 ++ v : BitVec 32))) ∧
    (∀ rest, step { s with input := (encode (.palrep vs)).map Input.word ++ rest } =
      exec (.palrep vs) { s with input := rest }) ∧
    (vs.length ≠ s.desc.rc →
      exec (.palrep vs) s = .next (s.respond .invalidPaletteSize (BitVec.ofNat 32 vs.length) [])) ∧
    (vs.length = s.desc.rc → ∃ t, exec (.palrep vs) s = .next t ∧
      (∀ i, i < s.desc.rc → t.palRaw.get i = vs[i]? ∧ t.palRgb.get i = vs[i]?.map derive) ∧
      (∀ i, s.desc.rc ≤ i → t.palRaw.get i = s.palRaw.get i ∧ t.palRgb.get i = s.palRgb.get i) ∧
      t.out = s.out ++ [.response { status := .ok, data := 0#32, stream := [] }] ∧
      t = { s with palRaw := t.palRaw, palRgb := t.palRgb, out := t.out })

/-- 40_mode_palette.md R104. -/
def Obligations.PalsetCommand : Prop :=
  ∀ (i : Byte) (v : Half) (s : State),
    encode (.palset i v) = [(0x11#8 ++ i ++ v : BitVec 32)] ∧
    (s.desc.rc ≤ i.toNat →
      exec (.palset i v) s = .next (s.respond .indexOutOfRange (i.setWidth 32) [])) ∧
    (i.toNat < s.desc.rc → ∃ t, exec (.palset i v) s = .next t ∧
      (∀ j, t.palRaw.get j = if j = i.toNat then some v else s.palRaw.get j) ∧
      (∀ j, t.palRgb.get j = if j = i.toNat then some (derive v) else s.palRgb.get j) ∧
      t.out = s.out ++ [.response { status := .ok, data := 0#32, stream := [] }] ∧
      t = { s with palRaw := t.palRaw, palRgb := t.palRgb, out := t.out })

/-- 40_mode_palette.md R105. -/
def Obligations.PalrgbCommand : Prop :=
  ∀ (i : Byte) (s : State),
    encode (.palrgb i) = [(0x12#8 ++ i ++ 0#16 : BitVec 32)] ∧
    (s.desc.rc ≤ i.toNat →
      exec (.palrgb i) s = .next (s.respond .indexOutOfRange (i.setWidth 32) [])) ∧
    (∀ c, i.toNat < s.desc.rc → s.palRgb.get i.toNat = some c →
      exec (.palrgb i) s = .next (s.respond .ok
        (BitVec.ofNat 32 (c.r.toNat * 2 ^ 16 + c.g.toNat * 2 ^ 8 + c.b.toNat)) []))

/-- 40_mode_palette.md R106. -/
def Obligations.PalrawCommand : Prop :=
  ∀ (i : Byte) (s : State),
    encode (.palraw i) = [(0x13#8 ++ i ++ 0#16 : BitVec 32)] ∧
    (s.desc.rc ≤ i.toNat →
      exec (.palraw i) s = .next (s.respond .indexOutOfRange (i.setWidth 32) [])) ∧
    (∀ v, i.toNat < s.desc.rc → s.palRaw.get i.toNat = some v →
      exec (.palraw i) s = .next (s.respond .ok (v.setWidth 32) []))

/-- 40_mode_palette.md R107: PALSET, then any commands that write no palette entry i, then the two
reads. -/
def Obligations.PalsetReadsBack : Prop :=
  ∀ (i : Byte) (v : Half) (s t u : State) (is : List Instr), i.toNat < s.desc.rc →
    exec (.palset i v) s = .next t → runAll is t = .next u →
    (∀ j ∈ is, (∀ vs, j ≠ .palrep vs) ∧ (∀ w, j ≠ .palset i w) ∧ (∀ id, j ≠ .mode id) ∧
      ∀ a, j ≠ .ccstep a ∧ j ≠ .cctick a ∧ j ≠ .ccstop a) →
    exec (.palraw i) u = .next (u.respond .ok (v.setWidth 32) []) ∧
    exec (.palrgb i) u = .next (u.respond .ok
      (BitVec.ofNat 32 ((derive v).r.toNat * 2 ^ 16 + (derive v).g.toNat * 2 ^ 8 + (derive v).b.toNat)) [])

/-! The bitplane codec commands. -/

/-- 41_bitplane_codec.md R123; its data word is taken off CMD whatever the outcome. -/
def Obligations.PwwrCommand : Prop :=
  ∀ (a : Addr) (v : Half) (s : State),
    encode (.pwwr a v) = [(0x20#8 ++ a : BitVec 32), (0#16 ++ v : BitVec 32)] ∧
    (∀ rest, step { s with input := (encode (.pwwr a v)).map Input.word ++ rest } =
      exec (.pwwr a v) { s with input := rest }) ∧
    (16000 ≤ a.toNat → exec (.pwwr a v) s = .next (s.respond .indexOutOfRange (a.setWidth 32) [])) ∧
    (a.toNat < 16000 → ∃ t, exec (.pwwr a v) s = .next t ∧
      (∀ b, t.pw.get b = if b = a.toNat then some v else s.pw.get b) ∧
      t.out = s.out ++ [.response { status := .ok, data := 0#32, stream := [] }] ∧
      t = { s with pw := t.pw, out := t.out })

/-- 41_bitplane_codec.md R124. -/
def Obligations.PwrdCommand : Prop :=
  ∀ (a : Addr) (s : State),
    encode (.pwrd a) = [(0x21#8 ++ a : BitVec 32)] ∧
    (16000 ≤ a.toNat → exec (.pwrd a) s = .next (s.respond .indexOutOfRange (a.setWidth 32) [])) ∧
    (∀ v, a.toNat < 16000 → s.pw.get a.toNat = some v →
      exec (.pwrd a) s = .next (s.respond .ok (v.setWidth 32) []))

/-- 41_bitplane_codec.md R141. -/
def Obligations.StagewCommand : Prop :=
  ∀ (b v : Byte) (s : State),
    encode (.stagew b v) = [(0x22#8 ++ b ++ (0#8 ++ v : BitVec 16) : BitVec 32)] ∧
    (160 ≤ b.toNat → exec (.stagew b v) s = .next (s.respond .indexOutOfRange (b.setWidth 32) [])) ∧
    (b.toNat < 160 → ∃ t, exec (.stagew b v) s = .next t ∧
      (∀ c, t.stg.get c = if c = b.toNat then some v else s.stg.get c) ∧
      t.out = s.out ++ [.response { status := .ok, data := 0#32, stream := [] }] ∧
      t = { s with stg := t.stg, out := t.out })

/-- 41_bitplane_codec.md R142. -/
def Obligations.ReilvCommand : Prop :=
  ∀ (y : Half) (s : State), s.Inv →
    encode (.reilv y) = [(0x23#8 ++ 0x00#8 ++ y : BitVec 32)] ∧
    (200 ≤ y.toNat →
      exec (.reilv y) s = .next (s.respond .planeAddressOverflow (y.setWidth 32) [])) ∧
    (y.toNat < 200 → ∃ t, exec (.reilv y) s = .next t ∧
      (∀ g p, g < 160 / s.desc.p / 2 → p < s.desc.p →
        t.pw.get (80 * y.toNat + g * s.desc.p + p) =
          (match s.stg.get (p * (160 / s.desc.p) + 2 * g),
                 s.stg.get (p * (160 / s.desc.p) + 2 * g + 1) with
          | some hi, some lo => some (BitVec.ofNat 16 (hi.toNat * 256 + lo.toNat))
          | _, _ => none)) ∧
      (∀ a, (a < 80 * y.toNat ∨ 80 * y.toNat + 80 ≤ a) → t.pw.get a = s.pw.get a) ∧
      t.out = s.out ++ [.response { status := .ok, data := 0#32, stream := [] }] ∧
      t = { s with pw := t.pw, out := t.out })

/-- 41_bitplane_codec.md R143: re-interleave and unpack agree. -/
def Obligations.ReilvUnpackAgree : Prop :=
  ∀ (y : Half) (s t : State) (x : Nat), s.Inv → y.toNat < 200 → exec (.reilv y) s = .next t →
    (∀ b, b < 160 → (s.stg.get b).isSome = true) → x < s.desc.w →
    (s.mode ≠ .mode2 → ∃ r, pixIndex t.desc t.pw (y.toNat * s.desc.w + x) = some r ∧
      ∀ p v, p < s.desc.p → s.stg.get (p * (160 / s.desc.p) + x / 8) = some v →
        r.testBit p = v.getLsbD (7 - x % 8)) ∧
    (s.mode = .mode2 → ∀ k, k < 2 →
      ∃ r, pixIndex t.desc t.pw ((2 * y.toNat + k) * s.desc.w + x) = some r ∧
        ∀ v, s.stg.get (80 * k + x / 8) = some v → r.testBit 0 = v.getLsbD (7 - x % 8))

/-- 41_bitplane_codec.md R125, R120, R121: where the pixel's words are written, PIX answers the index
whose bit p is the plane-p bit. -/
def Obligations.PixCommand : Prop :=
  ∀ (n : Addr) (s : State),
    encode (.pix n) = [(0x30#8 ++ n : BitVec 32)] ∧
    (s.desc.w * s.desc.h ≤ n.toNat →
      exec (.pix n) s = .next (s.respond .indexOutOfRange (n.setWidth 32) [])) ∧
    (n.toNat < s.desc.w * s.desc.h →
      (∀ p, p < s.desc.p → (s.pw.get (n.toNat / 16 * s.desc.p + p)).isSome = true) →
      ∃ r, exec (.pix n) s = .next (s.respond .ok (BitVec.ofNat 32 r) []) ∧ r < s.desc.rc ∧
        ∀ p w, p < s.desc.p → s.pw.get (n.toNat / 16 * s.desc.p + p) = some w →
          r.testBit p = w.getLsbD (15 - n.toNat % 16))

/-- 41_bitplane_codec.md R127. -/
def Obligations.RgbaCommand : Prop :=
  ∀ (n : Addr) (s : State),
    encode (.rgba n) = [(0x31#8 ++ n : BitVec 32)] ∧
    (s.desc.w * s.desc.h ≤ n.toNat →
      exec (.rgba n) s = .next (s.respond .indexOutOfRange (n.setWidth 32) [])) ∧
    (∀ r c, n.toNat < s.desc.w * s.desc.h → pixIndex s.desc s.pw n.toNat = some r →
      s.palRgb.get r = some c →
      exec (.rgba n) s = .next (s.respond .ok (BitVec.ofNat 32
        (c.r.toNat * 2 ^ 24 + c.g.toNat * 2 ^ 16 + c.b.toNat * 2 ^ 8 + 255)) []))

/-- 41_bitplane_codec.md R126: with every plane word written, UNPACK answers W·H and the stream of
every pixel's index in order. -/
def Obligations.UnpackCommand : Prop :=
  ∀ s : State,
    encode .unpack = [0x32000000#32] ∧
    ((∀ a, a < 16000 → (s.pw.get a).isSome = true) →
      ∃ vs, exec .unpack s =
          .next (s.respond .ok (BitVec.ofNat 32 (s.desc.w * s.desc.h)) vs) ∧
        vs.length = s.desc.w * s.desc.h ∧
        ∀ n, n < s.desc.w * s.desc.h → ∃ r, pixIndex s.desc s.pw n = some r ∧
          vs[n]? = some (BitVec.ofNat 32 r))

/-- 41_bitplane_codec.md R128: with every plane word written and, for every pixel, the palette entry
that its index names, RENDER answers W·H and the stream of every pixel's colour in order. No other
palette entry is read. -/
def Obligations.RenderCommand : Prop :=
  ∀ s : State,
    encode .render = [0x33000000#32] ∧
    ((∀ a, a < 16000 → (s.pw.get a).isSome = true) →
      (∀ n r, n < s.desc.w * s.desc.h → pixIndex s.desc s.pw n = some r →
        (s.palRgb.get r).isSome = true) →
      ∃ vs, exec .render s =
          .next (s.respond .ok (BitVec.ofNat 32 (s.desc.w * s.desc.h)) vs) ∧
        vs.length = s.desc.w * s.desc.h ∧
        ∀ n, n < s.desc.w * s.desc.h → ∃ r c, pixIndex s.desc s.pw n = some r ∧
          s.palRgb.get r = some c ∧ vs[n]? = some (BitVec.ofNat 32
            (c.r.toNat * 2 ^ 24 + c.g.toNat * 2 ^ 16 + c.b.toNat * 2 ^ 8 + 255)))

/-! The color-cycle commands. -/

/-- 42_color_cycle.md R155, R150, R151, 30_encoding.md R84. -/
def Obligations.CcloadCommand : Prop :=
  ∀ (d : Quad Desc) (s : State),
    encode (.ccload d) = 0x40000000#32 ::
      ([d.s0.left, d.s1.left, d.s2.left, d.s3.left, d.s0.right, d.s1.right, d.s2.right, d.s3.right,
        d.s0.dirRaw, d.s1.dirRaw, d.s2.dirRaw, d.s3.dirRaw,
        d.s0.delayRaw, d.s1.delayRaw, d.s2.delayRaw, d.s3.delayRaw].map
          (fun v => (0#16 ++ v : BitVec 32))) ∧
    ((∃ k, (s.slot k).on = true) → AnswersBusy s (exec (.ccload d) s)) ∧
    ((∀ k, (s.slot k).on = false) → ∀ k : Fin 4, 2 < (Quad.get d k).dirRaw.toNat →
      (∀ j, j < k → (Quad.get d j).dirRaw.toNat ≤ 2) →
      ∃ e : Word, exec (.ccload d) s = .next (s.respond .badDirection e []) ∧
        e.toNat = k.val * 65536 + (Quad.get d k).dirRaw.toNat) ∧
    ((∀ k, (s.slot k).on = false) → (∀ k, (Quad.get d k).dirRaw.toNat ≤ 2) →
      ∃ t, exec (.ccload d) s = .next t ∧
        (∀ k, ∃ f : SlotFields, t.slot k =
            { loaded := true, on := false, anim := false, handle := none, fields := some f } ∧
          f.left = (Quad.get d k).left ∧ f.right = (Quad.get d k).right ∧
          dirInt f.dir = ((Quad.get d k).dirRaw.toNat : Int) - 1 ∧
          f.delay.toInt = Int.fdiv (100 * (128 - ((Quad.get d k).delayRaw.toNat : Int)) + 3) 6 ∧
          f.pos = 0#16 ∧
          f.len.toInt = ((Quad.get d k).right.toNat : Int) - (Quad.get d k).left.toNat + 1) ∧
        t.out = s.out ++ [.response { status := .ok, data := 0#32, stream := [] }] ∧
        t = { s with slots := t.slots, out := t.out })

/-- 42_color_cycle.md R156. -/
def Obligations.CcunldCommand : Prop :=
  ∀ s : State,
    encode .ccunld = [0x41000000#32] ∧
    ((∃ k, (s.slot k).on = true) → AnswersBusy s (exec .ccunld s)) ∧
    ((∀ k, (s.slot k).on = false) → ∃ t, exec .ccunld s = .next t ∧
      (∀ k, t.slot k = { s.slot k with loaded := false, fields := none }) ∧
      t.out = s.out ++ [.response { status := .ok, data := 0#32, stream := [] }] ∧
      t = { s with slots := t.slots, out := t.out })

/-- 42_color_cycle.md R160: CCSTART is turned away in the order of its checks; else it snapshots the
live palette, resets the position, recomputes the length, arms the slot and keeps `anim` and the
handle. With the length equal to the recomputed one (10_state.md R36) only the position and `on`
differ. -/
def Obligations.CcstartCommand : Prop :=
  ∀ (a : Byte) (s : State), s.Inv →
    encode (.ccstart a) = [(0x42#8 ++ a ++ 0#16 : BitVec 32)] ∧
    (4 ≤ a.toNat → exec (.ccstart a) s = .next (s.respond .badSlot (a.setWidth 32) [])) ∧
    ∀ h : a.toNat < 4,
      ((s.slot ⟨a.toNat, h⟩).loaded = false →
        exec (.ccstart a) s = .next (s.respond .slotNotLoaded (a.setWidth 32) [])) ∧
      ∀ f, (s.slot ⟨a.toNat, h⟩).loaded = true → (s.slot ⟨a.toNat, h⟩).fields = some f →
        (dirInt f.dir = 0 → exec (.ccstart a) s = .next (s.respond .fail 0#32 [])) ∧
        (dirInt f.dir ≠ 0 → f.left.toNat ≤ f.right.toNat → s.desc.rc ≤ f.right.toNat →
          exec (.ccstart a) s = .next (s.respond .cycleRange (f.right.setWidth 32) [])) ∧
        (dirInt f.dir ≠ 0 → (f.left.toNat ≤ f.right.toNat → f.right.toNat < s.desc.rc) →
          ∃ t, exec (.ccstart a) s = .next t ∧
            (∀ i, t.snap.get i = if i < s.desc.rc then s.palRgb.get i else s.snap.get i) ∧
            t.slot ⟨a.toNat, h⟩ =
              { s.slot ⟨a.toNat, h⟩ with on := true, fields := some { f with pos := 0#16 } } ∧
            f.len.toInt = (f.right.toNat : Int) - f.left.toNat + 1 ∧
            (∀ k, k ≠ ⟨a.toNat, h⟩ → t.slot k = s.slot k) ∧
            t.out = s.out ++ [.response { status := .ok, data := 0#32, stream := [] }] ∧
            t = { s with snap := t.snap, slots := t.slots, out := t.out })

/-- 42_color_cycle.md R162: CCANIM sends CANCEL of the old handle when the slot is Animating, then
SCHED with the stored delay, and stores the handle the host returns. The handle is the free value of
log 3: the statement holds whatever it is. -/
def Obligations.CcanimCommand : Prop :=
  ∀ (a : Byte) (s : State),
    encode (.ccanim a) = [(0x43#8 ++ a ++ 0#16 : BitVec 32)] ∧
    (4 ≤ a.toNat → exec (.ccanim a) s = .next (s.respond .badSlot (a.setWidth 32) [])) ∧
    ∀ h : a.toNat < 4,
      ((s.slot ⟨a.toNat, h⟩).on = false →
        exec (.ccanim a) s = .next (s.respond .fail 0#32 [])) ∧
      (∀ f, (s.slot ⟨a.toNat, h⟩).on = true → (s.slot ⟨a.toNat, h⟩).fields = some f →
        ∃ t hd, exec (.ccanim a) s = .next t ∧
          t.slot ⟨a.toNat, h⟩ = { s.slot ⟨a.toNat, h⟩ with anim := true, handle := some hd } ∧
          (∀ k, k ≠ ⟨a.toNat, h⟩ → t.slot k = s.slot k) ∧
          t.out = s.out ++
            (if (s.slot ⟨a.toNat, h⟩).anim then [.cancel (s.slot ⟨a.toNat, h⟩).handle] else []) ++
            [.sched ⟨a.toNat, h⟩ f.delay hd,
             .response { status := .ok, data := 0#32, stream := [] }] ∧
          t = { s with slots := t.slots, out := t.out, schedCount := s.schedCount + 1 })

/-- 42_color_cycle.md R166, R165, R167. -/
def Obligations.CcstepCommand : Prop :=
  ∀ (a : Byte) (s : State), s.Inv →
    encode (.ccstep a) = [(0x44#8 ++ a ++ 0#16 : BitVec 32)] ∧
    (4 ≤ a.toNat → exec (.ccstep a) s = .next (s.respond .badSlot (a.setWidth 32) [])) ∧
    ∀ h : a.toNat < 4,
      ((s.slot ⟨a.toNat, h⟩).on = false →
        exec (.ccstep a) s = .next (s.respond .fail 0#32 [])) ∧
      (∀ f, (s.slot ⟨a.toNat, h⟩).on = true → (s.slot ⟨a.toNat, h⟩).fields = some f →
        ∃ t, exec (.ccstep a) s = .next t ∧ StepEffect s t ⟨a.toNat, h⟩ f)

/-- 42_color_cycle.md R170: a tick steps an Animating slot and is ignored on any other. -/
def Obligations.CctickCommand : Prop :=
  ∀ (a : Byte) (s : State), s.Inv →
    encode (.cctick a) = [(0x46#8 ++ a ++ 0#16 : BitVec 32)] ∧
    (4 ≤ a.toNat → exec (.cctick a) s = .next (s.respond .badSlot (a.setWidth 32) [])) ∧
    ∀ h : a.toNat < 4,
      ((s.slot ⟨a.toNat, h⟩).anim = false →
        exec (.cctick a) s = .next (s.respond .fail 0#32 [])) ∧
      (∀ f, (s.slot ⟨a.toNat, h⟩).anim = true → (s.slot ⟨a.toNat, h⟩).fields = some f →
        ∃ t, exec (.cctick a) s = .next t ∧ StepEffect s t ⟨a.toNat, h⟩ f)

/-- 42_color_cycle.md R175. -/
def Obligations.CcstopCommand : Prop :=
  ∀ (a : Byte) (s : State), s.Inv →
    encode (.ccstop a) = [(0x45#8 ++ a ++ 0#16 : BitVec 32)] ∧
    (4 ≤ a.toNat → exec (.ccstop a) s = .next (s.respond .badSlot (a.setWidth 32) [])) ∧
    ∀ h : a.toNat < 4,
      ((s.slot ⟨a.toNat, h⟩).on = false →
        exec (.ccstop a) s = .next (s.respond .fail 0#32 [])) ∧
      ((s.slot ⟨a.toNat, h⟩).on = true → ∃ t, exec (.ccstop a) s = .next t ∧
        (∀ i, t.palRgb.get i = if i < s.desc.rc then s.snap.get i else s.palRgb.get i) ∧
        t.slot ⟨a.toNat, h⟩ =
          { s.slot ⟨a.toNat, h⟩ with on := false, anim := false, handle := none } ∧
        (∀ k, k ≠ ⟨a.toNat, h⟩ → t.slot k = s.slot k) ∧
        t.out = s.out ++
          (if (s.slot ⟨a.toNat, h⟩).anim then [.cancel (s.slot ⟨a.toNat, h⟩).handle] else []) ++
          [.response { status := .ok, data := 0#32, stream := [] }] ∧
        t = { s with palRgb := t.palRgb, slots := t.slots, out := t.out })

/-- 42_color_cycle.md R180. -/
def Obligations.CcstatCommand : Prop :=
  ∀ (a : Byte) (q : BitVec 2) (s : State),
    encode (.ccstat a q) = [(0x47#8 ++ a ++ (0#14 ++ q : BitVec 16) : BitVec 32)] ∧
    (4 ≤ a.toNat → exec (.ccstat a q) s = .next (s.respond .badSlot (a.setWidth 32) [])) ∧
    ∀ h : a.toNat < 4,
      ((s.slot ⟨a.toNat, h⟩).loaded = false →
        exec (.ccstat a q) s = .next (s.respond .ok 0#32 [])) ∧
      (∀ f, (s.slot ⟨a.toNat, h⟩).loaded = true → (s.slot ⟨a.toNat, h⟩).fields = some f →
        ∃ d : Word, exec (.ccstat a q) s = .next (s.respond .ok d []) ∧
          (q = 0#2 → (d.toNat : Int) = f.pos.toNat * 65536 + (dirInt f.dir + 1) * 8 +
            (s.slot ⟨a.toNat, h⟩).anim.toNat * 4 + (s.slot ⟨a.toNat, h⟩).on.toNat * 2 + 1) ∧
          (q = 1#2 → d.toNat = f.right.toNat * 65536 + f.left.toNat) ∧
          (q = 2#2 → d.toInt = f.delay.toInt) ∧
          (q = 3#2 → d.toInt = f.len.toInt))

/-! Runs of the color-cycle engine. -/

/-- 42_color_cycle.md R168: once the position lies in the range, N steps bring it back, and each
entry of the range holds the snapshot rotated to start at the position. -/
def Obligations.RangeReturnsAfterNSteps : Prop :=
  ∀ (a : Byte) (s : State) (h : a.toNat < 4) (f : SlotFields), s.Inv →
    (s.slot ⟨a.toNat, h⟩).on = true → (s.slot ⟨a.toNat, h⟩).fields = some f →
    f.left.toNat ≤ f.pos.toNat → f.pos.toNat ≤ f.right.toNat →
    ∃ t, runAll (List.replicate (f.right.toNat - f.left.toNat + 1) (.ccstep a)) s = .next t ∧
      t.slot ⟨a.toNat, h⟩ = s.slot ⟨a.toNat, h⟩ ∧
      ∀ j, j < f.right.toNat - f.left.toNat + 1 →
        t.palRgb.get (f.left.toNat + j) = s.snap.get (f.left.toNat +
          (f.pos.toNat - f.left.toNat + j) % (f.right.toNat - f.left.toNat + 1))

/-- 42_color_cycle.md R165, R169: a step of an empty range writes no palette entry and emits REDRAW;
with left above right + 1 and the position at most right it sets the position to right. With
left = right + 1 and direction -1 the pseudocode of R165 and the decision 92_eei_decisions.md D15,
which the model follows, give left from right: log 7. -/
def Obligations.EmptyRangeStep : Prop :=
  ∀ (a : Byte) (s : State) (h : a.toNat < 4) (f : SlotFields), s.Inv →
    (s.slot ⟨a.toNat, h⟩).on = true → (s.slot ⟨a.toNat, h⟩).fields = some f →
    f.right.toNat < f.left.toNat →
    ∃ t g, exec (.ccstep a) s = .next t ∧ (∀ i, t.palRgb.get i = s.palRgb.get i) ∧
      t.out = s.out ++ [.redraw, .response { status := .ok, data := 0#32, stream := [] }] ∧
      (t.slot ⟨a.toNat, h⟩).fields = some g ∧
      (f.right.toNat + 1 < f.left.toNat → f.pos.toNat ≤ f.right.toNat → g.pos = f.right) ∧
      (f.right.toNat + 1 = f.left.toNat → f.dir = .back → f.pos = f.right → g.pos = f.left)

/-- 42_color_cycle.md R161, R175: a CCSTOP restores the palette that the latest CCSTART of any slot
saw, whatever commands but another CCSTART came between. -/
def Obligations.StopRestoresLatestStart : Prop :=
  ∀ (a b : Byte) (s t u v : State) (is : List Instr) (h : b.toNat < 4), s.Inv →
    exec (.ccstart a) s = .next t → t.out = s.out ++ [.response
      { status := .ok, data := 0#32, stream := [] }] →
    runAll is t = .next u → (∀ i ∈ is, ∀ c, i ≠ .ccstart c) →
    (u.slot ⟨b.toNat, h⟩).on = true → exec (.ccstop b) u = .next v →
    ∀ i, i < s.desc.rc → v.palRgb.get i = s.palRgb.get i

/-- 20_memory.md R64: each command sees every write of every earlier command: a read of a plane word
or of a pixel of its group after a PWWR. -/
def Obligations.LaterCommandsSeeWrites : Prop :=
  ∀ (a : Addr) (v : Half) (s t : State), a.toNat < 16000 → exec (.pwwr a v) s = .next t →
    exec (.pwrd a) t = .next (t.respond .ok (v.setWidth 32) []) ∧
    (∀ (n : Addr) (r p : Nat), n.toNat < s.desc.w * s.desc.h → p < s.desc.p →
      n.toNat / 16 * s.desc.p + p = a.toNat → pixIndex t.desc t.pw n.toNat = some r →
      exec (.pix n) t = .next (t.respond .ok (BitVec.ofNat 32 r) []) ∧
      r.testBit p = v.getLsbD (15 - n.toNat % 16))

/-- 70_reset_and_hazards.md R233, 30_encoding.md R88: the host's initialisation from a raw image, from
reset, completes and leaves the header's mode, the palette words, the plane words and the trailer's
slots in place. Where R233 and R157 of 42_color_cycle.md leave the host a liberty, the sequence of
commands is the MODEL'S CHOICE (log 9: a trailer that is not 32 bytes sends CCUNLD, an odd last byte
makes no word, CCSTART and CCANIM are left to the host). -/
def Obligations.BootLoadsRawImage : Prop :=
  ∀ (header : Half) (palette image : List Half) (trailer : List Byte),
    palette.length = (modeDesc (modeOfId (headerMode header))).rc → image.length = 16000 →
    (header.getLsbD 15 = false → ∀ rle pixels, fileWords pixels = image →
      bootImage rle ⟨header, palette, pixels, trailer⟩ = bootRaw header palette image trailer) ∧
    ∃ t, runAll (bootRaw header palette image trailer) State.reset = .next t ∧
      t.mode = modeOfId (headerMode header) ∧
      (∀ i, i < palette.length → t.palRaw.get i = palette[i]? ∧
        t.palRgb.get i = palette[i]?.map derive) ∧
      (∀ a, t.pw.get a = image[a]?) ∧
      SlotsOfTrailer trailer t

/-- 70_reset_and_hazards.md R233, 30_encoding.md R88, 41_bitplane_codec.md R142: the host's
initialisation from a compressed image, whose 200 scanlines of 160 bytes the host's RLE decoder has
unpacked, completes from reset and leaves the header's mode, the palette words, the trailer's slots
and the plane words of every scanline in place. Where R233 and R157 of 42_color_cycle.md leave the
host a liberty, the sequence of commands is the MODEL'S CHOICE (log 9). -/
def Obligations.BootLoadsStagedImage : Prop :=
  ∀ (header : Half) (palette : List Half) (lines : List (List Byte)) (trailer : List Byte),
    palette.length = (modeDesc (modeOfId (headerMode header))).rc →
    lines.length = 200 → (∀ l ∈ lines, l.length = 160) →
    (header.getLsbD 15 = true → ∀ rle pixels, rle pixels = lines →
      bootImage rle ⟨header, palette, pixels, trailer⟩ = bootStaged header palette lines trailer) ∧
    ∃ t, runAll (bootStaged header palette lines trailer) State.reset = .next t ∧
      t.mode = modeOfId (headerMode header) ∧
      (∀ i, i < palette.length → t.palRaw.get i = palette[i]? ∧
        t.palRgb.get i = palette[i]?.map derive) ∧
      (∀ y g p, y < 200 → g < 160 / t.desc.p / 2 → p < t.desc.p →
        t.pw.get (80 * y + g * t.desc.p + p) = some (BitVec.ofNat 16
          (((lines.getD y []).getD (p * (160 / t.desc.p) + 2 * g) 0#8).toNat * 256 +
           ((lines.getD y []).getD (p * (160 / t.desc.p) + 2 * g + 1) 0#8).toNat))) ∧
      SlotsOfTrailer trailer t
end

