-- ==== Sys2Proof/Laws/Memory.lean ====
section
/-! SUPPORT. What the cell files and the loops over them do. -/

namespace Sys2Proof.Machine

/-! The fixed sizes, as numerals. -/

@[simp] theorem pwWords_eq : Config.pwWords = 16000 := rfl
@[simp] theorem stgBytes_eq : Config.stgBytes = 160 := rfl
@[simp] theorem palMax_eq : Config.palMax = 16 := rfl
@[simp] theorem groupPixels_eq : Config.groupPixels = 16 := rfl

/-! Loops. -/

@[simp] theorem forRange_zero {σ : Type} (f : Nat → σ → σ) (x : σ) : forRange 0 f x = x := rfl

@[simp] theorem forRange_succ {σ : Type} (n : Nat) (f : Nat → σ → σ) (x : σ) :
    forRange (n + 1) f x = f n (forRange n f x) := rfl

/-- What holds before a loop and is kept by every pass holds after it. -/
theorem forRange_induction {σ : Type} {P : Nat → σ → Prop} {f : Nat → σ → σ} {x : σ} (n : Nat)
    (start : P 0 x) (pass : ∀ k y, k < n → P k y → P (k + 1) (f k y)) : P n (forRange n f x) := by
  induction n with
  | zero => exact start
  | succ n ih =>
    exact pass n _ (Nat.lt_succ_self n) (ih fun k y hk => pass k y (Nat.lt_succ_of_lt hk))

/-! Reading and writing a cell. -/

@[simp] theorem Memory.get_nil {α : Type} (a : Nat) : Memory.get ([] : Memory α) a = none := rfl

theorem Memory.get_cons {α : Type} (b : Nat) (v : α) (m : Memory α) (a : Nat) :
    Memory.get ((b, v) :: m) a = if a = b then some v else Memory.get m a := rfl

theorem Memory.get_put {α : Type} (b : Nat) (c : Cell α) (m : Memory α) (a : Nat)
    (h : Memory.get m b = none) :
    Memory.get (Memory.put b c m) a = if a = b then c else Memory.get m a := by
  cases c with
  | none => by_cases e : a = b <;> simp [Memory.put, e, h]
  | some v => rfl

/-- A file whose addresses start at `lo` lists nothing below. -/
theorem Memory.get_of_lt {α : Type} {size lo : Nat} {m : Memory α}
    (h : Memory.wfFrom size lo m = true) {a : Nat} (ha : a < lo) : Memory.get m a = none := by
  induction m generalizing lo with
  | nil => rfl
  | cons c m ih =>
    simp only [Memory.wfFrom, Bool.and_eq_true, decide_eq_true_eq] at h
    rw [Memory.get_cons, if_neg (by omega)]
    exact ih h.2 (by omega)

/-- A file in canonical form lists nothing at or past its size. -/
theorem Memory.get_of_size_le {α : Type} {size lo : Nat} {m : Memory α}
    (h : Memory.wfFrom size lo m = true) {a : Nat} (ha : size ≤ a) : Memory.get m a = none := by
  induction m generalizing lo with
  | nil => rfl
  | cons c m ih =>
    simp only [Memory.wfFrom, Bool.and_eq_true, decide_eq_true_eq] at h
    rw [Memory.get_cons, if_neg (by omega)]
    exact ih h.2

theorem Memory.wfFrom_mono {α : Type} {size lo lo' : Nat} {m : Memory α} (hlo : lo' ≤ lo)
    (h : Memory.wfFrom size lo m = true) : Memory.wfFrom size lo' m = true := by
  cases m with
  | nil => rfl
  | cons c m =>
    simp only [Memory.wfFrom, Bool.and_eq_true, decide_eq_true_eq] at h ⊢
    exact ⟨⟨by omega, h.1.2⟩, h.2⟩

theorem Memory.wfFrom_put {α : Type} {size lo : Nat} {m : Memory α} {a : Nat} (c : Cell α)
    (hlo : lo ≤ a) (ha : a < size) (h : Memory.wfFrom size (a + 1) m = true) :
    Memory.wfFrom size lo (Memory.put a c m) = true := by
  cases c with
  | none => exact Memory.wfFrom_mono (by omega) h
  | some v => simp [Memory.put, Memory.wfFrom, hlo, ha, h]

/-- A write keeps the canonical form. -/
theorem Memory.wfFrom_write {α : Type} {size lo : Nat} {m : Memory α} {a : Nat} (c : Cell α)
    (hlo : lo ≤ a) (ha : a < size) (h : Memory.wfFrom size lo m = true) :
    Memory.wfFrom size lo (m.write a c) = true := by
  induction m generalizing lo with
  | nil => exact Memory.wfFrom_put c hlo ha rfl
  | cons d m ih =>
    obtain ⟨b, v⟩ := d
    simp only [Memory.wfFrom, Bool.and_eq_true, decide_eq_true_eq] at h
    unfold Memory.write
    split
    · exact Memory.wfFrom_put c hlo ha (by simp [Memory.wfFrom, h]; omega)
    · split
      · exact Memory.wfFrom_put c hlo ha (by simp [*])
      · simp only [Memory.wfFrom, Bool.and_eq_true, decide_eq_true_eq]
        exact ⟨h.1, ih (by omega) h.2⟩

theorem Memory.wf_write {α : Type} {size : Nat} {m : Memory α} {a : Nat} (c : Cell α)
    (ha : a < size) (h : m.wf size = true) : (m.write a c).wf size = true :=
  Memory.wfFrom_write c (Nat.zero_le a) ha h

/-- Reading after a write of a value: the value at its address, every other address as before.
This holds of any list. -/
theorem Memory.get_write_some {α : Type} (m : Memory α) (b : Nat) (v : α) (a : Nat) :
    (m.write b (some v)).get a = if a = b then some v else m.get a := by
  induction m with
  | nil => rfl
  | cons d m ih =>
    obtain ⟨e, w⟩ := d
    unfold Memory.write
    split
    · rfl
    · split
      · simp only [Memory.put, Memory.get_cons]; split <;> simp_all
      · rw [Memory.get_cons, ih, Memory.get_cons]; split
        · simp_all
          try omega
        · simp_all

/-- Reading after any write, in a file in canonical form. -/
theorem Memory.get_write_from {α : Type} {size lo : Nat} {m : Memory α} (h : Memory.wfFrom size lo m = true)
    (b : Nat) (c : Cell α) (a : Nat) :
    (m.write b c).get a = if a = b then c else m.get a := by
  induction m generalizing lo with
  | nil => exact Memory.get_put b c [] a rfl
  | cons d m ih =>
    obtain ⟨e, w⟩ := d
    simp only [Memory.wfFrom, Bool.and_eq_true, decide_eq_true_eq] at h
    unfold Memory.write
    split
    · refine Memory.get_put b c _ a ?_
      rw [Memory.get_cons, if_neg (by omega)]
      exact Memory.get_of_lt h.2 (by omega)
    · split
      · rw [Memory.get_put b c m a (Memory.get_of_lt h.2 (by omega)), Memory.get_cons]
        split <;> simp_all
      · rw [Memory.get_cons, ih h.2, Memory.get_cons]
        split
        · simp_all
          try omega
        · simp_all

theorem Memory.get_write {α : Type} {size : Nat} {m : Memory α} (h : m.wf size = true) (b : Nat)
    (c : Cell α) (a : Nat) : (m.write b c).get a = if a = b then c else m.get a :=
  Memory.get_write_from h b c a

/-! Copying and clearing cells. -/

theorem wf_copyCells {α : Type} {size n : Nat} (hn : n ≤ size) (src : Memory α) {dst : Memory α}
    (h : dst.wf size = true) : (copyCells n src dst).wf size = true :=
  forRange_induction (P := fun _ (m : Memory α) => m.wf size = true) n h
    fun k _ hk hm => Memory.wf_write _ (by omega) hm

/-- Cells 0 to n-1 read as the source's, the others as before. -/
theorem get_copyCells {α : Type} {size n : Nat} (hn : n ≤ size) (src : Memory α) {dst : Memory α}
    (h : dst.wf size = true) (a : Nat) :
    (copyCells n src dst).get a = if a < n then src.get a else dst.get a :=
  (forRange_induction
    (P := fun k (m : Memory α) => m.wf size = true ∧ m.get a = if a < k then src.get a else dst.get a)
    n ⟨h, by simp⟩
    fun k m hk hm => ⟨Memory.wf_write _ (by omega) hm.1, by
      rw [Memory.get_write hm.1, hm.2]
      split
      · simp_all
      · split <;> split <;> first | rfl | omega⟩).2

theorem wfFrom_clearCells {α : Type} {size lo n : Nat} {m : Memory α}
    (h : Memory.wfFrom size lo m = true) : Memory.wfFrom size lo (clearCells n m) = true := by
  induction m generalizing lo with
  | nil => rfl
  | cons c m ih =>
    simp only [Memory.wfFrom, Bool.and_eq_true, decide_eq_true_eq] at h
    have hm := ih h.2
    unfold clearCells at hm ⊢
    rw [List.filter_cons]
    split
    · simp only [Memory.wfFrom, Bool.and_eq_true, decide_eq_true_eq]
      exact ⟨h.1, hm⟩
    · exact Memory.wfFrom_mono (by omega) hm

theorem wf_clearCells {α : Type} {size : Nat} (n : Nat) {m : Memory α} (h : m.wf size = true) :
    (clearCells n m).wf size = true := wfFrom_clearCells h

/-- Cells 0 to n-1 read as `⊥`, the others as before. -/
theorem get_clearCells {α : Type} (n : Nat) (m : Memory α) (a : Nat) :
    (clearCells n m).get a = if a < n then none else m.get a := by
  induction m with
  | nil => simp [clearCells]
  | cons c m ih =>
    unfold clearCells at ih ⊢
    rw [List.filter_cons]
    split
    · rename_i hc
      simp only [decide_eq_true_eq] at hc
      rw [Memory.get_cons, ih, Memory.get_cons]
      by_cases h : a = c.1
      · rw [if_pos h, if_neg (by omega), if_pos h]
      · rw [if_neg h, if_neg h]
    · rename_i hc
      simp only [decide_eq_true_eq] at hc
      rw [ih, Memory.get_cons]
      by_cases h : a = c.1
      · rw [if_pos (by omega), if_pos (by omega)]
      · rw [if_neg h]

/-! Streams. -/

/-- A stream has an element for every place, each the value at its place. -/
theorem collect_eq_some {α : Type} {f : Nat → Cell α} {n i : Nat} {vs : List α}
    (h : collect f n i = some vs) :
    vs.length = n ∧ ∀ k, k < n → ∃ v, vs[k]? = some v ∧ f (i + k) = some v := by
  induction n generalizing i vs with
  | zero => simp_all [collect]
  | succ n ih =>
    unfold collect at h
    split at h
    · simp at h
    · rename_i v hv
      obtain ⟨ws, hws, rfl⟩ := Option.map_eq_some_iff.mp h
      obtain ⟨hlen, hall⟩ := ih hws
      refine ⟨by simp [hlen], fun k hk => ?_⟩
      cases k with
      | zero => exact ⟨v, rfl, hv⟩
      | succ k =>
        obtain ⟨u, hu, hf⟩ := hall k (by omega)
        exact ⟨u, by simpa using hu, by rw [← hf]; congr 1; omega⟩

/-- A stream none of whose values is `⊥` is not `⊥`. -/
theorem collect_isSome {α : Type} {f : Nat → Cell α} {n i : Nat}
    (h : ∀ k, i ≤ k → k < i + n → (f k).isSome = true) : (collect f n i).isSome = true := by
  induction n generalizing i with
  | zero => rfl
  | succ n ih =>
    obtain ⟨v, hv⟩ := Option.isSome_iff_exists.mp (h i (by omega) (by omega))
    simp only [collect, hv, Option.isSome_map]
    exact ih fun k h1 h2 => h k (by omega) (by omega)

end Sys2Proof.Machine
end

