-- ==== Sys2Proof/Laws/State.lean ====
section
/-! SUPPORT. One lemma per field of the state per named update. -/

namespace Sys2Proof.Machine

/-! Four slots. -/

@[simp] theorem Quad.get_zero {α : Type} (q : Quad α) : Quad.get q 0 = q.s0 := rfl
@[simp] theorem Quad.get_one {α : Type} (q : Quad α) : Quad.get q 1 = q.s1 := rfl
@[simp] theorem Quad.get_two {α : Type} (q : Quad α) : Quad.get q 2 = q.s2 := rfl
@[simp] theorem Quad.get_three {α : Type} (q : Quad α) : Quad.get q 3 = q.s3 := rfl

/-- Reading one of four after replacing one. -/
theorem Quad.get_set {α : Type} (q : Quad α) (k j : Fin 4) (x : α) :
    Quad.get (Quad.set q k x) j = if j = k then x else Quad.get q j := by
  fin_cases k <;> fin_cases j <;> rfl

@[simp] theorem Quad.get_set_same {α : Type} (q : Quad α) (k : Fin 4) (x : α) :
    Quad.get (Quad.set q k x) k = x := by
  rw [Quad.get_set, if_pos rfl]

/-- Two quadruples that read alike are equal. -/
theorem Quad.ext_get {α : Type} {q r : Quad α} (h : ∀ k, Quad.get q k = Quad.get r k) : q = r := by
  cases q; cases r
  simpa using And.intro (h 0) (And.intro (h 1) (And.intro (h 2) (h 3)))

theorem Quad.get_map {α β : Type} (g : α → β) (q : Quad α) (k : Fin 4) :
    Quad.get (Quad.map g q) k = g (Quad.get q k) := by
  fin_cases k <;> rfl

theorem State.slot_setSlot (s : State) (k j : Fin 4) (sl : Slot) :
    (s.setSlot k sl).slot j = if j = k then sl else s.slot j :=
  Quad.get_set s.slots k j sl

@[simp] theorem State.slot_setSlot_same (s : State) (k : Fin 4) (sl : Slot) :
    (s.setSlot k sl).slot k = sl := by
  rw [State.slot_setSlot, if_pos rfl]

/-! send. -/

@[simp] theorem State.send_mode (s : State) (o : Output) :
    (s.send o).mode = s.mode := rfl
@[simp] theorem State.send_palRaw (s : State) (o : Output) :
    (s.send o).palRaw = s.palRaw := rfl
@[simp] theorem State.send_palRgb (s : State) (o : Output) :
    (s.send o).palRgb = s.palRgb := rfl
@[simp] theorem State.send_snap (s : State) (o : Output) :
    (s.send o).snap = s.snap := rfl
@[simp] theorem State.send_pw (s : State) (o : Output) :
    (s.send o).pw = s.pw := rfl
@[simp] theorem State.send_stg (s : State) (o : Output) :
    (s.send o).stg = s.stg := rfl
@[simp] theorem State.send_slots (s : State) (o : Output) :
    (s.send o).slots = s.slots := rfl
@[simp] theorem State.send_input (s : State) (o : Output) :
    (s.send o).input = s.input := rfl
@[simp] theorem State.send_out (s : State) (o : Output) :
    (s.send o).out = s.out ++ [o] := rfl
@[simp] theorem State.send_schedCount (s : State) (o : Output) :
    (s.send o).schedCount = s.schedCount := rfl

/-! respond. -/

@[simp] theorem State.respond_mode (s : State) (st : Status) (d : Word) (vs : List Word) :
    (s.respond st d vs).mode = s.mode := rfl
@[simp] theorem State.respond_palRaw (s : State) (st : Status) (d : Word) (vs : List Word) :
    (s.respond st d vs).palRaw = s.palRaw := rfl
@[simp] theorem State.respond_palRgb (s : State) (st : Status) (d : Word) (vs : List Word) :
    (s.respond st d vs).palRgb = s.palRgb := rfl
@[simp] theorem State.respond_snap (s : State) (st : Status) (d : Word) (vs : List Word) :
    (s.respond st d vs).snap = s.snap := rfl
@[simp] theorem State.respond_pw (s : State) (st : Status) (d : Word) (vs : List Word) :
    (s.respond st d vs).pw = s.pw := rfl
@[simp] theorem State.respond_stg (s : State) (st : Status) (d : Word) (vs : List Word) :
    (s.respond st d vs).stg = s.stg := rfl
@[simp] theorem State.respond_slots (s : State) (st : Status) (d : Word) (vs : List Word) :
    (s.respond st d vs).slots = s.slots := rfl
@[simp] theorem State.respond_input (s : State) (st : Status) (d : Word) (vs : List Word) :
    (s.respond st d vs).input = s.input := rfl
@[simp] theorem State.respond_out (s : State) (st : Status) (d : Word) (vs : List Word) :
    (s.respond st d vs).out = s.out ++ [.response { status := st, data := d, stream := vs }] := rfl
@[simp] theorem State.respond_schedCount (s : State) (st : Status) (d : Word) (vs : List Word) :
    (s.respond st d vs).schedCount = s.schedCount := rfl

/-! sched. -/

@[simp] theorem State.sched_mode (s : State) (k : Fin 4) (ms : Word) :
    (s.sched k ms).mode = s.mode := rfl
@[simp] theorem State.sched_palRaw (s : State) (k : Fin 4) (ms : Word) :
    (s.sched k ms).palRaw = s.palRaw := rfl
@[simp] theorem State.sched_palRgb (s : State) (k : Fin 4) (ms : Word) :
    (s.sched k ms).palRgb = s.palRgb := rfl
@[simp] theorem State.sched_snap (s : State) (k : Fin 4) (ms : Word) :
    (s.sched k ms).snap = s.snap := rfl
@[simp] theorem State.sched_pw (s : State) (k : Fin 4) (ms : Word) :
    (s.sched k ms).pw = s.pw := rfl
@[simp] theorem State.sched_stg (s : State) (k : Fin 4) (ms : Word) :
    (s.sched k ms).stg = s.stg := rfl
@[simp] theorem State.sched_slots (s : State) (k : Fin 4) (ms : Word) :
    (s.sched k ms).slots = s.slots := rfl
@[simp] theorem State.sched_input (s : State) (k : Fin 4) (ms : Word) :
    (s.sched k ms).input = s.input := rfl
@[simp] theorem State.sched_out (s : State) (k : Fin 4) (ms : Word) :
    (s.sched k ms).out = s.out ++ [.sched k ms (Config.hostHandle s.schedCount)] := rfl
@[simp] theorem State.sched_schedCount (s : State) (k : Fin 4) (ms : Word) :
    (s.sched k ms).schedCount = s.schedCount + 1 := rfl

/-! setSlot. -/

@[simp] theorem State.setSlot_mode (s : State) (k : Fin 4) (sl : Slot) :
    (s.setSlot k sl).mode = s.mode := rfl
@[simp] theorem State.setSlot_palRaw (s : State) (k : Fin 4) (sl : Slot) :
    (s.setSlot k sl).palRaw = s.palRaw := rfl
@[simp] theorem State.setSlot_palRgb (s : State) (k : Fin 4) (sl : Slot) :
    (s.setSlot k sl).palRgb = s.palRgb := rfl
@[simp] theorem State.setSlot_snap (s : State) (k : Fin 4) (sl : Slot) :
    (s.setSlot k sl).snap = s.snap := rfl
@[simp] theorem State.setSlot_pw (s : State) (k : Fin 4) (sl : Slot) :
    (s.setSlot k sl).pw = s.pw := rfl
@[simp] theorem State.setSlot_stg (s : State) (k : Fin 4) (sl : Slot) :
    (s.setSlot k sl).stg = s.stg := rfl
@[simp] theorem State.setSlot_slots (s : State) (k : Fin 4) (sl : Slot) :
    (s.setSlot k sl).slots = Quad.set s.slots k sl := rfl
@[simp] theorem State.setSlot_input (s : State) (k : Fin 4) (sl : Slot) :
    (s.setSlot k sl).input = s.input := rfl
@[simp] theorem State.setSlot_out (s : State) (k : Fin 4) (sl : Slot) :
    (s.setSlot k sl).out = s.out := rfl
@[simp] theorem State.setSlot_schedCount (s : State) (k : Fin 4) (sl : Slot) :
    (s.setSlot k sl).schedCount = s.schedCount := rfl

/-! setPal. -/

@[simp] theorem State.setPal_mode (s : State) (i : Nat) (v : Half) :
    (s.setPal i v).mode = s.mode := rfl
@[simp] theorem State.setPal_palRaw (s : State) (i : Nat) (v : Half) :
    (s.setPal i v).palRaw = s.palRaw.write i (some v) := rfl
@[simp] theorem State.setPal_palRgb (s : State) (i : Nat) (v : Half) :
    (s.setPal i v).palRgb = s.palRgb.write i (some (derive v)) := rfl
@[simp] theorem State.setPal_snap (s : State) (i : Nat) (v : Half) :
    (s.setPal i v).snap = s.snap := rfl
@[simp] theorem State.setPal_pw (s : State) (i : Nat) (v : Half) :
    (s.setPal i v).pw = s.pw := rfl
@[simp] theorem State.setPal_stg (s : State) (i : Nat) (v : Half) :
    (s.setPal i v).stg = s.stg := rfl
@[simp] theorem State.setPal_slots (s : State) (i : Nat) (v : Half) :
    (s.setPal i v).slots = s.slots := rfl
@[simp] theorem State.setPal_input (s : State) (i : Nat) (v : Half) :
    (s.setPal i v).input = s.input := rfl
@[simp] theorem State.setPal_out (s : State) (i : Nat) (v : Half) :
    (s.setPal i v).out = s.out := rfl
@[simp] theorem State.setPal_schedCount (s : State) (i : Nat) (v : Half) :
    (s.setPal i v).schedCount = s.schedCount := rfl

/-! clearPalette. -/

@[simp] theorem State.clearPalette_mode (s : State) :
    (s.clearPalette).mode = s.mode := rfl
@[simp] theorem State.clearPalette_palRaw (s : State) :
    (s.clearPalette).palRaw = clearCells Config.palMax s.palRaw := rfl
@[simp] theorem State.clearPalette_palRgb (s : State) :
    (s.clearPalette).palRgb = clearCells Config.palMax s.palRgb := rfl
@[simp] theorem State.clearPalette_snap (s : State) :
    (s.clearPalette).snap = s.snap := rfl
@[simp] theorem State.clearPalette_pw (s : State) :
    (s.clearPalette).pw = s.pw := rfl
@[simp] theorem State.clearPalette_stg (s : State) :
    (s.clearPalette).stg = s.stg := rfl
@[simp] theorem State.clearPalette_slots (s : State) :
    (s.clearPalette).slots = s.slots := rfl
@[simp] theorem State.clearPalette_input (s : State) :
    (s.clearPalette).input = s.input := rfl
@[simp] theorem State.clearPalette_out (s : State) :
    (s.clearPalette).out = s.out := rfl
@[simp] theorem State.clearPalette_schedCount (s : State) :
    (s.clearPalette).schedCount = s.schedCount := rfl

/-! takeSnapshot. -/

@[simp] theorem State.takeSnapshot_mode (s : State) :
    (s.takeSnapshot).mode = s.mode := rfl
@[simp] theorem State.takeSnapshot_palRaw (s : State) :
    (s.takeSnapshot).palRaw = s.palRaw := rfl
@[simp] theorem State.takeSnapshot_palRgb (s : State) :
    (s.takeSnapshot).palRgb = s.palRgb := rfl
@[simp] theorem State.takeSnapshot_snap (s : State) :
    (s.takeSnapshot).snap = copyCells s.desc.rc s.palRgb s.snap := rfl
@[simp] theorem State.takeSnapshot_pw (s : State) :
    (s.takeSnapshot).pw = s.pw := rfl
@[simp] theorem State.takeSnapshot_stg (s : State) :
    (s.takeSnapshot).stg = s.stg := rfl
@[simp] theorem State.takeSnapshot_slots (s : State) :
    (s.takeSnapshot).slots = s.slots := rfl
@[simp] theorem State.takeSnapshot_input (s : State) :
    (s.takeSnapshot).input = s.input := rfl
@[simp] theorem State.takeSnapshot_out (s : State) :
    (s.takeSnapshot).out = s.out := rfl
@[simp] theorem State.takeSnapshot_schedCount (s : State) :
    (s.takeSnapshot).schedCount = s.schedCount := rfl

/-! restorePalette. -/

@[simp] theorem State.restorePalette_mode (s : State) :
    (s.restorePalette).mode = s.mode := rfl
@[simp] theorem State.restorePalette_palRaw (s : State) :
    (s.restorePalette).palRaw = s.palRaw := rfl
@[simp] theorem State.restorePalette_palRgb (s : State) :
    (s.restorePalette).palRgb = copyCells s.desc.rc s.snap s.palRgb := rfl
@[simp] theorem State.restorePalette_snap (s : State) :
    (s.restorePalette).snap = s.snap := rfl
@[simp] theorem State.restorePalette_pw (s : State) :
    (s.restorePalette).pw = s.pw := rfl
@[simp] theorem State.restorePalette_stg (s : State) :
    (s.restorePalette).stg = s.stg := rfl
@[simp] theorem State.restorePalette_slots (s : State) :
    (s.restorePalette).slots = s.slots := rfl
@[simp] theorem State.restorePalette_input (s : State) :
    (s.restorePalette).input = s.input := rfl
@[simp] theorem State.restorePalette_out (s : State) :
    (s.restorePalette).out = s.out := rfl
@[simp] theorem State.restorePalette_schedCount (s : State) :
    (s.restorePalette).schedCount = s.schedCount := rfl

/-! writePw. -/

@[simp] theorem State.writePw_mode (s : State) (a : Nat) (c : Cell Half) :
    (s.writePw a c).mode = s.mode := rfl
@[simp] theorem State.writePw_palRaw (s : State) (a : Nat) (c : Cell Half) :
    (s.writePw a c).palRaw = s.palRaw := rfl
@[simp] theorem State.writePw_palRgb (s : State) (a : Nat) (c : Cell Half) :
    (s.writePw a c).palRgb = s.palRgb := rfl
@[simp] theorem State.writePw_snap (s : State) (a : Nat) (c : Cell Half) :
    (s.writePw a c).snap = s.snap := rfl
@[simp] theorem State.writePw_pw (s : State) (a : Nat) (c : Cell Half) :
    (s.writePw a c).pw = s.pw.write a c := rfl
@[simp] theorem State.writePw_stg (s : State) (a : Nat) (c : Cell Half) :
    (s.writePw a c).stg = s.stg := rfl
@[simp] theorem State.writePw_slots (s : State) (a : Nat) (c : Cell Half) :
    (s.writePw a c).slots = s.slots := rfl
@[simp] theorem State.writePw_input (s : State) (a : Nat) (c : Cell Half) :
    (s.writePw a c).input = s.input := rfl
@[simp] theorem State.writePw_out (s : State) (a : Nat) (c : Cell Half) :
    (s.writePw a c).out = s.out := rfl
@[simp] theorem State.writePw_schedCount (s : State) (a : Nat) (c : Cell Half) :
    (s.writePw a c).schedCount = s.schedCount := rfl

/-! writeStg. -/

@[simp] theorem State.writeStg_mode (s : State) (b : Nat) (c : Cell Byte) :
    (s.writeStg b c).mode = s.mode := rfl
@[simp] theorem State.writeStg_palRaw (s : State) (b : Nat) (c : Cell Byte) :
    (s.writeStg b c).palRaw = s.palRaw := rfl
@[simp] theorem State.writeStg_palRgb (s : State) (b : Nat) (c : Cell Byte) :
    (s.writeStg b c).palRgb = s.palRgb := rfl
@[simp] theorem State.writeStg_snap (s : State) (b : Nat) (c : Cell Byte) :
    (s.writeStg b c).snap = s.snap := rfl
@[simp] theorem State.writeStg_pw (s : State) (b : Nat) (c : Cell Byte) :
    (s.writeStg b c).pw = s.pw := rfl
@[simp] theorem State.writeStg_stg (s : State) (b : Nat) (c : Cell Byte) :
    (s.writeStg b c).stg = s.stg.write b c := rfl
@[simp] theorem State.writeStg_slots (s : State) (b : Nat) (c : Cell Byte) :
    (s.writeStg b c).slots = s.slots := rfl
@[simp] theorem State.writeStg_input (s : State) (b : Nat) (c : Cell Byte) :
    (s.writeStg b c).input = s.input := rfl
@[simp] theorem State.writeStg_out (s : State) (b : Nat) (c : Cell Byte) :
    (s.writeStg b c).out = s.out := rfl
@[simp] theorem State.writeStg_schedCount (s : State) (b : Nat) (c : Cell Byte) :
    (s.writeStg b c).schedCount = s.schedCount := rfl

/-! cycleStep. -/

@[simp] theorem State.cycleStep_mode (s : State) (k : Fin 4) (f : SlotFields) :
    (s.cycleStep k f).mode = s.mode := rfl
@[simp] theorem State.cycleStep_palRaw (s : State) (k : Fin 4) (f : SlotFields) :
    (s.cycleStep k f).palRaw = s.palRaw := rfl
@[simp] theorem State.cycleStep_palRgb (s : State) (k : Fin 4) (f : SlotFields) :
    (s.cycleStep k f).palRgb = (rotate s.snap f.left.toNat f.right.toNat f.len.toInt.toNat (nextPos f).toNat s.palRgb).1 := rfl
@[simp] theorem State.cycleStep_snap (s : State) (k : Fin 4) (f : SlotFields) :
    (s.cycleStep k f).snap = s.snap := rfl
@[simp] theorem State.cycleStep_pw (s : State) (k : Fin 4) (f : SlotFields) :
    (s.cycleStep k f).pw = s.pw := rfl
@[simp] theorem State.cycleStep_stg (s : State) (k : Fin 4) (f : SlotFields) :
    (s.cycleStep k f).stg = s.stg := rfl
@[simp] theorem State.cycleStep_slots (s : State) (k : Fin 4) (f : SlotFields) :
    (s.cycleStep k f).slots = Quad.set s.slots k { s.slot k with fields := some { f with pos := nextPos f } } := rfl
@[simp] theorem State.cycleStep_input (s : State) (k : Fin 4) (f : SlotFields) :
    (s.cycleStep k f).input = s.input := rfl
@[simp] theorem State.cycleStep_out (s : State) (k : Fin 4) (f : SlotFields) :
    (s.cycleStep k f).out = s.out ++ [.redraw] := rfl
@[simp] theorem State.cycleStep_schedCount (s : State) (k : Fin 4) (f : SlotFields) :
    (s.cycleStep k f).schedCount = s.schedCount := rfl

/-! applyReset. -/

@[simp] theorem State.applyReset_mode (s : State) (rest : List Input) :
    (s.applyReset rest).mode = .mode0 := rfl
@[simp] theorem State.applyReset_palRaw (s : State) (rest : List Input) :
    (s.applyReset rest).palRaw = [] := rfl
@[simp] theorem State.applyReset_palRgb (s : State) (rest : List Input) :
    (s.applyReset rest).palRgb = [] := rfl
@[simp] theorem State.applyReset_snap (s : State) (rest : List Input) :
    (s.applyReset rest).snap = [] := rfl
@[simp] theorem State.applyReset_pw (s : State) (rest : List Input) :
    (s.applyReset rest).pw = [] := rfl
@[simp] theorem State.applyReset_stg (s : State) (rest : List Input) :
    (s.applyReset rest).stg = [] := rfl
@[simp] theorem State.applyReset_slots (s : State) (rest : List Input) :
    (s.applyReset rest).slots = ⟨Slot.reset, Slot.reset, Slot.reset, Slot.reset⟩ := rfl
@[simp] theorem State.applyReset_input (s : State) (rest : List Input) :
    (s.applyReset rest).input = rest := rfl
@[simp] theorem State.applyReset_out (s : State) (rest : List Input) :
    (s.applyReset rest).out = s.out := rfl
@[simp] theorem State.applyReset_schedCount (s : State) (rest : List Input) :
    (s.applyReset rest).schedCount = s.schedCount := rfl

/-! Slots and descriptors through the updates. -/

@[simp] theorem State.slot_respond (s : State) (st : Status) (d : Word) (vs : List Word) (k : Fin 4) :
    (s.respond st d vs).slot k = s.slot k := rfl
@[simp] theorem State.slot_send (s : State) (o : Output) (k : Fin 4) :
    (s.send o).slot k = s.slot k := rfl
@[simp] theorem State.desc_respond (s : State) (st : Status) (d : Word) (vs : List Word) :
    (s.respond st d vs).desc = s.desc := rfl
@[simp] theorem State.desc_send (s : State) (o : Output) : (s.send o).desc = s.desc := rfl

@[simp] theorem Slot.arm_on (sl : Slot) (f : SlotFields) : (sl.arm f).on = true := rfl
@[simp] theorem Slot.arm_loaded (sl : Slot) (f : SlotFields) : (sl.arm f).loaded = sl.loaded := rfl
@[simp] theorem Slot.arm_anim (sl : Slot) (f : SlotFields) : (sl.arm f).anim = sl.anim := rfl
@[simp] theorem Slot.arm_handle (sl : Slot) (f : SlotFields) : (sl.arm f).handle = sl.handle := rfl
@[simp] theorem Slot.arm_fields (sl : Slot) (f : SlotFields) :
    (sl.arm f).fields =
      some { f with pos := 0#16, len := BitVec.ofInt 32 (rangeLen f.left f.right) } := rfl
@[simp] theorem Slot.animate_on (sl : Slot) (h : Handle) : (sl.animate h).on = sl.on := rfl
@[simp] theorem Slot.animate_loaded (sl : Slot) (h : Handle) : (sl.animate h).loaded = sl.loaded := rfl
@[simp] theorem Slot.animate_anim (sl : Slot) (h : Handle) : (sl.animate h).anim = true := rfl
@[simp] theorem Slot.animate_handle (sl : Slot) (h : Handle) : (sl.animate h).handle = some h := rfl
@[simp] theorem Slot.animate_fields (sl : Slot) (h : Handle) : (sl.animate h).fields = sl.fields := rfl
@[simp] theorem Slot.disarm_on (sl : Slot) : sl.disarm.on = false := rfl
@[simp] theorem Slot.disarm_loaded (sl : Slot) : sl.disarm.loaded = sl.loaded := rfl
@[simp] theorem Slot.disarm_anim (sl : Slot) : sl.disarm.anim = false := rfl
@[simp] theorem Slot.disarm_handle (sl : Slot) : sl.disarm.handle = none := rfl
@[simp] theorem Slot.disarm_fields (sl : Slot) : sl.disarm.fields = sl.fields := rfl
@[simp] theorem Slot.unload_on (sl : Slot) : sl.unload.on = sl.on := rfl
@[simp] theorem Slot.unload_loaded (sl : Slot) : sl.unload.loaded = false := rfl
@[simp] theorem Slot.unload_anim (sl : Slot) : sl.unload.anim = sl.anim := rfl
@[simp] theorem Slot.unload_handle (sl : Slot) : sl.unload.handle = sl.handle := rfl
@[simp] theorem Slot.unload_fields (sl : Slot) : sl.unload.fields = none := rfl

end Sys2Proof.Machine
end

