-- ==== Sys2Proof/Laws/Ops.lean ====
section
/-! SUPPORT. For each shared operation, once, everything it can do. -/

namespace Sys2Proof.Machine

/-- No mode has more colours than the palette has entries (10_state.md R20, R24). -/
theorem State.rc_le (s : State) : s.desc.rc ≤ 16 := by
  unfold State.desc; cases s.mode <;> decide

/-! The ends of a command. -/

@[simp] theorem ok_eq (d : Word) (s : State) : ok d s = .next (s.respond .ok d []) := rfl
@[simp] theorem okStream_eq (d : Word) (vs : List Word) (s : State) :
    okStream d vs s = .next (s.respond .ok d vs) := rfl
@[simp] theorem raise_eq (e : Status) (d : Word) (s : State) :
    raise e d s = .next (s.respond e d []) := rfl
@[simp] theorem fail_eq (s : State) : fail s = .next (s.respond .fail 0#32 []) := rfl
@[simp] theorem okCell_some (d : Word) (s : State) :
    okCell (some d) s = .next (s.respond .ok d []) := rfl
@[simp] theorem okCell_none (s : State) : okCell none s = .fault .unspecifiedResponse := rfl
@[simp] theorem okStreamCell_some (d : Word) (vs : List Word) (s : State) :
    okStreamCell d (some vs) s = .next (s.respond .ok d vs) := rfl
@[simp] theorem okStreamCell_none (d : Word) (s : State) :
    okStreamCell d none s = .fault .unspecifiedResponse := rfl

/-- A response of one value: the value, or the fault of a `⊥` value. -/
theorem okCell_cases (c : Cell Word) (s : State) :
    (∃ d, c = some d ∧ okCell c s = .next (s.respond .ok d [])) ∨
    (c = none ∧ okCell c s = .fault .unspecifiedResponse) := by
  cases c with
  | none => exact .inr ⟨rfl, rfl⟩
  | some d => exact .inl ⟨d, rfl, rfl⟩

/-- A response of a stream: the stream, or the fault of a `⊥` element. -/
theorem okStreamCell_cases (d : Word) (c : Cell (List Word)) (s : State) :
    (∃ vs, c = some vs ∧ okStreamCell d c s = .next (s.respond .ok d vs)) ∨
    (c = none ∧ okStreamCell d c s = .fault .unspecifiedResponse) := by
  cases c with
  | none => exact .inr ⟨rfl, rfl⟩
  | some vs => exact .inl ⟨vs, rfl, rfl⟩

/-! Checks. -/

theorem withSlot_of_lt {a : Byte} (h : a.toNat < 4) (s : State) (k : Fin 4 → Result) :
    withSlot a s k = k ⟨a.toNat, h⟩ := dif_pos h

theorem withSlot_of_ge {a : Byte} (h : 4 ≤ a.toNat) (s : State) (k : Fin 4 → Result) :
    withSlot a s k = .next (s.respond .badSlot (a.setWidth 32) []) := dif_neg (by omega)

/-- A slot operand names a slot, or the response is BadSlot. -/
theorem withSlot_cases (a : Byte) (s : State) (k : Fin 4 → Result) :
    (∃ h : a.toNat < 4, withSlot a s k = k ⟨a.toNat, h⟩) ∨
    (4 ≤ a.toNat ∧ withSlot a s k = .next (s.respond .badSlot (a.setWidth 32) [])) := by
  by_cases h : a.toNat < 4
  · exact .inl ⟨h, withSlot_of_lt h s k⟩
  · exact .inr ⟨by omega, withSlot_of_ge (by omega) s k⟩

theorem withFields_some {sl : Slot} {f : SlotFields} (h : sl.fields = some f)
    (k : SlotFields → Result) : withFields sl k = k f := by
  unfold withFields; rw [h]

theorem withFields_none {sl : Slot} (h : sl.fields = none) (k : SlotFields → Result) :
    withFields sl k = .fault .unspecifiedSlotField := by
  unfold withFields; rw [h]

/-- A slot's fields are read, or they are `⊥`. -/
theorem withFields_cases (sl : Slot) (k : SlotFields → Result) :
    (∃ f, sl.fields = some f ∧ withFields sl k = k f) ∨
    (sl.fields = none ∧ withFields sl k = .fault .unspecifiedSlotField) := by
  cases h : sl.fields with
  | none => exact .inr ⟨rfl, withFields_none h k⟩
  | some f => exact .inl ⟨f, rfl, withFields_some h k⟩

/-- A command that Busy refuses runs when no slot is on. -/
theorem unlessBusy_cases (s : State) (r : Result) :
    (s.anyOn = false ∧ unlessBusy s r = r) ∨
    (s.anyOn = true ∧ unlessBusy s r = .next (s.respond .busy s.onMask [])) := by
  cases h : s.anyOn <;> simp [unlessBusy, h]

/-- Some slot is on exactly when one of the four is. -/
theorem State.anyOn_iff (s : State) : s.anyOn = true ↔ ∃ k, (s.slot k).on = true := by
  simp only [State.anyOn, Bool.or_eq_true, State.slot]
  constructor
  · rintro (((h | h) | h) | h)
    exacts [⟨0, h⟩, ⟨1, h⟩, ⟨2, h⟩, ⟨3, h⟩]
  · rintro ⟨k, h⟩
    fin_cases k <;> simp_all

theorem State.anyOn_false_iff (s : State) : s.anyOn = false ↔ ∀ k, (s.slot k).on = false := by
  rw [← Bool.not_eq_true, State.anyOn_iff]
  simp

/-- Bit j of Busy's data is set exactly when slot j is on. -/
theorem State.onMask_bit (s : State) (j : Nat) :
    s.onMask.getLsbD j = true ↔ ∃ k : Fin 4, k.val = j ∧ (s.slot k).on = true := by
  have hfin : (∃ k : Fin 4, k.val = j ∧ (s.slot k).on = true) ↔
      (j = 0 ∧ s.slots.s0.on = true) ∨ (j = 1 ∧ s.slots.s1.on = true) ∨
      (j = 2 ∧ s.slots.s2.on = true) ∨ (j = 3 ∧ s.slots.s3.on = true) := by
    constructor
    · rintro ⟨k, rfl, h⟩
      fin_cases k
      exacts [.inl ⟨rfl, h⟩, .inr (.inl ⟨rfl, h⟩), .inr (.inr (.inl ⟨rfl, h⟩)),
        .inr (.inr (.inr ⟨rfl, h⟩))]
    · rintro (⟨rfl, h⟩ | ⟨rfl, h⟩ | ⟨rfl, h⟩ | ⟨rfl, h⟩)
      exacts [⟨0, rfl, h⟩, ⟨1, rfl, h⟩, ⟨2, rfl, h⟩, ⟨3, rfl, h⟩]
  rw [hfin]
  unfold State.onMask
  by_cases hj : j < 4
  · obtain rfl | rfl | rfl | rfl : j = 0 ∨ j = 1 ∨ j = 2 ∨ j = 3 := by omega
    all_goals
      cases s.slots.s0.on <;> cases s.slots.s1.on <;> cases s.slots.s2.on <;>
        cases s.slots.s3.on <;> decide
  · have hlt : s.slots.s0.on.toNat + 2 * s.slots.s1.on.toNat + 4 * s.slots.s2.on.toNat +
        8 * s.slots.s3.on.toNat < 2 ^ j := by
      have h16 : 2 ^ 4 ≤ 2 ^ j := Nat.pow_le_pow_right (by omega) (by omega)
      have h0 := Bool.toNat_le s.slots.s0.on
      have h1 := Bool.toNat_le s.slots.s1.on
      have h2 := Bool.toNat_le s.slots.s2.on
      have h3 := Bool.toNat_le s.slots.s3.on
      omega
    have hbit := Nat.testBit_lt_two_pow hlt
    simp only [BitVec.getLsbD_ofNat, hbit, Bool.and_false, Bool.false_eq_true, false_iff]
    omega

/-! The palette. -/

/-- PALREP's writes keep everything but the palette. -/
theorem State.setPals_frame (s : State) (i : Nat) (vs : List Half) :
    s.setPals i vs = { s with palRaw := (s.setPals i vs).palRaw, palRgb := (s.setPals i vs).palRgb } := by
  induction vs generalizing s i with
  | nil => rfl
  | cons v vs ih =>
    have h := ih (s.setPal i v) (i + 1)
    simp only [State.setPals]
    rw [h]
    rfl

/-- PALREP's raw writes: entry `i + k` holds the k-th value. -/
theorem State.setPals_palRaw (s : State) (i : Nat) (vs : List Half) (a : Nat) :
    (s.setPals i vs).palRaw.get a =
      if i ≤ a ∧ a < i + vs.length then vs[a - i]? else s.palRaw.get a := by
  induction vs generalizing s i with
  | nil => simp [State.setPals]
  | cons v vs ih =>
    simp only [State.setPals, ih, State.setPal_palRaw, Memory.get_write_some, List.length_cons]
    by_cases h1 : a = i
    · subst h1; simp
    · by_cases h2 : i + 1 ≤ a ∧ a < i + 1 + vs.length
      · rw [if_pos h2, if_pos (by omega), show a - i = (a - (i + 1)) + 1 by omega]
        simp
      · rw [if_neg h2, if_neg h1, if_neg (by omega)]

/-- PALREP's RGB writes: entry `i + k` holds `derive` of the k-th value. -/
theorem State.setPals_palRgb (s : State) (i : Nat) (vs : List Half) (a : Nat) :
    (s.setPals i vs).palRgb.get a =
      if i ≤ a ∧ a < i + vs.length then vs[a - i]?.map derive else s.palRgb.get a := by
  induction vs generalizing s i with
  | nil => simp [State.setPals]
  | cons v vs ih =>
    simp only [State.setPals, ih, State.setPal_palRgb, Memory.get_write_some, List.length_cons]
    by_cases h1 : a = i
    · subst h1; simp
    · by_cases h2 : i + 1 ≤ a ∧ a < i + 1 + vs.length
      · rw [if_pos h2, if_pos (by omega), show a - i = (a - (i + 1)) + 1 by omega]
        simp
      · rw [if_neg h2, if_neg h1, if_neg (by omega)]

/-- PALREP's writes keep the palette files in canonical form. -/
theorem State.setPals_wf {size : Nat} (s : State) (i : Nat) (vs : List Half)
    (hn : i + vs.length ≤ size) (hraw : s.palRaw.wf size = true) (hrgb : s.palRgb.wf size = true) :
    (s.setPals i vs).palRaw.wf size = true ∧ (s.setPals i vs).palRgb.wf size = true := by
  induction vs generalizing s i with
  | nil => exact ⟨hraw, hrgb⟩
  | cons v vs ih =>
    simp only [List.length_cons] at hn
    exact ih (s.setPal i v) (i + 1) (by omega) (Memory.wf_write _ (by omega) hraw)
      (Memory.wf_write _ (by omega) hrgb)

/-! The bitplane codec. -/

/-- The plane loop of `pixIndex`: after p planes the index holds the bits of planes 0 to p-1. -/
theorem pixIndex_loop {pw : Memory Half} {g b P : Nat} (n : Nat)
    (h : ∀ p, p < n → (pw.get (g * P + p)).isSome = true) :
    ∃ r, forRange n
        (fun p acc => do
          let r ← acc
          let w ← pw.get (g * P + p)
          return if w.getLsbD b then r ||| (1 <<< p) else r)
        (some 0) = some r ∧ r < 2 ^ n ∧
      ∀ p, p < n → ∀ w, pw.get (g * P + p) = some w → r.testBit p = w.getLsbD b := by
  induction n with
  | zero => exact ⟨0, rfl, by simp, by simp⟩
  | succ n ih =>
    obtain ⟨r, hr, hlt, hbits⟩ := ih fun p hp => h p (by omega)
    obtain ⟨w, hw⟩ := Option.isSome_iff_exists.mp (h n (by omega))
    have hone : (1 : Nat) <<< n = 2 ^ n := by simp [Nat.shiftLeft_eq]
    have hpow : (2 : Nat) ^ (n + 1) = 2 * 2 ^ n := by rw [pow_succ]; omega
    refine ⟨if w.getLsbD b then r ||| (1 <<< n) else r, ?_, ?_, ?_⟩
    · rw [forRange_succ, hr]; simp [hw]
    · split
      · exact Nat.or_lt_two_pow (by omega) (by omega)
      · omega
    · intro p hp v hv
      by_cases e : p = n
      · subst e
        obtain rfl : w = v := Option.some.inj (hw.symm.trans hv)
        have hr0 : r.testBit p = false := Nat.testBit_lt_two_pow hlt
        cases hb : w.getLsbD b <;> simp [hr0]
      · have hp' : p < n := by omega
        have := hbits p hp' v hv
        cases hb : w.getLsbD b
        · simpa using this
        · have hne : n ≠ p := fun h => e h.symm
          simp [Nat.testBit_or, hone, hne, this]

/-- `pixIndex` (41_bitplane_codec.md R120, R121): where every word it reads is written, its bit p is
the plane-p bit of the pixel, and it is below `2 ^ P`. -/
theorem pixIndex_spec {d : ModeDesc} {pw : Memory Half} {n : Nat}
    (h : ∀ p, p < d.p → (pw.get (n / 16 * d.p + p)).isSome = true) :
    ∃ r, pixIndex d pw n = some r ∧ r < 2 ^ d.p ∧
      ∀ p, p < d.p → ∀ w, pw.get (n / 16 * d.p + p) = some w →
        r.testBit p = w.getLsbD (15 - n % 16) :=
  pixIndex_loop d.p h

/-! The step. -/

theorem rotate_succ (snap : Memory Rgb) (left right n c : Nat) (pal : Memory Rgb) :
    rotate snap left right (n + 1) c pal =
      ((rotate snap left right n c pal).1.write (left + n) (snap.get (rotate snap left right n c pal).2),
       nextCursor left right (rotate snap left right n c pal).2) := rfl

/-- The write loop of a step touches only `left .. left + n - 1`. -/
theorem rotate_frame (snap : Memory Rgb) (left right n c : Nat) (pal : Memory Rgb) (a : Nat)
    {size : Nat} (h : pal.wf size = true) (hn : left + n ≤ size) (ha : a < left ∨ left + n ≤ a) :
    (rotate snap left right n c pal).1.get a = pal.get a :=
  (forRange_induction
    (P := fun k (x : Memory Rgb × Nat) => x.1.wf size = true ∧ x.1.get a = pal.get a)
    n ⟨h, rfl⟩
    fun k x hk hx => ⟨Memory.wf_write _ (by omega) hx.1, by
      rw [Memory.get_write hx.1, if_neg (by omega)]; exact hx.2⟩).2

/-- The write loop keeps the palette file in canonical form. -/
theorem rotate_wf (snap : Memory Rgb) (left right n c : Nat) {pal : Memory Rgb} {size : Nat}
    (h : pal.wf size = true) (hn : left + n ≤ size) :
    (rotate snap left right n c pal).1.wf size = true :=
  forRange_induction (P := fun _ (x : Memory Rgb × Nat) => x.1.wf size = true) n h
    fun k _ hk hx => Memory.wf_write _ (by omega) hx

/-- A step of an empty range writes no palette entry (42_color_cycle.md R169). -/
theorem rotate_none (snap : Memory Rgb) (left right c : Nat) (pal : Memory Rgb) :
    rotate snap left right 0 c pal = (pal, c) := rfl

/-- The read cursor after k writes, from c in `[left, right]`: `left + ((c - left + k) mod N)`. -/
theorem rotate_cursor {left right : Nat} (hlr : left ≤ right) (snap : Memory Rgb) (n c : Nat)
    (pal : Memory Rgb) (h1 : left ≤ c) (h2 : c ≤ right) :
    (rotate snap left right n c pal).2 = left + (c - left + n) % (right - left + 1) :=
  forRange_induction
    (P := fun k (x : Memory Rgb × Nat) => x.2 = left + (c - left + k) % (right - left + 1)) n
    (by show c = _; rw [Nat.mod_eq_of_lt (by omega)]; omega)
    fun k x _ hx => by
      show nextCursor left right x.2 = _
      rw [hx, ← Nat.add_assoc, Nat.add_mod (c - left + k) 1]
      have hm : (c - left + k) % (right - left + 1) < right - left + 1 := Nat.mod_lt _ (by omega)
      generalize (c - left + k) % (right - left + 1) = m at hm
      unfold nextCursor
      by_cases hN : right = left
      · subst hN
        simp [Nat.mod_one]
      · rw [Nat.mod_eq_of_lt (a := 1) (by omega)]
        split
        · rw [show m + 1 = right - left + 1 by omega, Nat.mod_self, Nat.add_zero]
        · rw [Nat.mod_eq_of_lt (by omega)]; omega

/-- The write loop's entries: entry `left + k` holds the snapshot at
`left + ((c - left + k) mod N)` (42_color_cycle.md R167). -/
theorem rotate_get {left right : Nat} (hlr : left ≤ right) (snap : Memory Rgb) (n c : Nat)
    {pal : Memory Rgb} {size : Nat} (h : pal.wf size = true) (hn : left + n ≤ size)
    (h1 : left ≤ c) (h2 : c ≤ right) (k : Nat) (hk : k < n) :
    (rotate snap left right n c pal).1.get (left + k) =
      snap.get (left + (c - left + k) % (right - left + 1)) := by
  induction n with
  | zero => omega
  | succ n ih =>
    have hwf := rotate_wf snap left right n c h (by omega)
    rw [rotate_succ, Memory.get_write hwf]
    by_cases e : k = n
    · subst e
      rw [if_pos rfl, rotate_cursor hlr snap k c pal h1 h2]
    · rw [if_neg (by omega)]
      exact ih (by omega) (by omega)

/-- A step's new position lies in `[left, right]` when that range is not empty. -/
theorem nextPos_range {f : SlotFields} (h : f.left.toNat ≤ f.right.toNat) :
    f.left.toNat ≤ (nextPos f).toNat ∧ (nextPos f).toNat ≤ f.right.toNat := by
  have hr := f.right.isLt
  unfold nextPos
  simp only
  split
  · omega
  · split
    · omega
    · rename_i h1 h2
      generalize hq : (f.pos.toNat : Int) - dirInt f.dir = q at *
      have : (BitVec.ofInt 16 q).toNat = q.toNat := by
        rw [BitVec.toNat_ofInt]
        omega
      omega

end Sys2Proof.Machine
end

