-- ==== Sys2Proof/Laws/Commands.lean ====
section
/-! SUPPORT. For each command, once, every way it can end. -/

namespace Sys2Proof.Machine

/-! Mode and palette. -/

theorem execMode_cases (id : Half) (s : State) :
    (s.anyOn = false ∧
      execMode id s = .next ({ s.clearPalette with mode := modeOfId id }.respond .ok 0#32 [])) ∨
    (s.anyOn = true ∧ execMode id s = .next (s.respond .busy s.onMask [])) :=
  unlessBusy_cases s _

theorem execModeq_eq (s : State) :
    execModeq s = .next (s.respond .ok (packModeDesc s.mode) []) := rfl

theorem execPalrep_cases (vs : List Half) (s : State) :
    (vs.length = s.desc.rc ∧ execPalrep vs s = .next ((s.setPals 0 vs).respond .ok 0#32 [])) ∨
    (vs.length ≠ s.desc.rc ∧
      execPalrep vs s = .next (s.respond .invalidPaletteSize (BitVec.ofNat 32 vs.length) [])) := by
  unfold execPalrep
  split
  · exact .inr ⟨‹_›, rfl⟩
  · exact .inl ⟨not_not.mp ‹_›, rfl⟩

theorem execPalset_cases (i : Byte) (v : Half) (s : State) :
    (i.toNat < s.desc.rc ∧ execPalset i v s = .next ((s.setPal i.toNat v).respond .ok 0#32 [])) ∨
    (s.desc.rc ≤ i.toNat ∧
      execPalset i v s = .next (s.respond .indexOutOfRange (i.setWidth 32) [])) := by
  unfold execPalset
  split
  · exact .inr ⟨‹_›, rfl⟩
  · exact .inl ⟨not_le.mp ‹_›, rfl⟩

/-- The three ends of a command that reads one cell: the value, the fault of a `⊥` cell,
IndexOutOfRange. -/
theorem readCell_cases {n bound : Nat} (c : Cell Word) (d : Word) (s : State) {r : Result}
    (h : r = if bound ≤ n then raise .indexOutOfRange d s else okCell c s) :
    (n < bound ∧ ∃ v, c = some v ∧ r = .next (s.respond .ok v [])) ∨
    (n < bound ∧ c = none ∧ r = .fault .unspecifiedResponse) ∨
    (bound ≤ n ∧ r = .next (s.respond .indexOutOfRange d [])) := by
  subst h
  split
  · exact .inr (.inr ⟨‹_›, rfl⟩)
  · obtain ⟨v, hv, hr⟩ | ⟨hc, hr⟩ := okCell_cases c s
    · exact .inl ⟨not_le.mp ‹_›, v, hv, hr⟩
    · exact .inr (.inl ⟨not_le.mp ‹_›, hc, hr⟩)

theorem execPalrgb_cases (i : Byte) (s : State) :
    (i.toNat < s.desc.rc ∧ ∃ v, (s.palRgb.get i.toNat).map packRgb = some v ∧
      execPalrgb i s = .next (s.respond .ok v [])) ∨
    (i.toNat < s.desc.rc ∧ (s.palRgb.get i.toNat).map packRgb = none ∧
      execPalrgb i s = .fault .unspecifiedResponse) ∨
    (s.desc.rc ≤ i.toNat ∧
      execPalrgb i s = .next (s.respond .indexOutOfRange (i.setWidth 32) [])) :=
  readCell_cases _ _ s rfl

theorem execPalraw_cases (i : Byte) (s : State) :
    (i.toNat < s.desc.rc ∧ ∃ v, (s.palRaw.get i.toNat).map (·.setWidth 32) = some v ∧
      execPalraw i s = .next (s.respond .ok v [])) ∨
    (i.toNat < s.desc.rc ∧ (s.palRaw.get i.toNat).map (·.setWidth 32) = none ∧
      execPalraw i s = .fault .unspecifiedResponse) ∨
    (s.desc.rc ≤ i.toNat ∧
      execPalraw i s = .next (s.respond .indexOutOfRange (i.setWidth 32) [])) :=
  readCell_cases _ _ s rfl

/-! Bitplane codec. -/

theorem execPwwr_cases (a : Addr) (v : Half) (s : State) :
    (a.toNat < 16000 ∧
      execPwwr a v s = .next ((s.writePw a.toNat (some v)).respond .ok 0#32 [])) ∨
    (16000 ≤ a.toNat ∧ execPwwr a v s = .next (s.respond .indexOutOfRange (a.setWidth 32) [])) := by
  unfold execPwwr
  split
  · exact .inr ⟨‹_›, rfl⟩
  · exact .inl ⟨not_le.mp ‹_›, rfl⟩

theorem execPwrd_cases (a : Addr) (s : State) :
    (a.toNat < 16000 ∧ ∃ v, (s.pw.get a.toNat).map (·.setWidth 32) = some v ∧
      execPwrd a s = .next (s.respond .ok v [])) ∨
    (a.toNat < 16000 ∧ (s.pw.get a.toNat).map (·.setWidth 32) = none ∧
      execPwrd a s = .fault .unspecifiedResponse) ∨
    (16000 ≤ a.toNat ∧ execPwrd a s = .next (s.respond .indexOutOfRange (a.setWidth 32) [])) :=
  readCell_cases _ _ s rfl

theorem execStagew_cases (b v : Byte) (s : State) :
    (b.toNat < 160 ∧
      execStagew b v s = .next ((s.writeStg b.toNat (some v)).respond .ok 0#32 [])) ∨
    (160 ≤ b.toNat ∧ execStagew b v s = .next (s.respond .indexOutOfRange (b.setWidth 32) [])) := by
  unfold execStagew
  split
  · exact .inr ⟨‹_›, rfl⟩
  · exact .inl ⟨not_le.mp ‹_›, rfl⟩

/-- A REILV writes 80 words in every mode (41_bitplane_codec.md R140). -/
theorem stagedWords_mul_planes (m : GMode) : stagedWords (modeDesc m) * (modeDesc m).p = 80 := by
  cases m <;> rfl

theorem execReilv_cases (y : Half) (s : State) :
    (y.toNat < 200 ∧
      execReilv y s = .next
        ({ s with pw := reinterleave s.desc s.stg (y.toNat * 80) s.pw }.respond .ok 0#32 [])) ∨
    (200 ≤ y.toNat ∧
      execReilv y s = .next (s.respond .planeAddressOverflow (y.setWidth 32) [])) := by
  have h80 : stagedWords s.desc * s.desc.p = 80 := stagedWords_mul_planes s.mode
  unfold execReilv
  simp only [h80, Config.pwWords]
  split
  · exact .inr ⟨by omega, rfl⟩
  · exact .inl ⟨by omega, rfl⟩

theorem execPix_cases (n : Addr) (s : State) :
    (n.toNat < s.desc.w * s.desc.h ∧ ∃ v, indexElement s n.toNat = some v ∧
      execPix n s = .next (s.respond .ok v [])) ∨
    (n.toNat < s.desc.w * s.desc.h ∧ indexElement s n.toNat = none ∧
      execPix n s = .fault .unspecifiedResponse) ∨
    (s.desc.w * s.desc.h ≤ n.toNat ∧
      execPix n s = .next (s.respond .indexOutOfRange (n.setWidth 32) [])) :=
  readCell_cases _ _ s rfl

theorem execRgba_cases (n : Addr) (s : State) :
    (n.toNat < s.desc.w * s.desc.h ∧ ∃ v, rgbaElement s n.toNat = some v ∧
      execRgba n s = .next (s.respond .ok v [])) ∨
    (n.toNat < s.desc.w * s.desc.h ∧ rgbaElement s n.toNat = none ∧
      execRgba n s = .fault .unspecifiedResponse) ∨
    (s.desc.w * s.desc.h ≤ n.toNat ∧
      execRgba n s = .next (s.respond .indexOutOfRange (n.setWidth 32) [])) :=
  readCell_cases _ _ s rfl

theorem execUnpack_cases (s : State) :
    (∃ vs, collect (indexElement s) (s.desc.w * s.desc.h) 0 = some vs ∧
      execUnpack s = .next (s.respond .ok (BitVec.ofNat 32 (s.desc.w * s.desc.h)) vs)) ∨
    (collect (indexElement s) (s.desc.w * s.desc.h) 0 = none ∧
      execUnpack s = .fault .unspecifiedResponse) :=
  okStreamCell_cases _ _ s

theorem execRender_cases (s : State) :
    (∃ vs, collect (rgbaElement s) (s.desc.w * s.desc.h) 0 = some vs ∧
      execRender s = .next (s.respond .ok (BitVec.ofNat 32 (s.desc.w * s.desc.h)) vs)) ∨
    (collect (rgbaElement s) (s.desc.w * s.desc.h) 0 = none ∧
      execRender s = .fault .unspecifiedResponse) :=
  okStreamCell_cases _ _ s

/-! Color cycle. -/

/-- CCLOAD loads all four slots, or reports the lowest slot with a bad direction, or Busy. -/
theorem execCcload_cases (d : Quad Desc) (s : State) :
    (s.anyOn = false ∧ (∃ q : Quad Dir, (∀ k, decodeDir (Quad.get d k).dirRaw = some (Quad.get q k)) ∧
      execCcload d s = .next
        ({ s with slots := ⟨Slot.load d.s0 q.s0, Slot.load d.s1 q.s1, Slot.load d.s2 q.s2,
                            Slot.load d.s3 q.s3⟩ }.respond .ok 0#32 []))) ∨
    (s.anyOn = false ∧ (∃ k : Fin 4, decodeDir (Quad.get d k).dirRaw = none ∧
      (∀ j, j < k → (decodeDir (Quad.get d j).dirRaw).isSome = true) ∧
      execCcload d s = .next (s.respond .badDirection
        ((BitVec.ofNat 32 k.val <<< 16) ||| (Quad.get d k).dirRaw.setWidth 32) []))) ∨
    (s.anyOn = true ∧ execCcload d s = .next (s.respond .busy s.onMask [])) := by
  obtain ⟨hb, hr⟩ | ⟨hb, hr⟩ := unlessBusy_cases s
    (match decodeDir d.s0.dirRaw, decodeDir d.s1.dirRaw, decodeDir d.s2.dirRaw, decodeDir d.s3.dirRaw with
    | none, _, _, _ => badDirection 0#32 d.s0 s
    | some _, none, _, _ => badDirection 1#32 d.s1 s
    | some _, some _, none, _ => badDirection 2#32 d.s2 s
    | some _, some _, some _, none => badDirection 3#32 d.s3 s
    | some d0, some d1, some d2, some d3 =>
      ok 0#32
        { s with slots := ⟨Slot.load d.s0 d0, Slot.load d.s1 d1, Slot.load d.s2 d2, Slot.load d.s3 d3⟩ })
  · have he : execCcload d s = _ := hr
    rw [he]
    cases h0 : decodeDir d.s0.dirRaw with
    | none => exact .inr (.inl ⟨hb, 0, h0, fun j hj => absurd hj (by omega), rfl⟩)
    | some d0 =>
      cases h1 : decodeDir d.s1.dirRaw with
      | none =>
        refine .inr (.inl ⟨hb, 1, h1, fun j hj => ?_, rfl⟩)
        obtain rfl : j = 0 := by omega
        simp [h0]
      | some d1 =>
        cases h2 : decodeDir d.s2.dirRaw with
        | none =>
          refine .inr (.inl ⟨hb, 2, h2, fun j hj => ?_, rfl⟩)
          obtain rfl | rfl : j = 0 ∨ j = 1 := by omega
          · simp [h0]
          · simp [h1]
        | some d2 =>
          cases h3 : decodeDir d.s3.dirRaw with
          | none =>
            refine .inr (.inl ⟨hb, 3, h3, fun j hj => ?_, rfl⟩)
            obtain rfl | rfl | rfl : j = 0 ∨ j = 1 ∨ j = 2 := by omega
            · simp [h0]
            · simp [h1]
            · simp [h2]
          | some d3 =>
            refine .inl ⟨hb, ⟨d0, d1, d2, d3⟩, fun k => ?_, rfl⟩
            fin_cases k
            exacts [h0, h1, h2, h3]
  · exact .inr (.inr ⟨hb, hr⟩)

theorem execCcunld_cases (s : State) :
    (s.anyOn = false ∧
      execCcunld s = .next ({ s with slots := Quad.map Slot.unload s.slots }.respond .ok 0#32 [])) ∨
    (s.anyOn = true ∧ execCcunld s = .next (s.respond .busy s.onMask [])) :=
  unlessBusy_cases s _

/-- CCSTART on a slot number below 4. -/
theorem execCcstart_cases {a : Byte} (h : a.toNat < 4) (s : State) :
    ((s.slot ⟨a.toNat, h⟩).loaded = false ∧
      execCcstart a s = .next (s.respond .slotNotLoaded (a.setWidth 32) [])) ∨
    ((s.slot ⟨a.toNat, h⟩).loaded = true ∧ (s.slot ⟨a.toNat, h⟩).fields = none ∧
      execCcstart a s = .fault .unspecifiedSlotField) ∨
    (∃ f, (s.slot ⟨a.toNat, h⟩).loaded = true ∧ (s.slot ⟨a.toNat, h⟩).fields = some f ∧
      ((f.dir = .still ∧ execCcstart a s = .next (s.respond .fail 0#32 [])) ∨
       (f.dir ≠ .still ∧ 1 ≤ rangeLen f.left f.right ∧ s.desc.rc ≤ f.right.toNat ∧
         execCcstart a s = .next (s.respond .cycleRange (f.right.setWidth 32) [])) ∨
       (f.dir ≠ .still ∧ (1 ≤ rangeLen f.left f.right → f.right.toNat < s.desc.rc) ∧
         execCcstart a s = .next ((s.takeSnapshot.setSlot ⟨a.toNat, h⟩
           ((s.slot ⟨a.toNat, h⟩).arm f)).respond .ok 0#32 [])))) := by
  unfold execCcstart
  rw [withSlot_of_lt h]
  cases hl : (s.slot ⟨a.toNat, h⟩).loaded with
  | false => exact .inl ⟨rfl, rfl⟩
  | true =>
    rw [if_neg (by simp)]
    obtain ⟨f, hf, hr⟩ | ⟨hf, hr⟩ := withFields_cases (s.slot ⟨a.toNat, h⟩) fun f =>
        if f.dir = .still then fail s
        else if 1 ≤ rangeLen f.left f.right ∧ s.desc.rc ≤ f.right.toNat then
          raise .cycleRange (f.right.setWidth 32) s
        else ok 0#32 (s.takeSnapshot.setSlot ⟨a.toNat, h⟩ ((s.slot ⟨a.toNat, h⟩).arm f))
    · refine .inr (.inr ⟨f, rfl, hf, ?_⟩)
      rw [hr]
      split
      · exact .inl ⟨‹_›, rfl⟩
      · split
        · rename_i hd hc
          exact .inr (.inl ⟨hd, hc.1, hc.2, rfl⟩)
        · rename_i hd hc
          exact .inr (.inr ⟨hd, fun hN => not_le.mp fun hle => hc ⟨hN, hle⟩, rfl⟩)
    · exact .inr (.inl ⟨rfl, hf, hr⟩)

/-- Cancelling sends CANCEL of the stored handle when the slot is animating, and nothing else. -/
theorem State.cancelled_eq (s : State) (k : Fin 4) :
    s.cancelled k = { s with out := s.out ++ if (s.slot k).anim then [.cancel (s.slot k).handle] else [] } := by
  unfold State.cancelled
  cases (s.slot k).anim <;> simp [State.send]

@[simp] theorem State.slot_cancelled (s : State) (k j : Fin 4) :
    (s.cancelled k).slot j = s.slot j := by
  rw [State.cancelled_eq]; rfl

/-- A step of slot k moves that slot's position and writes no other slot field. -/
theorem State.slot_cycleStep (s : State) (k j : Fin 4) (f : SlotFields) :
    (s.cycleStep k f).slot j =
      if j = k then { s.slot k with fields := some { f with pos := nextPos f } } else s.slot j := by
  rw [State.slot, State.cycleStep_slots, Quad.get_set]; rfl

/-- CCANIM on a slot number below 4. -/
theorem execCcanim_cases {a : Byte} (h : a.toNat < 4) (s : State) :
    ((s.slot ⟨a.toNat, h⟩).on = false ∧ execCcanim a s = .next (s.respond .fail 0#32 [])) ∨
    ((s.slot ⟨a.toNat, h⟩).on = true ∧ (s.slot ⟨a.toNat, h⟩).fields = none ∧
      execCcanim a s = .fault .unspecifiedSlotField) ∨
    (∃ f, (s.slot ⟨a.toNat, h⟩).on = true ∧ (s.slot ⟨a.toNat, h⟩).fields = some f ∧
      execCcanim a s = .next ((((s.cancelled ⟨a.toNat, h⟩).sched ⟨a.toNat, h⟩ f.delay).setSlot
        ⟨a.toNat, h⟩ ((s.slot ⟨a.toNat, h⟩).animate (Config.hostHandle s.schedCount))).respond
          .ok 0#32 [])) := by
  unfold execCcanim
  rw [withSlot_of_lt h]
  cases hl : (s.slot ⟨a.toNat, h⟩).on with
  | false => exact .inl ⟨rfl, rfl⟩
  | true =>
    rw [if_neg (by simp)]
    obtain ⟨f, hf, hr⟩ | ⟨hf, hr⟩ := withFields_cases (s.slot ⟨a.toNat, h⟩) fun f =>
      ok 0#32 (((s.cancelled ⟨a.toNat, h⟩).sched ⟨a.toNat, h⟩ f.delay).setSlot ⟨a.toNat, h⟩
        ((s.slot ⟨a.toNat, h⟩).animate (Config.hostHandle s.schedCount)))
    · exact .inr (.inr ⟨f, rfl, hf, hr⟩)
    · exact .inr (.inl ⟨rfl, hf, hr⟩)

/-- CCSTEP on a slot number below 4. -/
theorem execCcstep_cases {a : Byte} (h : a.toNat < 4) (s : State) :
    ((s.slot ⟨a.toNat, h⟩).on = false ∧ execCcstep a s = .next (s.respond .fail 0#32 [])) ∨
    ((s.slot ⟨a.toNat, h⟩).on = true ∧ (s.slot ⟨a.toNat, h⟩).fields = none ∧
      execCcstep a s = .fault .unspecifiedSlotField) ∨
    (∃ f, (s.slot ⟨a.toNat, h⟩).on = true ∧ (s.slot ⟨a.toNat, h⟩).fields = some f ∧
      execCcstep a s = .next ((s.cycleStep ⟨a.toNat, h⟩ f).respond .ok 0#32 [])) := by
  unfold execCcstep
  rw [withSlot_of_lt h]
  cases hl : (s.slot ⟨a.toNat, h⟩).on with
  | false => exact .inl ⟨rfl, rfl⟩
  | true =>
    rw [if_neg (by simp)]
    obtain ⟨f, hf, hr⟩ | ⟨hf, hr⟩ := withFields_cases (s.slot ⟨a.toNat, h⟩) fun f =>
      ok 0#32 (s.cycleStep ⟨a.toNat, h⟩ f)
    · exact .inr (.inr ⟨f, rfl, hf, hr⟩)
    · exact .inr (.inl ⟨rfl, hf, hr⟩)

/-- CCSTOP on a slot number below 4. -/
theorem execCcstop_cases {a : Byte} (h : a.toNat < 4) (s : State) :
    ((s.slot ⟨a.toNat, h⟩).on = false ∧ execCcstop a s = .next (s.respond .fail 0#32 [])) ∨
    ((s.slot ⟨a.toNat, h⟩).on = true ∧
      execCcstop a s = .next (((s.cancelled ⟨a.toNat, h⟩).restorePalette.setSlot ⟨a.toNat, h⟩
        (s.slot ⟨a.toNat, h⟩).disarm).respond .ok 0#32 [])) := by
  unfold execCcstop
  rw [withSlot_of_lt h]
  cases hl : (s.slot ⟨a.toNat, h⟩).on with
  | false => exact .inl ⟨rfl, rfl⟩
  | true => exact .inr ⟨rfl, rfl⟩

/-- CCTICK on a slot number below 4. -/
theorem execCctick_cases {a : Byte} (h : a.toNat < 4) (s : State) :
    ((s.slot ⟨a.toNat, h⟩).anim = false ∧ execCctick a s = .next (s.respond .fail 0#32 [])) ∨
    ((s.slot ⟨a.toNat, h⟩).anim = true ∧ (s.slot ⟨a.toNat, h⟩).fields = none ∧
      execCctick a s = .fault .unspecifiedSlotField) ∨
    (∃ f, (s.slot ⟨a.toNat, h⟩).anim = true ∧ (s.slot ⟨a.toNat, h⟩).fields = some f ∧
      execCctick a s = .next ((s.cycleStep ⟨a.toNat, h⟩ f).respond .ok 0#32 [])) := by
  unfold execCctick
  rw [withSlot_of_lt h]
  cases hl : (s.slot ⟨a.toNat, h⟩).anim with
  | false => exact .inl ⟨rfl, rfl⟩
  | true =>
    rw [if_neg (by simp)]
    obtain ⟨f, hf, hr⟩ | ⟨hf, hr⟩ := withFields_cases (s.slot ⟨a.toNat, h⟩) fun f =>
      ok 0#32 (s.cycleStep ⟨a.toNat, h⟩ f)
    · exact .inr (.inr ⟨f, rfl, hf, hr⟩)
    · exact .inr (.inl ⟨rfl, hf, hr⟩)

/-- CCSTAT on a slot number below 4. -/
theorem execCcstat_cases {a : Byte} (h : a.toNat < 4) (q : BitVec 2) (s : State) :
    ((s.slot ⟨a.toNat, h⟩).loaded = false ∧ execCcstat a q s = .next (s.respond .ok 0#32 [])) ∨
    ((s.slot ⟨a.toNat, h⟩).loaded = true ∧ (s.slot ⟨a.toNat, h⟩).fields = none ∧
      execCcstat a q s = .fault .unspecifiedSlotField) ∨
    (∃ f, (s.slot ⟨a.toNat, h⟩).loaded = true ∧ (s.slot ⟨a.toNat, h⟩).fields = some f ∧
      execCcstat a q s = .next (s.respond .ok (packSlot (s.slot ⟨a.toNat, h⟩) f q) [])) := by
  unfold execCcstat
  rw [withSlot_of_lt h]
  cases hl : (s.slot ⟨a.toNat, h⟩).loaded with
  | false => exact .inl ⟨rfl, rfl⟩
  | true =>
    rw [if_neg (by simp)]
    obtain ⟨f, hf, hr⟩ | ⟨hf, hr⟩ := withFields_cases (s.slot ⟨a.toNat, h⟩) fun f =>
      ok (packSlot (s.slot ⟨a.toNat, h⟩) f q) s
    · exact .inr (.inr ⟨f, rfl, hf, hr⟩)
    · exact .inr (.inl ⟨rfl, hf, hr⟩)

/-! A slot operand of 4 or more: BadSlot, whatever the command (30_encoding.md R77). -/

theorem execCcstart_badSlot {a : Byte} (h : 4 ≤ a.toNat) (s : State) :
    execCcstart a s = .next (s.respond .badSlot (a.setWidth 32) []) := withSlot_of_ge h s _

theorem execCcanim_badSlot {a : Byte} (h : 4 ≤ a.toNat) (s : State) :
    execCcanim a s = .next (s.respond .badSlot (a.setWidth 32) []) := withSlot_of_ge h s _

theorem execCcstep_badSlot {a : Byte} (h : 4 ≤ a.toNat) (s : State) :
    execCcstep a s = .next (s.respond .badSlot (a.setWidth 32) []) := withSlot_of_ge h s _

theorem execCcstop_badSlot {a : Byte} (h : 4 ≤ a.toNat) (s : State) :
    execCcstop a s = .next (s.respond .badSlot (a.setWidth 32) []) := withSlot_of_ge h s _

theorem execCctick_badSlot {a : Byte} (h : 4 ≤ a.toNat) (s : State) :
    execCctick a s = .next (s.respond .badSlot (a.setWidth 32) []) := withSlot_of_ge h s _

theorem execCcstat_badSlot {a : Byte} (h : 4 ≤ a.toNat) (q : BitVec 2) (s : State) :
    execCcstat a q s = .next (s.respond .badSlot (a.setWidth 32) []) := withSlot_of_ge h s _

end Sys2Proof.Machine
end

