-- ==== Sys2Proof/Laws/Words.lean ====
section
/-! SUPPORT. The packings of Operands.lean as sums of their fields. -/

namespace Sys2Proof.Machine

/-- Two fields that do not overlap: their or is their sum. -/
theorem shiftLeft_or_eq_add {a b i : Nat} (h : b < 2 ^ i) : a <<< i ||| b = a * 2 ^ i + b := by
  rw [← Nat.shiftLeft_add_eq_or_of_lt h, Nat.shiftLeft_eq]

theorem packRgb_eq (c : Rgb) :
    packRgb c = BitVec.ofNat 32 (c.r.toNat * 2 ^ 16 + c.g.toNat * 2 ^ 8 + c.b.toNat) := by
  have hr := c.r.isLt
  have hg := c.g.isLt
  have hb := c.b.isLt
  apply BitVec.eq_of_toNat_eq
  simp only [packRgb, BitVec.toNat_or, BitVec.toNat_shiftLeft, BitVec.toNat_setWidth, BitVec.toNat_ofNat]
  rw [Nat.lor_assoc, Nat.mod_eq_of_lt (a := c.b.toNat) (by omega), Nat.mod_eq_of_lt (a := c.g.toNat) (by omega),
    Nat.mod_eq_of_lt (a := c.r.toNat) (by omega), Nat.mod_eq_of_lt (a := c.g.toNat <<< 8) (by simp [Nat.shiftLeft_eq]; omega),
    shiftLeft_or_eq_add (by omega), Nat.mod_eq_of_lt (a := c.r.toNat <<< 16) (by simp [Nat.shiftLeft_eq]; omega),
    shiftLeft_or_eq_add (by omega)]
  omega

theorem packRgba_eq (c : Rgb) :
    packRgba c =
      BitVec.ofNat 32 (c.r.toNat * 2 ^ 24 + c.g.toNat * 2 ^ 16 + c.b.toNat * 2 ^ 8 + 255) := by
  have hr := c.r.isLt
  have hg := c.g.isLt
  have hb := c.b.isLt
  apply BitVec.eq_of_toNat_eq
  simp only [packRgba, BitVec.toNat_or, BitVec.toNat_shiftLeft, BitVec.toNat_setWidth, BitVec.toNat_ofNat]
  rw [Nat.lor_assoc, Nat.lor_assoc, Nat.mod_eq_of_lt (a := c.b.toNat) (by omega),
    Nat.mod_eq_of_lt (a := c.g.toNat) (by omega), Nat.mod_eq_of_lt (a := c.r.toNat) (by omega),
    Nat.mod_eq_of_lt (a := c.b.toNat <<< 8) (by simp [Nat.shiftLeft_eq]; omega),
    Nat.mod_eq_of_lt (a := 255) (by omega), shiftLeft_or_eq_add (by omega),
    Nat.mod_eq_of_lt (a := c.g.toNat <<< 16) (by simp [Nat.shiftLeft_eq]; omega),
    shiftLeft_or_eq_add (by omega), Nat.mod_eq_of_lt (a := c.r.toNat <<< 24) (by simp [Nat.shiftLeft_eq]; omega),
    shiftLeft_or_eq_add (by omega)]
  omega

theorem pairBytes_eq (hi lo : Byte) :
    pairBytes hi lo = BitVec.ofNat 16 (hi.toNat * 256 + lo.toNat) := by
  have h1 := hi.isLt
  have h2 := lo.isLt
  apply BitVec.eq_of_toNat_eq
  simp only [pairBytes, BitVec.toNat_or, BitVec.toNat_shiftLeft, BitVec.toNat_setWidth, BitVec.toNat_ofNat]
  rw [Nat.mod_eq_of_lt (a := lo.toNat) (by omega), Nat.mod_eq_of_lt (a := hi.toNat) (by omega),
    Nat.mod_eq_of_lt (a := hi.toNat <<< 8) (by simp [Nat.shiftLeft_eq]; omega), shiftLeft_or_eq_add (by omega)]
  omega

/-- Bit `b` of the word of two bytes: the first byte holds bits 15 to 8. -/
theorem getLsbD_pairBytes (hi lo : Byte) (b : Nat) :
    (pairBytes hi lo).getLsbD b = if b < 8 then lo.getLsbD b else hi.getLsbD (b - 8) := by
  unfold pairBytes
  simp only [BitVec.getLsbD_or, BitVec.getLsbD_shiftLeft, BitVec.getLsbD_setWidth]
  by_cases h : b < 8
  · simp [h]
    omega
  · have hlo : lo.getLsbD b = false := BitVec.getLsbD_of_ge lo b (by omega)
    by_cases h16 : b < 16
    · simp [h, h16, hlo]
      omega
    · have hhi : hi.getLsbD (b - 8) = false := BitVec.getLsbD_of_ge hi _ (by omega)
      simp [h, h16, hlo, hhi]

/-- A number that fits 32 bits two's complement is stored as it is. -/
theorem toInt_ofInt_32 {x : Int} (h1 : -2147483648 ≤ x) (h2 : x < 2147483648) :
    (BitVec.ofInt 32 x).toInt = x := by
  rw [BitVec.toInt_ofInt]
  simp only [Int.bmod]
  omega

theorem rangeLen_toInt (l r : Half) : (BitVec.ofInt 32 (rangeLen l r)).toInt = rangeLen l r := by
  have := l.isLt
  have := r.isLt
  exact toInt_ofInt_32 (by unfold rangeLen; omega) (by unfold rangeLen; omega)

theorem delayMs_toInt (raw : Half) : (BitVec.ofInt 32 (delayMs raw)).toInt = delayMs raw := by
  have := raw.isLt
  exact toInt_ofInt_32 (by unfold delayMs; omega) (by unfold delayMs; omega)

/-- A 16-bit field above 16 low bits. -/
theorem half_or_low (p : Half) {k : Nat} (hk : k < 65536) :
    ((p.setWidth 32 <<< 16) ||| BitVec.ofNat 32 k : Word).toNat = p.toNat * 65536 + k := by
  have hp := p.isLt
  simp only [BitVec.toNat_or, BitVec.toNat_shiftLeft, BitVec.toNat_setWidth, BitVec.toNat_ofNat]
  rw [Nat.mod_eq_of_lt (a := p.toNat) (by omega), Nat.mod_eq_of_lt (a := k) (by omega),
    Nat.mod_eq_of_lt (a := p.toNat <<< 16) (by simp [Nat.shiftLeft_eq]; omega), shiftLeft_or_eq_add hk]
  rfl
/-- CCSTAT's selector 0, as a number (42_color_cycle.md R180). -/
theorem packSlotState_toNat (sl : Slot) (f : SlotFields) :
    ((packSlotState sl f).toNat : Int) = f.pos.toNat * 65536 + (dirInt f.dir + 1) * 8 +
      sl.anim.toNat * 4 + sl.on.toNat * 2 + 1 := by
  have low : ∀ k : Nat, k < 65536 →
      (((f.pos.setWidth 32 <<< 16) ||| BitVec.ofNat 32 k : Word).toNat : Int) =
        f.pos.toNat * 65536 + k := fun k hk => by rw [half_or_low f.pos hk]; simp
  unfold packSlotState
  rw [BitVec.or_assoc, BitVec.or_assoc, BitVec.or_assoc]
  cases f.dir <;> cases sl.anim <;> cases sl.on
  · exact (low 1 (by omega)).trans (by simp [dirInt])
  · exact (low 3 (by omega)).trans (by simp [dirInt]; try omega)
  · exact (low 5 (by omega)).trans (by simp [dirInt]; try omega)
  · exact (low 7 (by omega)).trans (by simp [dirInt]; try omega)
  · exact (low 9 (by omega)).trans (by simp [dirInt]; try omega)
  · exact (low 11 (by omega)).trans (by simp [dirInt]; try omega)
  · exact (low 13 (by omega)).trans (by simp [dirInt]; try omega)
  · exact (low 15 (by omega)).trans (by simp [dirInt]; try omega)
  · exact (low 17 (by omega)).trans (by simp [dirInt]; try omega)
  · exact (low 19 (by omega)).trans (by simp [dirInt]; try omega)
  · exact (low 21 (by omega)).trans (by simp [dirInt]; try omega)
  · exact (low 23 (by omega)).trans (by simp [dirInt]; try omega)

/-- The direction codes 0, 1, 2 mean -1, 0, +1; no other code means a direction
(42_color_cycle.md R150). -/
theorem decodeDir_spec (raw : Half) : (2 < raw.toNat ∧ decodeDir raw = none) ∨
    (raw.toNat ≤ 2 ∧ ∃ d, decodeDir raw = some d ∧ dirInt d = (raw.toNat : Int) - 1) := by
  unfold decodeDir
  split
  · subst_vars; exact .inr ⟨by decide, _, rfl, by decide⟩
  · split
    · subst_vars; exact .inr ⟨by decide, _, rfl, by decide⟩
    · split
      · subst_vars; exact .inr ⟨by decide, _, rfl, by decide⟩
      · rename_i h0 h1 h2
        refine .inl ⟨?_, rfl⟩
        by_contra hc
        have : raw.toNat = 0 ∨ raw.toNat = 1 ∨ raw.toNat = 2 := by omega
        obtain h | h | h := this
        · exact h0 (BitVec.eq_of_toNat_eq h)
        · exact h1 (BitVec.eq_of_toNat_eq h)
        · exact h2 (BitVec.eq_of_toNat_eq h)

end Sys2Proof.Machine
end

