-- ==== Sys2Proof/Laws/Decode.lean ====
section
/-! SUPPORT. The fields of encoded words, and what fetching does. -/

namespace Sys2Proof

open Sys2Proof.Machine (shiftLeft_or_eq_add)

/-! Words as numbers. -/

theorem toNat_formatS (o : Op) (a : Byte) (imm : Half) :
    (formatS o a imm).toNat = (opCode o).toNat * 2 ^ 24 + a.toNat * 2 ^ 16 + imm.toNat := by
  have ha := a.isLt
  have hi := imm.isLt
  show (opCode o ++ a ++ imm : BitVec (8 + 8 + 16)).toNat = _
  rw [BitVec.toNat_append, shiftLeft_or_eq_add hi, BitVec.toNat_append, shiftLeft_or_eq_add ha]
  omega

theorem toNat_formatL (o : Op) (a : Addr) :
    (formatL o a).toNat = (opCode o).toNat * 2 ^ 24 + a.toNat := by
  show (opCode o ++ a : BitVec (8 + 24)).toNat = _
  rw [BitVec.toNat_append, shiftLeft_or_eq_add a.isLt]

theorem toNat_formatD (v : Half) : (formatD v).toNat = v.toNat := by
  show (0#16 ++ v : BitVec (16 + 16)).toNat = _
  rw [BitVec.toNat_append, shiftLeft_or_eq_add v.isLt]
  simp

theorem toNat_opField (cw : Word) : (opField cw).toNat = cw.toNat / 2 ^ 24 := by
  have := cw.isLt
  rw [opField, BitVec.extractLsb'_toNat, Nat.shiftRight_eq_div_pow]
  omega

theorem toNat_a8Field (cw : Word) : (a8Field cw).toNat = cw.toNat / 2 ^ 16 % 2 ^ 8 := by
  rw [a8Field, BitVec.extractLsb'_toNat, Nat.shiftRight_eq_div_pow]

theorem toNat_imm16Field (cw : Word) : (imm16Field cw).toNat = cw.toNat % 2 ^ 16 := by
  rw [imm16Field, BitVec.extractLsb'_toNat, Nat.shiftRight_zero]

theorem toNat_addr24Field (cw : Word) : (addr24Field cw).toNat = cw.toNat % 2 ^ 24 := by
  rw [addr24Field, BitVec.extractLsb'_toNat, Nat.shiftRight_zero]

/-! The fields of a word of each format. -/

@[simp] theorem opField_formatS (o : Op) (a : Byte) (imm : Half) :
    opField (formatS o a imm) = opCode o := by
  apply BitVec.eq_of_toNat_eq
  rw [toNat_opField, toNat_formatS]
  omega

@[simp] theorem a8Field_formatS (o : Op) (a : Byte) (imm : Half) :
    a8Field (formatS o a imm) = a := by
  apply BitVec.eq_of_toNat_eq
  rw [toNat_a8Field, toNat_formatS]
  omega

@[simp] theorem imm16Field_formatS (o : Op) (a : Byte) (imm : Half) :
    imm16Field (formatS o a imm) = imm := by
  apply BitVec.eq_of_toNat_eq
  rw [toNat_imm16Field, toNat_formatS]
  omega

@[simp] theorem opField_formatL (o : Op) (a : Addr) : opField (formatL o a) = opCode o := by
  apply BitVec.eq_of_toNat_eq
  rw [toNat_opField, toNat_formatL]
  omega

@[simp] theorem addr24Field_formatL (o : Op) (a : Addr) : addr24Field (formatL o a) = a := by
  apply BitVec.eq_of_toNat_eq
  rw [toNat_addr24Field, toNat_formatL]
  omega

@[simp] theorem imm16Field_formatD (v : Half) : imm16Field (formatD v) = v := by
  apply BitVec.eq_of_toNat_eq
  rw [toNat_imm16Field, toNat_formatD]
  omega

/-- A word is put together from its fields. -/
theorem formatS_of_fields {cw : Word} {o : Op} (h : opField cw = opCode o) :
    formatS o (a8Field cw) (imm16Field cw) = cw := by
  apply BitVec.eq_of_toNat_eq
  have := cw.isLt
  rw [toNat_formatS, ← h, toNat_opField, toNat_a8Field, toNat_imm16Field]
  omega

theorem formatL_of_fields {cw : Word} {o : Op} (h : opField cw = opCode o) :
    formatL o (addr24Field cw) = cw := by
  apply BitVec.eq_of_toNat_eq
  rw [toNat_formatL, ← h, toNat_opField, toNat_addr24Field]
  omega

/-! The opcode map. -/

theorem mem_allOps (o : Op) : o ∈ allOps := by cases o <;> decide

/-- No two rows share an opcode. -/
theorem opCode_injective {o o' : Op} (h : opCode o = opCode o') : o = o' := by
  cases o <;> cases o' <;> first | rfl | (exact absurd h (by decide))

@[simp] theorem findOp_opCode (o : Op) : findOp (opCode o) = some o := by cases o <;> decide

theorem findOp_eq_some {b : Byte} {o : Op} (h : findOp b = some o) : opCode o = b := by
  have := List.find?_some h
  simpa using this

theorem findOp_eq_none {b : Byte} : findOp b = none ↔ ∀ o, opCode o ≠ b := by
  unfold findOp
  rw [List.find?_eq_none]
  constructor
  · intro h o
    simpa using h o (mem_allOps o)
  · intro h o _
    simpa using h o

/-- A word of format S passes its row's mask when the row's fields pass their parts of it. -/
theorem formatS_mask {o : Op} {ma : Byte} {mi : Half} (a : Byte) (imm : Half)
    (hm : opMask o = (0xFF#8 ++ ma ++ mi : BitVec (8 + 8 + 16))) (ha : a &&& ma = 0#8)
    (hi : imm &&& mi = 0#16) : formatS o a imm &&& opMask o = opMatch o := by
  rw [hm]
  show (opCode o ++ a ++ imm : BitVec (8 + 8 + 16)) &&& (0xFF#8 ++ ma ++ mi) = _
  rw [BitVec.and_append, BitVec.and_append, ha, hi]
  show (opCode o &&& BitVec.allOnes 8) ++ 0#8 ++ 0#16 = _
  rw [BitVec.and_allOnes]
  cases o <;> rfl

theorem formatL_mask {o : Op} (a : Addr) (hm : opMask o = 0xFF000000#32) :
    formatL o a &&& opMask o = opMatch o := by
  rw [hm]
  show (opCode o ++ a : BitVec (8 + 24)) &&& (0xFF#8 ++ 0#24) = _
  rw [BitVec.and_append]
  show (opCode o &&& BitVec.allOnes 8) ++ (a &&& 0#24) = _
  rw [BitVec.and_allOnes, BitVec.and_zero]
  rfl

/-- The parts of a word that passes its row's mask: the masked bits of its fields are 0. -/
theorem fields_of_mask {o : Op} {ma : Byte} {mi : Half} {cw : Word} (ho : opField cw = opCode o)
    (hm : opMask o = (0xFF#8 ++ ma ++ mi : BitVec (8 + 8 + 16))) (h : cw &&& opMask o = opMatch o) :
    a8Field cw &&& ma = 0#8 ∧ imm16Field cw &&& mi = 0#16 := by
  rw [← formatS_of_fields ho, hm] at h
  have h2 : (opCode o ++ a8Field cw ++ imm16Field cw : BitVec (8 + 8 + 16)) &&&
      (0xFF#8 ++ ma ++ mi) = opCode o ++ 0#8 ++ 0#16 := by
    refine Eq.trans h ?_; cases o <;> rfl
  rw [BitVec.and_append, BitVec.and_append] at h2
  have h3 : ∀ (n m : Nat) (x x' : BitVec n) (y y' : BitVec m),
      x ++ y = x' ++ y' → x = x' ∧ y = y' := by
    intro n m x x' y y' h
    have h4 := congrArg BitVec.toNat h
    rw [BitVec.toNat_append, BitVec.toNat_append, shiftLeft_or_eq_add y.isLt,
      shiftLeft_or_eq_add y'.isLt] at h4
    have e1 : y.toNat = y'.toNat := by
      have := congrArg (· % 2 ^ m) h4
      simpa [Nat.mod_eq_of_lt y.isLt, Nat.mod_eq_of_lt y'.isLt] using this
    have e2 : x.toNat = x'.toNat := by
      rw [e1] at h4
      exact Nat.eq_of_mul_eq_mul_right (by positivity) (by omega : x.toNat * 2^m = x'.toNat * 2^m)
    exact ⟨BitVec.eq_of_toNat_eq e2, BitVec.eq_of_toNat_eq e1⟩
  obtain ⟨h5, h6⟩ := h3 _ _ _ _ _ _ h2
  obtain ⟨_, h7⟩ := h3 _ _ _ _ _ _ h5
  exact ⟨h7, h6⟩


theorem imm16Field_eq_zero {o : Op} {ma : Byte} {cw : Word} (ho : opField cw = opCode o)
    (hm : opMask o = (0xFF#8 ++ ma ++ 0xFFFF#16 : BitVec (8 + 8 + 16)))
    (h : cw &&& opMask o = opMatch o) : imm16Field cw = 0#16 := by
  obtain ⟨_, h1⟩ := fields_of_mask ho hm h
  rw [← h1]
  exact (BitVec.and_allOnes).symm

theorem a8Field_eq_zero {o : Op} {mi : Half} {cw : Word} (ho : opField cw = opCode o)
    (hm : opMask o = (0xFF#8 ++ 0xFF#8 ++ mi : BitVec (8 + 8 + 16)))
    (h : cw &&& opMask o = opMatch o) : a8Field cw = 0#8 := by
  obtain ⟨h1, _⟩ := fields_of_mask ho hm h
  rw [← h1]
  exact (BitVec.and_allOnes).symm

/-- The number of data words, by row (30_encoding.md R73). -/
theorem dataCount_of_findOp {cw : Word} {o : Op} (h : findOp (opField cw) = some o) :
    dataCount cw = rowDataCount o cw := by
  simp only [dataCount, h]

theorem findOp_formatS (o : Op) (a : Byte) (imm : Half) :
    findOp (opField (formatS o a imm)) = some o := by rw [opField_formatS, findOp_opCode]

theorem findOp_formatL (o : Op) (a : Addr) : findOp (opField (formatL o a)) = some o := by
  rw [opField_formatL, findOp_opCode]

/-! Data words and fetching. -/

@[simp] theorem firstBadData_formatD (j : Nat) (vs : List Half) :
    firstBadData j (vs.map formatD) = none := by
  induction vs generalizing j with
  | nil => rfl
  | cons v vs ih =>
    have h : (formatD v).extractLsb' 16 16 = 0#16 := by
      apply BitVec.eq_of_toNat_eq
      have := v.isLt
      rw [BitVec.extractLsb'_toNat, toNat_formatD, Nat.shiftRight_eq_div_pow]
      simp
      omega
    simp [firstBadData, h, ih]

@[simp] theorem map_imm16Field_formatD (vs : List Half) :
    (vs.map formatD).map imm16Field = vs := by
  simp [List.map_map, Function.comp_def]

/-- Data words without must-be-zero bits are the encodings of their values. -/
theorem map_formatD_imm16Field {j : Nat} {ds : List Word} (h : firstBadData j ds = none) :
    (ds.map imm16Field).map formatD = ds := by
  induction ds generalizing j with
  | nil => rfl
  | cons d ds ih =>
    unfold firstBadData at h
    split at h
    · rename_i h0
      have hd : formatD (imm16Field d) = d := by
        apply BitVec.eq_of_toNat_eq
        have h1 := congrArg BitVec.toNat h0
        rw [BitVec.extractLsb'_toNat, Nat.shiftRight_eq_div_pow] at h1
        have := d.isLt
        simp at h1
        rw [toNat_formatD, toNat_imm16Field]
        omega
      simp only [List.map_cons, hd, ih h]
    · simp at h

/-- Data words that have all arrived are taken off CMD. -/
@[simp] theorem gather_words (ds : List Word) (rest : List Input) :
    gather ds.length (ds.map Input.word ++ rest) = .words ds rest := by
  induction ds with
  | nil => rfl
  | cons d ds ih => simp [gather, ih]

/-- A whole transaction is taken off CMD. -/
theorem fetch_words (cw : Word) (ds : List Word) (rest : List Input) (h : ds.length = dataCount cw) :
    fetch ((cw :: ds).map Input.word ++ rest) = .command cw ds rest := by
  simp [fetch, ← h]

end Sys2Proof
end

