-- ==== Sys2Proof/Laws/Ends.lean ====
section
/-! SUPPORT. Every next state of every command, said once. -/

namespace Sys2Proof.Machine

/-- `Ends s i t`: command i, performed in s, completes in t. -/
inductive Ends (s : State) : Instr → State → Prop where
  | turnedAway (i : Instr) (e : Status) (d : Word) (h : e ≠ .ok) :
    Ends s i (s.respond e d [])
  | read (i : Instr) (d : Word) (vs : List Word) (h : i.onlyReads = true)
    (hv : vs ≠ [] → i = .unpack ∨ i = .render) : Ends s i (s.respond .ok d vs)
  | mode (id : Half) (h : s.anyOn = false) :
    Ends s (.mode id) ({ s.clearPalette with mode := modeOfId id }.respond .ok 0#32 [])
  | palrep (vs : List Half) (h : vs.length = s.desc.rc) :
    Ends s (.palrep vs) ((s.setPals 0 vs).respond .ok 0#32 [])
  | palset (i : Byte) (v : Half) (h : i.toNat < s.desc.rc) :
    Ends s (.palset i v) ((s.setPal i.toNat v).respond .ok 0#32 [])
  | pwwr (a : Addr) (v : Half) (h : a.toNat < 16000) :
    Ends s (.pwwr a v) ((s.writePw a.toNat (some v)).respond .ok 0#32 [])
  | stagew (b v : Byte) (h : b.toNat < 160) :
    Ends s (.stagew b v) ((s.writeStg b.toNat (some v)).respond .ok 0#32 [])
  | reilv (y : Half) (h : y.toNat < 200) :
    Ends s (.reilv y)
      ({ s with pw := reinterleave s.desc s.stg (y.toNat * 80) s.pw }.respond .ok 0#32 [])
  | ccload (d : Quad Desc) (q : Quad Dir) (h : s.anyOn = false)
    (hq : ∀ k, decodeDir (Quad.get d k).dirRaw = some (Quad.get q k)) :
    Ends s (.ccload d)
      ({ s with slots := ⟨Slot.load d.s0 q.s0, Slot.load d.s1 q.s1, Slot.load d.s2 q.s2,
                          Slot.load d.s3 q.s3⟩ }.respond .ok 0#32 [])
  | ccunld (h : s.anyOn = false) :
    Ends s .ccunld ({ s with slots := Quad.map Slot.unload s.slots }.respond .ok 0#32 [])
  | ccstart (a : Byte) (h : a.toNat < 4) (f : SlotFields)
    (hl : (s.slot ⟨a.toNat, h⟩).loaded = true) (hf : (s.slot ⟨a.toNat, h⟩).fields = some f)
    (hd : f.dir ≠ .still) (hr : 1 ≤ rangeLen f.left f.right → f.right.toNat < s.desc.rc) :
    Ends s (.ccstart a) ((s.takeSnapshot.setSlot ⟨a.toNat, h⟩
      ((s.slot ⟨a.toNat, h⟩).arm f)).respond .ok 0#32 [])
  | ccanim (a : Byte) (h : a.toNat < 4) (f : SlotFields)
    (ho : (s.slot ⟨a.toNat, h⟩).on = true) (hf : (s.slot ⟨a.toNat, h⟩).fields = some f) :
    Ends s (.ccanim a) ((((s.cancelled ⟨a.toNat, h⟩).sched ⟨a.toNat, h⟩ f.delay).setSlot
      ⟨a.toNat, h⟩ ((s.slot ⟨a.toNat, h⟩).animate (Config.hostHandle s.schedCount))).respond
        .ok 0#32 [])
  | ccstep (a : Byte) (h : a.toNat < 4) (f : SlotFields)
    (ho : (s.slot ⟨a.toNat, h⟩).on = true) (hf : (s.slot ⟨a.toNat, h⟩).fields = some f) :
    Ends s (.ccstep a) ((s.cycleStep ⟨a.toNat, h⟩ f).respond .ok 0#32 [])
  | cctick (a : Byte) (h : a.toNat < 4) (f : SlotFields)
    (ha : (s.slot ⟨a.toNat, h⟩).anim = true) (hf : (s.slot ⟨a.toNat, h⟩).fields = some f) :
    Ends s (.cctick a) ((s.cycleStep ⟨a.toNat, h⟩ f).respond .ok 0#32 [])
  | ccstop (a : Byte) (h : a.toNat < 4) (ho : (s.slot ⟨a.toNat, h⟩).on = true) :
    Ends s (.ccstop a) (((s.cancelled ⟨a.toNat, h⟩).restorePalette.setSlot ⟨a.toNat, h⟩
      (s.slot ⟨a.toNat, h⟩).disarm).respond .ok 0#32 [])

/-- The outcome of command i in s: it completes, it reads out a `⊥`, or it reads the `⊥` fields of a
loaded, on or animating slot. -/
def EndsIn (i : Instr) (s : State) (r : Result) : Prop :=
  (∃ t, r = .next t ∧ Ends s i t) ∨
  (i.readsCells = true ∧ r = .fault .unspecifiedResponse) ∨
  (r = .fault .unspecifiedSlotField ∧ ∃ k, (s.slot k).fields = none ∧
    ((s.slot k).loaded = true ∨ (s.slot k).on = true ∨ (s.slot k).anim = true))

theorem endsIn_next {i : Instr} {s t : State} {r : Result} (h : r = .next t) (he : Ends s i t) :
    EndsIn i s r := .inl ⟨t, h, he⟩

/-- A slot command with an operand that names no slot. -/
theorem endsIn_badSlot {i : Instr} {s : State} {a : Byte} {r : Result}
    (h : r = .next (s.respond .badSlot (a.setWidth 32) [])) : EndsIn i s r :=
  endsIn_next h (.turnedAway _ _ _ (by decide))

/-- The three ends of a command that reads one cell. -/
theorem endsIn_readCell {i : Instr} {s : State} {r : Result} {P Q : Prop} {c : Cell Word} {d : Word}
    (hi : i.onlyReads = true) (hc : i.readsCells = true)
    (h : (P ∧ ∃ v, c = some v ∧ r = .next (s.respond .ok v [])) ∨
      (P ∧ c = none ∧ r = .fault .unspecifiedResponse) ∨
      (Q ∧ r = .next (s.respond .indexOutOfRange d []))) : EndsIn i s r := by
  obtain ⟨-, v, -, hr⟩ | ⟨-, -, hr⟩ | ⟨-, hr⟩ := h
  · exact endsIn_next hr (.read _ _ _ hi (by simp))
  · exact .inr (.inl ⟨hc, hr⟩)
  · exact endsIn_next hr (.turnedAway _ _ _ (by decide))

/-- What every command can do. -/
theorem exec_endsIn (i : Instr) (s : State) : EndsIn i s (exec i s) := by
  cases i with
  | mode id =>
    obtain ⟨hb, h⟩ | ⟨-, h⟩ := execMode_cases id s
    · exact endsIn_next h (.mode id hb)
    · exact endsIn_next h (.turnedAway _ _ _ (by decide))
  | modeq => exact endsIn_next (execModeq_eq s) (.read _ _ _ rfl (by simp))
  | palrep vs =>
    obtain ⟨hl, h⟩ | ⟨-, h⟩ := execPalrep_cases vs s
    · exact endsIn_next h (.palrep vs hl)
    · exact endsIn_next h (.turnedAway _ _ _ (by decide))
  | palset i v =>
    obtain ⟨hl, h⟩ | ⟨-, h⟩ := execPalset_cases i v s
    · exact endsIn_next h (.palset i v hl)
    · exact endsIn_next h (.turnedAway _ _ _ (by decide))
  | palrgb i => exact endsIn_readCell rfl rfl (execPalrgb_cases i s)
  | palraw i => exact endsIn_readCell rfl rfl (execPalraw_cases i s)
  | pwwr a v =>
    obtain ⟨hl, h⟩ | ⟨-, h⟩ := execPwwr_cases a v s
    · exact endsIn_next h (.pwwr a v hl)
    · exact endsIn_next h (.turnedAway _ _ _ (by decide))
  | pwrd a => exact endsIn_readCell rfl rfl (execPwrd_cases a s)
  | stagew b v =>
    obtain ⟨hl, h⟩ | ⟨-, h⟩ := execStagew_cases b v s
    · exact endsIn_next h (.stagew b v hl)
    · exact endsIn_next h (.turnedAway _ _ _ (by decide))
  | reilv y =>
    obtain ⟨hl, h⟩ | ⟨-, h⟩ := execReilv_cases y s
    · exact endsIn_next h (.reilv y hl)
    · exact endsIn_next h (.turnedAway _ _ _ (by decide))
  | pix n => exact endsIn_readCell rfl rfl (execPix_cases n s)
  | rgba n => exact endsIn_readCell rfl rfl (execRgba_cases n s)
  | unpack =>
    obtain ⟨vs, -, h⟩ | ⟨-, h⟩ := execUnpack_cases s
    · exact endsIn_next h (.read _ _ _ rfl (by simp))
    · exact .inr (.inl ⟨rfl, h⟩)
  | render =>
    obtain ⟨vs, -, h⟩ | ⟨-, h⟩ := execRender_cases s
    · exact endsIn_next h (.read _ _ _ rfl (by simp))
    · exact .inr (.inl ⟨rfl, h⟩)
  | ccload d =>
    obtain ⟨hb, q, hq, h⟩ | ⟨-, k, -, -, h⟩ | ⟨-, h⟩ := execCcload_cases d s
    · exact endsIn_next h (.ccload d q hb hq)
    · exact endsIn_next h (.turnedAway _ _ _ (by decide))
    · exact endsIn_next h (.turnedAway _ _ _ (by decide))
  | ccunld =>
    obtain ⟨hb, h⟩ | ⟨-, h⟩ := execCcunld_cases s
    · exact endsIn_next h (.ccunld hb)
    · exact endsIn_next h (.turnedAway _ _ _ (by decide))
  | ccstart a =>
    obtain ha | ha := Nat.lt_or_ge a.toNat 4
    · obtain ⟨-, h⟩ | ⟨hl, hf, h⟩ | ⟨f, hl, hf, ⟨-, h⟩ | ⟨-, -, -, h⟩ | ⟨hd, hr, h⟩⟩ :=
        execCcstart_cases ha s
      · exact endsIn_next h (.turnedAway _ _ _ (by decide))
      · exact .inr (.inr ⟨h, _, hf, .inl hl⟩)
      · exact endsIn_next h (.turnedAway _ _ _ (by decide))
      · exact endsIn_next h (.turnedAway _ _ _ (by decide))
      · exact endsIn_next h (.ccstart a ha f hl hf hd hr)
    · exact endsIn_badSlot (execCcstart_badSlot ha s)
  | ccanim a =>
    obtain ha | ha := Nat.lt_or_ge a.toNat 4
    · obtain ⟨-, h⟩ | ⟨ho, hf, h⟩ | ⟨f, ho, hf, h⟩ := execCcanim_cases ha s
      · exact endsIn_next h (.turnedAway _ _ _ (by decide))
      · exact .inr (.inr ⟨h, _, hf, .inr (.inl ho)⟩)
      · exact endsIn_next h (.ccanim a ha f ho hf)
    · exact endsIn_badSlot (execCcanim_badSlot ha s)
  | ccstep a =>
    obtain ha | ha := Nat.lt_or_ge a.toNat 4
    · obtain ⟨-, h⟩ | ⟨ho, hf, h⟩ | ⟨f, ho, hf, h⟩ := execCcstep_cases ha s
      · exact endsIn_next h (.turnedAway _ _ _ (by decide))
      · exact .inr (.inr ⟨h, _, hf, .inr (.inl ho)⟩)
      · exact endsIn_next h (.ccstep a ha f ho hf)
    · exact endsIn_badSlot (execCcstep_badSlot ha s)
  | ccstop a =>
    obtain ha | ha := Nat.lt_or_ge a.toNat 4
    · obtain ⟨-, h⟩ | ⟨ho, h⟩ := execCcstop_cases ha s
      · exact endsIn_next h (.turnedAway _ _ _ (by decide))
      · exact endsIn_next h (.ccstop a ha ho)
    · exact endsIn_badSlot (execCcstop_badSlot ha s)
  | cctick a =>
    obtain ha | ha := Nat.lt_or_ge a.toNat 4
    · obtain ⟨-, h⟩ | ⟨ho, hf, h⟩ | ⟨f, ho, hf, h⟩ := execCctick_cases ha s
      · exact endsIn_next h (.turnedAway _ _ _ (by decide))
      · exact .inr (.inr ⟨h, _, hf, .inr (.inr ho)⟩)
      · exact endsIn_next h (.cctick a ha f ho hf)
    · exact endsIn_badSlot (execCctick_badSlot ha s)
  | ccstat a q =>
    obtain ha | ha := Nat.lt_or_ge a.toNat 4
    · obtain ⟨-, h⟩ | ⟨hl, hf, h⟩ | ⟨f, hl, hf, h⟩ := execCcstat_cases ha q s
      · exact endsIn_next h (.read _ _ _ rfl (by simp))
      · exact .inr (.inr ⟨h, _, hf, .inl hl⟩)
      · exact endsIn_next h (.read _ _ _ rfl (by simp))
    · exact endsIn_badSlot (execCcstat_badSlot ha q s)

/-- Every next state of every command. -/
theorem exec_next {i : Instr} {s t : State} (h : exec i s = .next t) : Ends s i t := by
  obtain ⟨u, hu, he⟩ | ⟨-, hu⟩ | ⟨hu, -⟩ := exec_endsIn i s
  · rw [h] at hu
    injection hu with hu
    exact hu ▸ he
  · rw [h] at hu; nomatch hu
  · rw [h] at hu; nomatch hu

end Sys2Proof.Machine
end

