-- ==== Sys2Proof/Laws/PerInstr.lean ====
section
/-! SUPPORT. One lemma per command: the shape of its encoding. -/

namespace Sys2Proof.Laws.EncodeShape

/-- A well-formed command's encoding is one command word with the command's opcode and exactly the
data words that word announces (30_encoding.md R70, R73). -/
def Statement (i : Instr) : Prop :=
  i.WellFormed → ∃ cw ds, encode i = cw :: ds ∧ (findOp (opField cw)).isSome = true ∧
    ds.length = dataCount cw

theorem ofS {i : Instr} {o : Op} {a : Byte} {imm : Half} {ds : List Word}
    (he : encode i = formatS o a imm :: ds)
    (hn : i.WellFormed → ds.length = rowDataCount o (formatS o a imm)) : Statement i := fun h =>
  ⟨_, _, he, by rw [findOp_formatS]; rfl, by rw [dataCount_of_findOp (findOp_formatS o a imm)]; exact hn h⟩

theorem ofL {i : Instr} {o : Op} {a : Addr} {ds : List Word} (he : encode i = formatL o a :: ds)
    (hn : ds.length = rowDataCount o (formatL o a)) : Statement i := fun _ =>
  ⟨_, _, he, by rw [findOp_formatL]; rfl, by rw [dataCount_of_findOp (findOp_formatL o a)]; exact hn⟩

theorem mode (id : Half) : Statement (.mode id) := ofS rfl fun _ => rfl

theorem modeq : Statement (.modeq) := ofS rfl fun _ => rfl

theorem palrep (vs : List Half) : Statement (.palrep vs) :=
  ofS rfl fun h => by
    have hlen : vs.length < 256 := of_decide_eq_true h
    show (vs.map formatD).length = (a8Field (formatS .palrep (BitVec.ofNat 8 vs.length) 0#16)).toNat
    rw [List.length_map, a8Field_formatS, BitVec.toNat_ofNat]
    omega

theorem palset (i : Byte) (v : Half) : Statement (.palset i v) := ofS rfl fun _ => rfl

theorem palrgb (i : Byte) : Statement (.palrgb i) := ofS rfl fun _ => rfl

theorem palraw (i : Byte) : Statement (.palraw i) := ofS rfl fun _ => rfl

theorem pwwr (a : Addr) (v : Half) : Statement (.pwwr a v) := ofL rfl rfl

theorem pwrd (a : Addr) : Statement (.pwrd a) := ofL rfl rfl

theorem stagew (b : Byte) (v : Byte) : Statement (.stagew b v) := ofS rfl fun _ => rfl

theorem reilv (y : Half) : Statement (.reilv y) := ofS rfl fun _ => rfl

theorem pix (n : Addr) : Statement (.pix n) := ofL rfl rfl

theorem rgba (n : Addr) : Statement (.rgba n) := ofL rfl rfl

theorem unpack : Statement (.unpack) := ofS rfl fun _ => rfl

theorem render : Statement (.render) := ofS rfl fun _ => rfl

theorem ccload (d : Quad Desc) : Statement (.ccload d) := ofS rfl fun _ => rfl

theorem ccunld : Statement (.ccunld) := ofS rfl fun _ => rfl

theorem ccstart (a : Byte) : Statement (.ccstart a) := ofS rfl fun _ => rfl

theorem ccanim (a : Byte) : Statement (.ccanim a) := ofS rfl fun _ => rfl

theorem ccstep (a : Byte) : Statement (.ccstep a) := ofS rfl fun _ => rfl

theorem ccstop (a : Byte) : Statement (.ccstop a) := ofS rfl fun _ => rfl

theorem cctick (a : Byte) : Statement (.cctick a) := ofS rfl fun _ => rfl

theorem ccstat (a : Byte) (q : BitVec 2) : Statement (.ccstat a q) := ofS rfl fun _ => rfl

end Sys2Proof.Laws.EncodeShape
end

