-- ==== Sys2Proof/Machine/HostContract.lean ====
section
/-! DEFINITION. The host's scheduler and the sequences of commands and ticks that its contract allows
(42_color_cycle.md R163, R164, 60_exceptions.md R212, R214, 70_reset_and_hazards.md R231). It is host
state (10_state.md R45): no command's meaning depends on it, and `step` takes any input (log 6). -/

namespace Sys2Proof.Machine

/-- A schedule the host runs after a SCHED (10_state.md R45). -/
structure Schedule where
  handle : Handle
  slot : Fin 4
  /-- The interval of the request, in milliseconds. -/
  ms : Word
  /-- How many ticks of it the host has delivered. -/
  ticks : Nat
deriving DecidableEq, Repr

/-- The host may deliver one more tick of a schedule: always for a positive interval, by the
parameter `SchedPolicy` for an interval of 0 or less (42_color_cycle.md R163). -/
def Schedule.mayTick (c : Schedule) : Bool :=
  if 0 < c.ms.toInt then true else Config.schedPolicy c.ms c.ticks

/-- What one thing BPCC sends does to the outstanding schedules: SCHED adds one, CANCEL(h) ends the
schedule h, REDRAW and responses leave them (42_color_cycle.md R163, R164). -/
def hostSees (cs : List Schedule) : Output → List Schedule
  | .sched k ms h => cs ++ [{ handle := h, slot := k, ms := ms, ticks := 0 }]
  | .cancel (some h) => cs.filter (fun c => c.handle ≠ h)
  | .cancel none => cs
  | .redraw => cs
  | .response _ => cs

/-- The outstanding schedules after everything a command has sent. -/
def hostSeesAll (cs : List Schedule) (os : List Output) : List Schedule := os.foldl hostSees cs

/-- What the host does on CMD and RESET. -/
inductive HostAct where
  /-- A command of the host's own. -/
  | command (i : Instr)
  /-- A tick of the outstanding schedule at place n. -/
  | tick (n : Nat)
  | reset
deriving DecidableEq, Repr

/-- The contract: a command comes with its data words, so it is one that some words stand for
(`Instr.wellFormed`); CCTICK comes only as a tick of an outstanding schedule that may tick
(60_exceptions.md R212, R214). -/
def hostMay (cs : List Schedule) : HostAct → Bool
  | .command (.cctick _) => false
  | .command i => i.wellFormed
  | .tick n =>
    match cs[n]? with
    | some c => c.mayTick
    | none => false
  | .reset => true

/-- What the act puts on CMD or RESET; a tick of slot s is `CCTICK s` (42_color_cycle.md R170). -/
def hostSends (cs : List Schedule) : HostAct → List Input
  | .command i => (encode i).map .word
  | .tick n =>
    match cs[n]? with
    | some c => (encode (.cctick (BitVec.ofNat 8 c.slot.val))).map .word
    | none => []
  | .reset => [.reset]

/-- The outstanding schedules once the act is on its way, before BPCC has answered: a tick is counted,
RESET discards every schedule (70_reset_and_hazards.md R231). -/
def hostActs (cs : List Schedule) : HostAct → List Schedule
  | .command _ => cs
  | .tick n => cs.modify n (fun c => { c with ticks := c.ticks + 1 })
  | .reset => []

/-- The host and BPCC together: one act at a time, each once BPCC has taken everything sent before
and answered it (60_exceptions.md R210, R214); `none` where an act breaks the contract or BPCC
stops. -/
def hostRun : List HostAct → List Schedule → State → Option (List Schedule × State)
  | [], cs, s => some (cs, s)
  | a :: as, cs, s =>
    if s.input.isEmpty && hostMay cs a then
      match step { s with input := hostSends cs a } with
      | .next t => hostRun as (hostSeesAll (hostActs cs a) (t.out.drop s.out.length)) t
      | .fault _ => none
      | .refused _ => none
    else none

end Sys2Proof.Machine
end

