-- ==== Sys2Proof/Laws/Runs.lean ====
section
/-! SUPPORT. Runs of several commands, the boot sequence and the host's contract. -/

namespace Sys2Proof.Machine

@[simp] theorem runAll_nil (s : State) : runAll [] s = .next s := rfl

theorem runAll_cons_next {i : Instr} {s t : State} (h : exec i s = .next t) (is : List Instr) :
    runAll (i :: is) s = runAll is t := by simp only [runAll, h]

/-- A run of two lists of commands runs the second from where the first ends. -/
theorem runAll_append_next {is : List Instr} {s t : State} (h : runAll is s = .next t)
    (js : List Instr) : runAll (is ++ js) s = runAll js t := by
  induction is generalizing s with
  | nil => injection h with h; subst h; rfl
  | cons i is ih =>
    rw [List.cons_append]
    cases he : exec i s with
    | next u =>
      rw [runAll_cons_next he] at h ⊢
      exact ih h
    | fault r => simp only [runAll, he] at h; nomatch h
    | refused r => simp only [runAll, he] at h; nomatch h

/-- The fill follows bit 15 of the header (30_encoding.md R88). -/
theorem bootImage_cases (rle : List Byte → List (List Byte)) (f : ImageFile) :
    (headerCompressed f.header = true ∧
      bootImage rle f = bootStaged f.header f.palette (rle f.pixels) f.trailer) ∨
    (headerCompressed f.header = false ∧
      bootImage rle f = bootRaw f.header f.palette (fileWords f.pixels) f.trailer) := by
  cases h : headerCompressed f.header <;> simp [bootImage, h]

/-- A command that the contract allows is sent with its data words: some words stand for it, and it
is no CCTICK of the host's own (60_exceptions.md R214). -/
theorem hostMay_command {cs : List Schedule} {i : Instr} (h : hostMay cs (.command i) = true) :
    i.wellFormed = true ∧ ∀ a, i ≠ .cctick a := by
  cases i <;> simp_all [hostMay]

/-- An act of a run is one the contract allows, sent once everything before it is taken. -/
theorem hostRun_cons {a : HostAct} {as : List HostAct} {cs : List Schedule} {s : State}
    {r : List Schedule × State} (h : hostRun (a :: as) cs s = some r) :
    s.input = [] ∧ hostMay cs a = true ∧
      ∃ t, step { s with input := hostSends cs a } = .next t ∧
        hostRun as (hostSeesAll (hostActs cs a) (t.out.drop s.out.length)) t = some r := by
  unfold hostRun at h
  split at h
  · have hc : s.input = [] ∧ hostMay cs a = true := by
      simpa [List.isEmpty_iff] using ‹(s.input.isEmpty && hostMay cs a) = true›
    refine ⟨hc.1, hc.2, ?_⟩
    split at h
    · exact ⟨_, ‹_›, h⟩
    · nomatch h
    · nomatch h
  · nomatch h

/-- A tick that the contract allows is a tick of an outstanding schedule, `CCTICK` of its slot
(42_color_cycle.md R163, R170). -/
theorem hostMay_tick {cs : List Schedule} {n : Nat} (h : hostMay cs (.tick n) = true) :
    ∃ c, cs[n]? = some c ∧ c.mayTick = true ∧
      hostSends cs (.tick n) = (encode (.cctick (BitVec.ofNat 8 c.slot.val))).map .word := by
  cases hc : cs[n]? with
  | none => simp [hostMay, hc] at h
  | some c => exact ⟨c, rfl, by simpa [hostMay, hc] using h, by simp [hostSends, hc]⟩

/-- After CANCEL(h) no schedule h is outstanding (42_color_cycle.md R164). -/
theorem hostSees_cancel {cs : List Schedule} {h : Handle} {c : Schedule}
    (hc : c ∈ hostSees cs (.cancel (some h))) : c ∈ cs ∧ c.handle ≠ h := by
  simpa [hostSees] using hc

end Sys2Proof.Machine
end

