-- ==== Sys2Proof/Tests/Slice0.lean ====
section
/-! SUPPORT. The model's own tests: ill-formed terms, decoded words, one step of each command, and for
every statement with hypotheses a state and operands that meet them. Expected values are those of
spec/95_test_vectors.md, or worked from the rule cited. -/

namespace Sys2Proof.Tests

open Sys2Proof.Machine

/-! The check of WellFormed. -/

/-- 256 values do not fit PALREP's `a8` (92_eei_decisions.md D32). -/
theorem test_palrep_256_ill_formed : (Instr.palrep (List.replicate 256 0#16)).wellFormed = false := by
  decide +kernel
theorem test_palrep_255_well_formed : (Instr.palrep (List.replicate 255 0#16)).wellFormed = true := by
  decide +kernel

/-! Words written out from 30_encoding.md R71, R72, R75, one for every row. -/

theorem test_decode_mode : decode 0x01000007#32 [] = .instr (.mode 7#16) := by decide
theorem test_decode_modeq : decode 0x02000000#32 [] = .instr .modeq := by decide
theorem test_decode_palrep :
    decode 0x10020000#32 [0x00000000#32, 0x00000FFF#32] = .instr (.palrep [0#16, 0xFFF#16]) := by decide
theorem test_decode_palset : decode 0x11100777#32 [] = .instr (.palset 16#8 0x777#16) := by decide
theorem test_decode_palrgb : decode 0x12040000#32 [] = .instr (.palrgb 4#8) := by decide
theorem test_decode_palraw : decode 0x13030000#32 [] = .instr (.palraw 3#8) := by decide
theorem test_decode_pwwr :
    decode 0x20003E80#32 [0x00001234#32] = .instr (.pwwr 16000#24 0x1234#16) := by decide
theorem test_decode_pwrd : decode 0x21FFFFFF#32 [] = .instr (.pwrd 0xFFFFFF#24) := by decide
theorem test_decode_stagew : decode 0x222800C0#32 [] = .instr (.stagew 40#8 0xC0#8) := by decide
theorem test_decode_reilv : decode 0x230000C7#32 [] = .instr (.reilv 199#16) := by decide
theorem test_decode_pix : decode 0x3003E7FF#32 [] = .instr (.pix 255999#24) := by decide
theorem test_decode_rgba : decode 0x31000009#32 [] = .instr (.rgba 9#24) := by decide
theorem test_decode_unpack : decode 0x32000000#32 [] = .instr .unpack := by decide
theorem test_decode_render : decode 0x33000000#32 [] = .instr .render := by decide
/-- P2, step 2. -/
theorem test_decode_ccload :
    decode 0x40000000#32
        ([2#32, 8#32, 0#32, 0#32, 5#32, 9#32, 0#32, 15#32] ++
         [2#32, 0#32, 1#32, 2#32, 0x7A#32, 0x62#32, 0x80#32, 0#32]) =
      .instr (.ccload ⟨⟨2#16, 5#16, 2#16, 122#16⟩, ⟨8#16, 9#16, 0#16, 98#16⟩,
                       ⟨0#16, 0#16, 1#16, 128#16⟩, ⟨0#16, 15#16, 2#16, 0#16⟩⟩) := by decide
theorem test_decode_ccunld : decode 0x41000000#32 [] = .instr .ccunld := by decide
theorem test_decode_ccstart : decode 0x42020000#32 [] = .instr (.ccstart 2#8) := by decide
theorem test_decode_ccanim : decode 0x43000000#32 [] = .instr (.ccanim 0#8) := by decide
theorem test_decode_ccstep : decode 0x44030000#32 [] = .instr (.ccstep 3#8) := by decide
theorem test_decode_ccstop : decode 0x45010000#32 [] = .instr (.ccstop 1#8) := by decide
theorem test_decode_cctick : decode 0x46000000#32 [] = .instr (.cctick 0#8) := by decide
theorem test_decode_ccstat : decode 0x47030002#32 [] = .instr (.ccstat 3#8 2#2) := by decide
/-- P5, rows 2 and 15; 2.3, `CCSTAT 0, #4`; 2.2, `REILV` with a8 ≠ 0. -/
theorem test_decode_rejects :
    decode 0x05123456#32 [] = .reject (.badOpcode 0x05#8) ∧
    decode 0x22000111#32 [] = .reject (.reservedField 0) ∧
    decode 0x47000004#32 [] = .reject (.reservedField 0) ∧
    decode 0x23010000#32 [] = .reject (.reservedField 0) ∧
    decode 0x20000000#32 [0x00010000#32] = .reject (.reservedField 1) := by decide

/-! Small states. -/

/-- The palette of P2: entry k holds the raw value k. -/
def pal : Memory Rgb := (List.range 16).map fun k => (k, derive (BitVec.ofNat 16 k))

/-- A slot (left, right, dir, delay) with its length. -/
def slotOf (l r : Nat) (d : Dir) (delay pos : Nat) (on anim : Bool) (h : Option Handle) : Slot :=
  { loaded := true, on := on, anim := anim, handle := h,
    fields := some { left := BitVec.ofNat 16 l, right := BitVec.ofNat 16 r, dir := d,
                     delay := BitVec.ofNat 32 delay, pos := BitVec.ofNat 16 pos,
                     len := BitVec.ofInt 32 ((r : Int) - l + 1) } }

/-- A state with one loaded slot, live palette and snapshot the palette of P2. -/
def withSlot0 (sl : Slot) : State :=
  { State.reset with palRgb := pal, snap := pal, slots := ⟨sl, Slot.reset, Slot.reset, Slot.reset⟩ }

/-- Slot 0 of P2, off, armed, animating. -/
def off0 : State := withSlot0 (slotOf 2 5 .fwd 100 0 false false none)
def armed0 : State := withSlot0 (slotOf 2 5 .fwd 100 0 true false none)
def anim0 : State := withSlot0 (slotOf 2 5 .fwd 100 0 true true (some .first))

/-- The state with a command's words on CMD. -/
def onCmd (ws : List Word) (s : State) : State := { s with input := ws.map .word }

/-- The last thing a step sent. -/
def answer (s : State) : Option Output :=
  match step s with
  | .next t => t.out.getLast?
  | .fault _ => none
  | .refused _ => none

/-- The response a test expects. -/
def resp (e : Status) (d : Word) : Option Output := some (.response ⟨e, d, []⟩)

/-- The state a command leaves, or the state before where it stops. -/
def after (i : Instr) (s : State) : State :=
  match exec i s with
  | .next t => t
  | .fault _ => s
  | .refused _ => s

/-- P1's image. -/
def image1 : State :=
  { State.reset with mode := .mode1, pw := [(0, 0xAAAA#16), (1, 0xFF00#16)],
                     palRgb := [(3, derive 0x007#16)] }

/-! One step of each command. -/

theorem test_mode_7 : after (.mode 7#16) { off0 with mode := .mode2 } =
    { off0 with palRgb := [], out := [.response ⟨.ok, 0#32, []⟩] } := by decide
theorem test_mode_busy : answer (onCmd [0x01000001#32] armed0) = resp .busy 1#32 := by decide
theorem test_modeq : answer (onCmd [0x02000000#32] State.reset) = resp .ok 0x1400C840#32 := by decide
theorem test_palrep : (after (.palrep [0#16, 0xFFF#16]) { State.reset with mode := .mode2 }).palRgb =
    [(0, ⟨0#8, 0#8, 0#8⟩), (1, ⟨0xFF#8, 0xFF#8, 0xFF#8⟩)] := by decide
theorem test_palrep_size :
    answer (onCmd [0x10030000#32, 1#32, 2#32, 3#32] State.reset) = resp .invalidPaletteSize 3#32 := by
  decide
theorem test_palset : (after (.palset 15#8 0x777#16) State.reset).palRgb =
    [(15, ⟨0xEE#8, 0xEE#8, 0xEE#8⟩)] := by decide
theorem test_palset_range : answer (onCmd [0x11100777#32] State.reset) = resp .indexOutOfRange 16#32 := by
  decide
theorem test_palrgb : answer (onCmd [0x12030000#32] image1) = resp .ok 0x0000EE#32 := by decide
theorem test_palrgb_range : answer (onCmd [0x12040000#32] image1) = resp .indexOutOfRange 4#32 := by
  decide
theorem test_palraw : answer (onCmd [0x13030000#32]
    { State.reset with mode := .mode1, palRaw := [(3, 0x0800#16)] }) = resp .ok 0x800#32 := by decide
theorem test_pwwr : (after (.pwwr 1#24 0xFF00#16) { State.reset with pw := [(0, 1#16), (2, 3#16)] }).pw =
    [(0, 1#16), (1, 0xFF00#16), (2, 3#16)] := by decide
theorem test_pwwr_range :
    answer (onCmd [0x20003E80#32, 0x1234#32] State.reset) = resp .indexOutOfRange 0x3E80#32 := by decide
theorem test_pwrd : answer (onCmd [0x21000001#32] image1) = resp .ok 0xFF00#32 := by decide
theorem test_pwrd_range :
    answer (onCmd [0x21FFFFFF#32] State.reset) = resp .indexOutOfRange 0xFFFFFF#32 := by decide
theorem test_stagew : (after (.stagew 159#8 1#8) State.reset).stg = [(159, 1#8)] := by decide
theorem test_stagew_range : answer (onCmd [0x22A00011#32] State.reset) = resp .indexOutOfRange 0xA0#32 := by
  decide
/-- 2.2, mode 0 and `REILV #199`; plane 3's first word of the line. -/
theorem test_reilv : (after (.reilv 199#16) { State.reset with stg := [(120, 0x12#8), (121, 0x34#8)] }).pw =
    [(15923, 0x1234#16)] := by decide +kernel
theorem test_reilv_range :
    answer (onCmd [0x230000C8#32] State.reset) = resp .planeAddressOverflow 0xC8#32 := by decide
theorem test_pix : answer (onCmd [0x30000000#32] image1) = resp .ok 3#32 ∧
    answer (onCmd [0x30000008#32] image1) = resp .ok 1#32 := by decide
theorem test_pix_range : answer (onCmd [0x3000FA00#32] State.reset) = resp .indexOutOfRange 0xFA00#32 := by
  decide
theorem test_rgba : answer (onCmd [0x31000000#32] image1) = resp .ok 0x0000EEFF#32 := by decide
/-- 00_scope.md R15: the colour of index 2 is `⊥` here. -/
theorem test_rgba_unspecified : exec (.rgba 1#24) image1 = .fault .unspecifiedResponse := by rfl
/-- The stream of R126, cut to the first group: the elements of P1. -/
theorem test_unpack : collect (indexElement image1) 16 0 =
    some [3#32, 2#32, 3#32, 2#32, 3#32, 2#32, 3#32, 2#32, 1#32, 0#32, 1#32, 0#32, 1#32, 0#32, 1#32, 0#32] := by
  decide
/-- The stream of R128, cut to one pixel: P1, row 9. -/
theorem test_render : collect (rgbaElement image1) 1 0 = some [0x0000EEFF#32] := by decide
/-- 2.3: delay raw 122 is 100 ms; slot (9, 3) has length -5. -/
theorem test_ccload :
    (after (.ccload ⟨⟨9#16, 3#16, 2#16, 122#16⟩, ⟨0#16, 0#16, 1#16, 0#16⟩,
                     ⟨0#16, 0#16, 1#16, 0#16⟩, ⟨0#16, 0#16, 0#16, 65535#16⟩⟩) State.reset).slots.s0.fields =
      some ⟨9#16, 3#16, .fwd, 100#32, 0#16, 0xFFFFFFFB#32⟩ := by decide
/-- P5, row 7. -/
theorem test_ccload_direction :
    answer (onCmd ([0x40000000#32, 0#32, 0#32, 0#32, 0#32, 0#32, 0#32, 0#32, 0#32] ++
      [2#32, 2#32, 2#32, 3#32, 0#32, 0#32, 0#32, 0#32]) State.reset) = resp .badDirection 0x00030003#32 := by
  decide
theorem test_ccunld : (after .ccunld off0).slots.s0 = Slot.reset := by decide
theorem test_ccunld_busy : answer (onCmd [0x41000000#32]
    { armed0 with slots := ⟨armed0.slots.s0, Slot.reset, armed0.slots.s0, Slot.reset⟩ }) =
    resp .busy 5#32 := by decide
theorem test_ccstart : (after (.ccstart 0#8) { off0 with snap := [] }).snap = pal ∧
    (after (.ccstart 0#8) off0).slots.s0.phase = .armed := by decide
theorem test_ccstart_range : answer (onCmd [0x42000000#32] { off0 with mode := .mode1 }) =
    resp .cycleRange 5#32 := by decide
/-- 2.3: an Animating slot is cancelled and scheduled again. -/
theorem test_ccanim : (after (.ccanim 0#8) anim0).out =
    [.cancel (some .first), .sched 0 100#32 (Config.hostHandle 0), .response ⟨.ok, 0#32, []⟩] := by rfl
/-- 2.3, row (2, 5, +1), step 1: position 5, entries s5 s2 s3 s4. -/
theorem test_ccstep : (after (.ccstep 0#8) armed0).slots.s0.fields.map (·.pos) = some 5#16 ∧
    ((List.range 16).map (after (.ccstep 0#8) armed0).palRgb.get).take 7 =
      [pal.get 0, pal.get 1, pal.get 5, pal.get 2, pal.get 3, pal.get 4, pal.get 6] := by decide
theorem test_ccstep_redraw : (after (.ccstep 0#8) armed0).out =
    [.redraw, .response ⟨.ok, 0#32, []⟩] := by decide
theorem test_ccstop : (after (.ccstop 0#8) { anim0 with palRgb := [] }).palRgb = pal ∧
    (after (.ccstop 0#8) anim0).out = [.cancel (some .first), .response ⟨.ok, 0#32, []⟩] := by decide
theorem test_cctick : (after (.cctick 0#8) anim0).slots.s0.fields.map (·.pos) = some 5#16 := by decide
theorem test_cctick_armed : answer (onCmd [0x46000000#32] armed0) = resp .fail 0#32 := by decide
/-- P2, step 4; 2.3, `CCSTAT 0, #1`. -/
theorem test_ccstat : answer (onCmd [0x47000000#32] armed0) = resp .ok 0x13#32 ∧
    answer (onCmd [0x47000001#32] armed0) = resp .ok 0x00050002#32 := by decide
theorem test_ccstat_unloaded : answer (onCmd [0x47000000#32] State.reset) = resp .ok 0#32 := by decide

/-! Framing, RESET, the host's interface. -/

/-- P5, rows 1 and 2: a reserved opcode consumes no data words. -/
theorem test_reserved_opcode : answer (onCmd [0x05123456#32] State.reset) = resp .badOpcode 5#32 := by decide
theorem test_waits_for_data :
    step (onCmd [0x20000000#32] State.reset) = .next (onCmd [0x20000000#32] State.reset) := by rfl
theorem test_reset_input : step { anim0 with input := [.reset] } = .next State.reset := by rfl
theorem test_decode_table_word :
    decodeTableWord 32 0x47030002 = some (.ccstat 3#8 2#2) ∧
    decodeTableWord 64 0x0000AAAA20000000 = some (.pwwr 0#24 0xAAAA#16) ∧
    decodeTableWord 32 0x05123456 = none := by decide
theorem test_withFetchWord : answer (State.reset.withFetchWord 32 0x02000000) = resp .ok 0x1400C840#32 := by
  decide

/-- The codes of 60_exceptions.md R200, in its order. -/
theorem test_status_codes :
    [Status.ok, .fail, .invalidPaletteSize, .indexOutOfRange, .badOpcode, .reservedField, .badSlot,
     .slotNotLoaded, .busy, .badDirection, .cycleRange, .planeAddressOverflow].map statusCode =
      (List.range 12).map (BitVec.ofNat 8) := by decide

/-! The host's side (30_encoding.md R84, R87, R88, R90). -/

theorem test_pseudo : expandPseudo (.ccrun 2#8) = [.ccstart 2#8, .ccanim 2#8] ∧
    expandPseudo (.pwcopy 7#24 [1#16, 2#16]) = [.pwwr 7#24 1#16, .pwwr 8#24 2#16] ∧
    (expandPseudo (.stgfill 0#8)).length = 160 := by decide +kernel
/-- P2's descriptor block as 32 trailer bytes. -/
def trailer2 : List Byte :=
  [0#8, 2#8, 0#8, 8#8, 0#8, 0#8, 0#8, 0#8, 0#8, 5#8, 0#8, 9#8, 0#8, 0#8, 0#8, 15#8] ++
  [0#8, 2#8, 0#8, 0#8, 0#8, 1#8, 0#8, 2#8, 0#8, 122#8, 0#8, 98#8, 0#8, 128#8, 0#8, 0#8]

/-- A trailer of 32 bytes, and one of another size. -/
theorem test_trailer :
    trailerCommand trailer2 =
      .ccload ⟨⟨2#16, 5#16, 2#16, 122#16⟩, ⟨8#16, 9#16, 0#16, 98#16⟩,
               ⟨0#16, 0#16, 1#16, 128#16⟩, ⟨0#16, 15#16, 2#16, 0#16⟩⟩ ∧
    trailerCommand [0#8] = .ccunld := by decide
theorem test_header : headerMode 0x8001#16 = 1#16 ∧ headerCompressed 0x8001#16 = true := by decide
/-- R88: bit 15 picks the fill, raw words or staged scanlines. -/
theorem test_boot_image :
    bootImage (fun _ => [[0xC0#8]]) ⟨0x0001#16, [], [0x12#8, 0x34#8], []⟩ =
      [.mode 1#16, .palrep [], .pwwr 0#24 0x1234#16, .ccunld] ∧
    bootImage (fun _ => [[0xC0#8]]) ⟨0x8001#16, [], [0x12#8, 0x34#8], []⟩ =
      [.mode 1#16, .palrep [], .stagew 0#8 0xC0#8, .reilv 0#16, .ccunld] := by decide
theorem test_asm_line : asmLine (.ccstat 3#8 2#2) = "CCSTAT 3, #2" := by decide +kernel

/-! The host's contract (42_color_cycle.md R163, R164, 70_reset_and_hazards.md R231). -/

/-- An outstanding schedule of slot 0. -/
def sched0 (ms : Word) : Schedule := { handle := .first, slot := 0, ms := ms, ticks := 3 }

/-- With a positive interval the host may tick; with an interval of 0 the policy says; the host sends
no CCTICK of its own and no tick of a schedule it does not hold. -/
theorem test_hostMay :
    hostMay [sched0 100#32] (.tick 0) = true ∧
    hostMay [sched0 0#32] (.tick 0) = Config.schedPolicy 0#32 3 ∧
    hostMay [sched0 100#32] (.tick 1) = false ∧
    hostMay [sched0 100#32] (.command (.cctick 0#8)) = false := ⟨by decide, rfl, by decide, by decide⟩
/-- R214, `each with its data words`: 256 values do not fit the count in the command word; a host
sends no act behind words that BPCC has not taken. -/
theorem test_hostMay_data_words :
    hostMay [] (.command (.palrep (List.replicate 256 0#16))) = false ∧
    hostMay [] (.command (.palrep (List.replicate 255 0#16))) = true := by decide +kernel
theorem test_hostRun_one_at_a_time :
    hostRun [.command .modeq] [] (onCmd [0x20000000#32] State.reset) = none := by decide
/-- A tick steps the slot; the CANCEL that CCSTOP sends, and RESET, end the schedule. -/
theorem test_hostRun :
    ((hostRun [.tick 0] [sched0 100#32] anim0).map fun x =>
      (x.1.map (·.ticks), x.2.slots.s0.fields.map (·.pos))) = some ([4], some 5#16) ∧
    ((hostRun [.tick 0, .command (.ccstop 0#8)] [sched0 100#32] anim0).map (·.1)) = some [] ∧
    ((hostRun [.reset] [sched0 100#32] anim0).map (·.1)) = some [] := by decide

/-! States the statements' hypotheses hold in. -/

/-- A file whose cells 0 to n-1 all hold v. -/
def fill {α : Type} (n : Nat) (v : α) : Memory α := (List.range' 0 n).map fun a => (a, v)

theorem get_fill_from {α : Type} (v : α) (n lo a : Nat) (h1 : lo ≤ a) (h2 : a < lo + n) :
    Memory.get ((List.range' lo n).map fun a => (a, v)) a = some v := by
  induction n generalizing lo with
  | zero => omega
  | succ n ih =>
    rw [List.range'_succ, List.map_cons, Memory.get_cons]
    split
    · rfl
    · exact ih (lo + 1) (by omega) (by omega)

theorem get_fill {α : Type} (v : α) {n a : Nat} (h : a < n) : (fill n v).get a = some v :=
  get_fill_from v n 0 a (by omega) (by omega)

theorem wf_fill_from {α : Type} (v : α) (size n lo : Nat) (h : lo + n ≤ size) :
    Memory.wfFrom size lo ((List.range' lo n).map fun a => (a, v)) = true := by
  induction n generalizing lo with
  | zero => rfl
  | succ n ih =>
    rw [List.range'_succ, List.map_cons, Memory.wfFrom, ih (lo + 1) (by omega)]
    simp
    omega

theorem wf_fill {α : Type} (v : α) (n : Nat) : (fill n v).wf n = true :=
  wf_fill_from v n n 0 (by omega)

theorem slotInv_reset (m : GMode) : SlotInv m Slot.reset := by
  constructor <;> simp [Slot.reset]

theorem slotInv_off : SlotInv .mode0 off0.slots.s0 := by
  refine ⟨by decide, by decide, rfl, rfl, ?_, ?_, ?_⟩
  · intro f hf; injection hf with hf; subst hf; exact ⟨by decide, by decide, by decide⟩
  · intro f ho hf; injection hf with hf; subst hf; decide
  · intro f ho hf; injection hf with hf; subst hf; decide

theorem slotInv_armed : SlotInv .mode0 armed0.slots.s0 := by
  refine ⟨by decide, by decide, rfl, rfl, ?_, ?_, ?_⟩
  · intro f hf; injection hf with hf; subst hf; exact ⟨by decide, by decide, by decide⟩
  · intro f ho hf; injection hf with hf; subst hf; decide
  · intro f ho hf; injection hf with hf; subst hf; decide

theorem slotInv_anim : SlotInv .mode0 anim0.slots.s0 := by
  refine ⟨by decide, by decide, rfl, rfl, ?_, ?_, ?_⟩
  · intro f hf; injection hf with hf; subst hf; exact ⟨by decide, by decide, by decide⟩
  · intro f ho hf; injection hf with hf; subst hf; decide
  · intro f ho hf; injection hf with hf; subst hf; decide

/-- Slot 0 armed with the empty range (l, r). -/
def empty0 (l r : Nat) : State := withSlot0 (slotOf l r .back 100 r true false none)

theorem slotInv_empty_1_0 : SlotInv .mode0 (empty0 1 0).slots.s0 := by
  refine ⟨by decide, by decide, rfl, rfl, ?_, ?_, ?_⟩
  · intro f hf; injection hf with hf; subst hf; exact ⟨by decide, by decide, by decide⟩
  · intro f ho hf; injection hf with hf; subst hf; decide
  · intro f ho hf; injection hf with hf; subst hf; decide

theorem slotInv_empty_5_2 : SlotInv .mode0 (empty0 5 2).slots.s0 := by
  refine ⟨by decide, by decide, rfl, rfl, ?_, ?_, ?_⟩
  · intro f hf; injection hf with hf; subst hf; exact ⟨by decide, by decide, by decide⟩
  · intro f ho hf; injection hf with hf; subst hf; decide
  · intro f ho hf; injection hf with hf; subst hf; decide

theorem inv_withSlot0 {sl : Slot} (h : SlotInv .mode0 sl) : (withSlot0 sl).Inv := by
  have hp : pal.wf 16 = true := by decide
  refine ⟨rfl, hp, hp, rfl, rfl, fun k => ?_⟩
  fin_cases k
  exacts [h, slotInv_reset _, slotInv_reset _, slotInv_reset _]

theorem inv_off0 : off0.Inv := inv_withSlot0 slotInv_off
theorem inv_armed0 : armed0.Inv := inv_withSlot0 slotInv_armed
theorem inv_anim0 : anim0.Inv := inv_withSlot0 slotInv_anim
theorem inv_empty_1_0 : (empty0 1 0).Inv := inv_withSlot0 slotInv_empty_1_0
theorem inv_empty_5_2 : (empty0 5 2).Inv := inv_withSlot0 slotInv_empty_5_2

/-- A state in mode m with every staging byte written. -/
def staged (m : GMode) : State := { State.reset with mode := m, stg := fill 160 0xA5#8 }

theorem inv_staged (m : GMode) : (staged m).Inv := by
  refine ⟨rfl, rfl, rfl, rfl, wf_fill _ 160, fun k => ?_⟩
  fin_cases k <;> exact slotInv_reset _

/-- A state with every plane word and every palette entry written. -/
def drawn : State := { State.reset with pw := fill 16000 1#16, palRgb := pal }

/-- The same with the two palette entries that the pixels name. -/
def drawnTwo : State := { drawn with palRgb := [(0, derive 0#16), (15, derive 0xFFF#16)] }

/-- Every plane's word has bit 0 alone: the last pixel of each group has index 15, the others 0. -/
theorem pixIndex_drawn {n : Nat} (h : n < 64000) :
    pixIndex drawn.desc drawn.pw n = some (if n % 16 = 15 then 15 else 0) := by
  obtain ⟨r, hr, hlt, hbit⟩ := pixIndex_spec (d := drawn.desc) (pw := drawn.pw) (n := n) fun p hp => by
    have hp4 : p < 4 := hp
    rw [show drawn.pw = fill 16000 1#16 from rfl, show drawn.desc.p = 4 from rfl, get_fill _ (by omega)]
    rfl
  have hb : ∀ p, p < 4 → r.testBit p = decide (n % 16 = 15) := fun p hp => by
    rw [hbit p hp 1#16 (get_fill _ (by rw [show drawn.desc.p = 4 from rfl]; omega)),
      BitVec.getLsbD_one]
    simp
    omega
  have hall : ∀ b, ∀ r < 16, (∀ p < 4, r.testBit p = b) → r = if b then 15 else 0 := by decide
  rw [hr, hall _ r hlt hb]
  simp

/-- The fields of slot 0. -/
def fields0 (pos : Nat) : SlotFields :=
  { left := 2#16, right := 5#16, dir := .fwd, delay := 100#32, pos := BitVec.ofNat 16 pos, len := 4#32 }

/-! For each statement with hypotheses, a witness that meets them all. -/

/-- A CCSTEP of an armed slot. -/
theorem witness_StepKeepsInvariants :
    ({ armed0 with input := [.word 0x44000000#32] } : State).Inv ∧
    ∃ t, step { armed0 with input := [.word 0x44000000#32] } = .next t :=
  ⟨⟨inv_armed0.1, inv_armed0.2, inv_armed0.3, inv_armed0.4, inv_armed0.5, inv_armed0.6⟩, _, rfl⟩

theorem witness_SlotFieldsNeverReadUnspecified :
    anim0.Inv ∧ exec (.cctick 0#8) anim0 = .next (after (.cctick 0#8) anim0) := ⟨inv_anim0, rfl⟩

theorem witness_CommandsCompleteOrReadUnspecified :
    off0.Inv ∧ (∃ t, exec .modeq off0 = .next t) ∧
    exec (.palraw 0#8) off0 = .fault .unspecifiedResponse := ⟨inv_off0, ⟨_, rfl⟩, rfl⟩

theorem witness_UnspecifiedResponseFaults :
    ((15#8 : Byte).toNat < State.reset.desc.rc ∧ State.reset.palRgb.get 15 = none) ∧
    ((15#8 : Byte).toNat < State.reset.desc.rc ∧ State.reset.palRaw.get 15 = none) ∧
    ((15999#24 : Addr).toNat < 16000 ∧ State.reset.pw.get 15999 = none) ∧
    ((63999#24 : Addr).toNat < State.reset.desc.w * State.reset.desc.h ∧ 3 < State.reset.desc.p ∧
      State.reset.pw.get (63999 / 16 * State.reset.desc.p + 3) = none) ∧
    (15#24 : Addr).toNat < image1.desc.w * image1.desc.h ∧
    pixIndex image1.desc image1.pw (15#24 : Addr).toNat = some 0 ∧ image1.palRgb.get 0 = none := by
  decide

/-- UNPACK's response carries a stream. -/
theorem witness_OneResponsePerCommand :
    ∃ (t : State) (r : Response), exec .unpack drawn = .next t ∧
      t.out = drawn.out ++ [] ++ [.response r] ∧ r.stream ≠ [] := by
  obtain ⟨vs, hv, h⟩ | ⟨hv, -⟩ := execUnpack_cases drawn
  · refine ⟨_, ⟨.ok, BitVec.ofNat 32 (drawn.desc.w * drawn.desc.h), vs⟩, h, rfl, ?_⟩
    have hl := (collect_eq_some hv).1
    intro h0
    rw [show vs = [] from h0] at hl
    exact absurd hl (by decide)
  · have hs : (collect (indexElement drawn) (drawn.desc.w * drawn.desc.h) 0).isSome = true := by
      refine collect_isSome fun k _ hk => ?_
      obtain ⟨r, hr, -⟩ := pixIndex_spec (d := drawn.desc) (pw := drawn.pw) (n := k) fun p hp => by
        have h1 : drawn.desc.p = 4 := rfl
        rw [h1] at hp ⊢
        have h2 : drawn.desc.w * drawn.desc.h = 64000 := rfl
        rw [show drawn.pw = fill 16000 1#16 from rfl, get_fill _ (by omega)]
        rfl
      rw [indexElement, hr]
      rfl
    rw [hv] at hs
    exact absurd hs (by decide)

theorem witness_ErrorChangesNothing : ∃ t : State,
    exec (.palset 16#8 0x777#16) State.reset = .next t ∧
    t.out = State.reset.out ++ [] ++ [.response ⟨.indexOutOfRange, 16#32, []⟩] := ⟨_, rfl, rfl⟩

theorem witness_ReadsChangeNothing :
    Instr.modeq.onlyReads = true ∧ ∃ t, exec .modeq State.reset = .next t := ⟨rfl, _, rfl⟩

theorem witness_ModeWrittenOnlyByMode : ∃ t : State,
    exec (.mode 2#16) State.reset = .next t ∧ t.mode ≠ State.reset.mode := ⟨_, rfl, by decide⟩

/-- Each writer of the palette, at entry 0, 5 or 15. -/
theorem witness_PaletteWriters : State.reset.Inv ∧ armed0.Inv ∧ off0.Inv ∧
    (after (.palset 15#8 0x777#16) State.reset).palRaw.get 15 ≠ State.reset.palRaw.get 15 ∧
    (after (.palset 15#8 0x777#16) State.reset).palRgb.get 15 ≠ State.reset.palRgb.get 15 ∧
    (after (.palrep (List.replicate 16 1#16)) State.reset).palRaw.get 0 ≠ State.reset.palRaw.get 0 ∧
    (after (.mode 0#16) off0).palRgb.get 15 ≠ off0.palRgb.get 15 ∧
    (after (.ccstep 0#8) armed0).palRgb.get 5 ≠ armed0.palRgb.get 5 := by
  refine ⟨?_, inv_armed0, inv_off0, by decide⟩
  refine ⟨rfl, rfl, rfl, rfl, rfl, fun k => ?_⟩
  fin_cases k <;> exact slotInv_reset _

theorem witness_SnapshotWriters :
    ({ off0 with snap := [] } : State).Inv ∧ ∃ t : State,
      exec (.ccstart 0#8) { off0 with snap := [] } = .next t ∧
      t.snap.get 15 ≠ ({ off0 with snap := [] } : State).snap.get 15 :=
  ⟨⟨inv_off0.1, inv_off0.2, rfl, inv_off0.4, inv_off0.5, inv_off0.6⟩, _, rfl, by decide⟩

theorem witness_SnapshotReadOnlyByStepAndStop :
    (∀ a, Instr.ccstart 0#8 ≠ .ccstep a ∧ Instr.ccstart 0#8 ≠ .cctick a ∧
      Instr.ccstart 0#8 ≠ .ccstop a) ∧ ∃ t, exec (.ccstart 0#8) off0 = .next t :=
  ⟨by simp, _, rfl⟩

theorem witness_BufferWriters :
    (after (.pwwr 15999#24 1#16) State.reset).pw ≠ State.reset.pw ∧
    (after (.stagew 159#8 1#8) State.reset).stg ≠ State.reset.stg ∧
    exec (.pwwr 15999#24 1#16) State.reset = .next (after (.pwwr 15999#24 1#16) State.reset) ∧
    exec (.stagew 159#8 1#8) State.reset = .next (after (.stagew 159#8 1#8) State.reset) :=
  ⟨by decide, by decide, rfl, rfl⟩

theorem witness_SlotsWrittenOnlyByCycleCommands : ∃ t : State,
    exec (.ccstop 0#8) armed0 = .next t ∧ t.slot 0 ≠ armed0.slot 0 := ⟨_, rfl, by decide⟩

theorem witness_SlotsAreIndependent :
    (Instr.ccstep 0#8).slotOperand = some 0#8 ∧ (∃ t, exec (.ccstep 0#8) armed0 = .next t) ∧
    (3 : Fin 4).val ≠ (0#8 : Byte).toNat := ⟨rfl, ⟨_, rfl⟩, by decide⟩

/-- An OK step, and a step that fails. -/
theorem witness_RedrawOnlyFromSteps :
    (∃ t, exec (.ccstep 0#8) armed0 = .next t ∧
      t.out = armed0.out ++ [.redraw] ++ [.response ⟨.ok, 0#32, []⟩]) ∧
    ∃ t, exec (.ccstep 0#8) off0 = .next t ∧
      t.out = off0.out ++ [] ++ [.response ⟨.fail, 0#32, []⟩] := ⟨⟨_, rfl, rfl⟩, _, rfl, rfl⟩

theorem witness_CancelOnlyFromAnimatingSlot : anim0.Inv ∧ ∃ t : State,
    exec (.ccstop 0#8) anim0 = .next t ∧
    t.out = anim0.out ++ [.cancel (some .first), .response ⟨.ok, 0#32, []⟩] ∧
    Output.cancel (some .first) ∈ [Output.cancel (some .first), .response ⟨.ok, 0#32, []⟩] :=
  ⟨inv_anim0, _, rfl, rfl, by simp⟩

theorem witness_DecodeOfEncode : (Instr.palrep (List.replicate 255 1#16)).WellFormed := by
  decide +kernel

theorem witness_EncodeOfDecode :
    [0x1234#32].length = dataCount 0x20003E80#32 ∧
    decode 0x20003E80#32 [0x1234#32] = .instr (.pwwr 16000#24 0x1234#16) := by decide

/-- Reserved opcodes at both ends of the map and between its rows. -/
theorem witness_ReservedOpcodesRejected :
    (∀ o, opCode o ≠ (0x00000000#32).extractLsb' 24 8) ∧
    (∀ o, opCode o ≠ (0x48000000#32).extractLsb' 24 8) ∧
    (∀ o, opCode o ≠ (0xFFFFFFFF#32).extractLsb' 24 8) := by
  refine ⟨fun o => ?_, fun o => ?_, fun o => ?_⟩ <;> cases o <;> decide

/-- The command word, the first data word, the last data word of CCLOAD. -/
theorem witness_ReservedFieldsRejected :
    (opCode .modeq = (0x02000001#32).extractLsb' 24 8 ∧ 0x02000001#32 &&& opMask .modeq ≠ opMatch .modeq) ∧
    (opCode .pwwr = (0x20000000#32).extractLsb' 24 8 ∧ 0x20000000#32 &&& opMask .pwwr = opMatch .pwwr ∧
      ([0x00010000#32].getD 0 0#32).toNat ≥ 65536) ∧
    (opCode .ccload = (0x40000000#32).extractLsb' 24 8 ∧
      0x40000000#32 &&& opMask .ccload = opMatch .ccload ∧
      ((List.replicate 15 0#32 ++ [0x80000000#32]).getD 15 0#32).toNat ≥ 65536 ∧
      ∀ l, l < 15 → ((List.replicate 15 0#32 ++ [0x80000000#32]).getD l 0#32).toNat < 65536) := by
  decide

theorem witness_StepRunsDecoded :
    fetch (onCmd [0x20000000#32, 0xAAAA#32] State.reset).input =
      .command 0x20000000#32 [0xAAAA#32] [] ∧
    decode 0x20000000#32 [0xAAAA#32] = .instr (.pwwr 0#24 0xAAAA#16) := by decide

theorem witness_StepRejectsWords :
    (fetch (onCmd [0x05123456#32] State.reset).input = .command 0x05123456#32 [] [] ∧
      decode 0x05123456#32 [] = .reject (.badOpcode 5#8)) ∧
    (fetch (onCmd [0x20000000#32, 0x00010000#32] State.reset).input =
        .command 0x20000000#32 [0x00010000#32] [] ∧
      decode 0x20000000#32 [0x00010000#32] = .reject (.reservedField 1)) := by decide

theorem witness_StepTakesReset :
    State.reset.input = [] ∧
    ({ anim0 with input := [.reset, .word 0x46000000#32] } : State).input =
      .reset :: [.word 0x46000000#32] ∧ (3#8 : Byte).toNat < 4 := by decide

theorem witness_DeriveFormula : 0x0777#16 &&& 0x0888#16 = (0#16 : Half) := by decide

theorem witness_DelayIsNearest : 128 < (129#16 : Half).toNat ∧ 128 < (65535#16 : Half).toNat := by decide

/-- The last pixel of mode 0: the words 15996 to 15999. -/
theorem witness_PixelIndexBits :
    319 < (modeDesc .mode0).w ∧ 199 < (modeDesc .mode0).h ∧
    (∀ p, p < (modeDesc .mode0).p →
      (Memory.get [(15996, 1#16), (15997, 0#16), (15998, 0#16), (15999, 1#16)]
        ((199 * ((modeDesc .mode0).w / 16) + 319 / 16) * (modeDesc .mode0).p + p)).isSome = true) := by
  decide

theorem witness_ModeCommand :
    (∃ k, (armed0.slot k).on = true) ∧ (∀ k, (off0.slot k).on = false) := by decide

theorem witness_PalrepCommand :
    ([1#16, 2#16, 3#16].length < 256 ∧ [1#16, 2#16, 3#16].length ≠ State.reset.desc.rc) ∧
    ((List.replicate 16 1#16).length < 256 ∧ (List.replicate 16 1#16).length = State.reset.desc.rc) := by
  decide

theorem witness_PalsetCommand :
    State.reset.desc.rc ≤ (16#8 : Byte).toNat ∧ (15#8 : Byte).toNat < State.reset.desc.rc := by decide

theorem witness_PalrgbCommand :
    off0.desc.rc ≤ (16#8 : Byte).toNat ∧ (15#8 : Byte).toNat < off0.desc.rc ∧
    off0.palRgb.get (15#8 : Byte).toNat = some (derive 15#16) := by decide

theorem witness_PalrawCommand :
    State.reset.desc.rc ≤ (16#8 : Byte).toNat ∧ (15#8 : Byte).toNat < State.reset.desc.rc ∧
    (after (.palset 15#8 0xF123#16) State.reset).palRaw.get (15#8 : Byte).toNat = some 0xF123#16 := by
  decide

theorem witness_PalsetReadsBack :
    (15#8 : Byte).toNat < State.reset.desc.rc ∧
    ∃ t u : State, exec (.palset 15#8 0xF123#16) State.reset = .next t ∧
      runAll [.palset 14#8 1#16, .modeq] t = .next u ∧
      ∀ j ∈ [Instr.palset 14#8 1#16, .modeq], (∀ vs, j ≠ .palrep vs) ∧ (∀ w, j ≠ .palset 15#8 w) ∧
        (∀ id, j ≠ .mode id) ∧ ∀ a, j ≠ .ccstep a ∧ j ≠ .cctick a ∧ j ≠ .ccstop a :=
  ⟨by decide, _, _, rfl, rfl, by simp⟩

theorem witness_PwwrCommand :
    16000 ≤ (16000#24 : Addr).toNat ∧ (15999#24 : Addr).toNat < 16000 := by decide

theorem witness_PwrdCommand :
    16000 ≤ (16000#24 : Addr).toNat ∧ (15999#24 : Addr).toNat < 16000 ∧
    (after (.pwwr 15999#24 7#16) State.reset).pw.get (15999#24 : Addr).toNat = some 7#16 := by decide

theorem witness_StagewCommand :
    160 ≤ (160#8 : Byte).toNat ∧ (159#8 : Byte).toNat < 160 := by decide

theorem witness_ReilvCommand :
    (staged .mode0).Inv ∧ 200 ≤ (200#16 : Half).toNat ∧ (199#16 : Half).toNat < 200 :=
  ⟨inv_staged _, by decide⟩

/-- The last row, the last column, in mode 0 and in mode 2. -/
theorem witness_ReilvUnpackAgree : ∀ m : GMode,
    (staged m).Inv ∧ (199#16 : Half).toNat < 200 ∧ (∃ t, exec (.reilv 199#16) (staged m) = .next t) ∧
    (∀ b, b < 160 → ((staged m).stg.get b).isSome = true) ∧ 319 < (staged m).desc.w := by
  intro m
  refine ⟨inv_staged m, by decide, ?_, fun b hb => ?_, by cases m <;> decide⟩
  · obtain ⟨-, h⟩ | ⟨h, -⟩ := execReilv_cases 199#16 (staged m)
    · exact ⟨_, h⟩
    · exact absurd h (by decide)
  · rw [show (staged m).stg = fill 160 0xA5#8 from rfl, get_fill _ hb]
    rfl

theorem witness_PixCommand :
    image1.desc.w * image1.desc.h ≤ (128000#24 : Addr).toNat ∧
    (15#24 : Addr).toNat < image1.desc.w * image1.desc.h ∧
    (∀ p, p < image1.desc.p →
      (image1.pw.get ((15#24 : Addr).toNat / 16 * image1.desc.p + p)).isSome = true) := by decide

theorem witness_RgbaCommand :
    image1.desc.w * image1.desc.h ≤ (128000#24 : Addr).toNat ∧
    (0#24 : Addr).toNat < image1.desc.w * image1.desc.h ∧
    pixIndex image1.desc image1.pw (0#24 : Addr).toNat = some 3 ∧
    image1.palRgb.get 3 = some (derive 7#16) := by decide

theorem witness_UnpackCommand : ∀ a, a < 16000 → (drawn.pw.get a).isSome = true := by
  intro a ha
  rw [show drawn.pw = fill 16000 1#16 from rfl, get_fill _ ha]
  rfl

/-- Two of the sixteen palette entries are written, the two that a pixel names. -/
theorem witness_RenderCommand :
    (∀ a, a < 16000 → (drawnTwo.pw.get a).isSome = true) ∧
    (∀ n r, n < drawnTwo.desc.w * drawnTwo.desc.h → pixIndex drawnTwo.desc drawnTwo.pw n = some r →
      (drawnTwo.palRgb.get r).isSome = true) ∧ drawnTwo.palRgb.get 14 = none := by
  refine ⟨witness_UnpackCommand, fun n r hn hr => ?_, by decide⟩
  obtain rfl := Option.some.inj ((pixIndex_drawn hn).symm.trans hr)
  split <;> decide

/-- Slot 3's direction is bad; all directions good. -/
theorem witness_CcloadCommand :
    (∃ k, (armed0.slot k).on = true) ∧ (∀ k, (off0.slot k).on = false) ∧
    2 < (Quad.get (⟨⟨0#16, 0#16, 2#16, 0#16⟩, ⟨0#16, 0#16, 0#16, 0#16⟩, ⟨0#16, 0#16, 1#16, 0#16⟩,
      ⟨0#16, 0#16, 3#16, 0#16⟩⟩ : Quad Desc) 3).dirRaw.toNat ∧
    (∀ j, j < 3 → (Quad.get (⟨⟨0#16, 0#16, 2#16, 0#16⟩, ⟨0#16, 0#16, 0#16, 0#16⟩,
      ⟨0#16, 0#16, 1#16, 0#16⟩, ⟨0#16, 0#16, 3#16, 0#16⟩⟩ : Quad Desc) j).dirRaw.toNat ≤ 2) := by decide

theorem witness_CcunldCommand :
    (∃ k, (armed0.slot k).on = true) ∧ (∀ k, (off0.slot k).on = false) := by decide

/-- An unloaded slot; direction 0; a range past the palette of mode 1; a range inside that of
mode 0. -/
theorem witness_CcstartCommand : off0.Inv ∧ (withSlot0 (slotOf 0 0 .still 0 0 false false none)).Inv ∧
    ({ off0 with mode := .mode1 } : State).Inv ∧
    4 ≤ (4#8 : Byte).toNat ∧ (off0.slot 3).loaded = false ∧
    ((withSlot0 (slotOf 0 0 .still 0 0 false false none)).slot 0).loaded = true ∧ dirInt .still = 0 ∧
    (({ off0 with mode := .mode1 } : State).slot 0).fields = some (fields0 0) ∧
    dirInt (fields0 0).dir ≠ 0 ∧ (fields0 0).left.toNat ≤ (fields0 0).right.toNat ∧
    ({ off0 with mode := .mode1 } : State).desc.rc ≤ (fields0 0).right.toNat ∧
    (off0.slot 0).loaded = true ∧ (off0.slot 0).fields = some (fields0 0) ∧
    (fields0 0).right.toNat < off0.desc.rc := by
  refine ⟨inv_off0, inv_withSlot0 ?_, ⟨inv_off0.1, inv_off0.2, inv_off0.3, inv_off0.4, inv_off0.5, ?_⟩,
    by decide⟩
  · refine ⟨by decide, by decide, rfl, rfl, ?_, ?_, ?_⟩
    · intro f hf; injection hf with hf; subst hf; exact ⟨by decide, by decide, by decide⟩
    · intro f ho hf; exact absurd ho (by decide)
    · intro f ho hf; exact absurd ho (by decide)
  · intro k
    obtain ⟨h1, h2, h3, h4, h5, h6, h7⟩ := inv_off0.slots_inv k
    refine ⟨h1, h2, h3, h4, h5, h6, fun f ho => absurd ho ?_⟩
    fin_cases k <;> decide

/-- Slot 0 armed and animating; slot 3 off. -/
theorem witness_CcanimCommand :
    4 ≤ (4#8 : Byte).toNat ∧ (anim0.slot 3).on = false ∧
    (armed0.slot 0).on = true ∧ (armed0.slot 0).fields = some (fields0 0) ∧
    (anim0.slot 0).on = true ∧ (anim0.slot 0).fields = some (fields0 0) := by decide

/-- A range of four entries; an empty range. -/
theorem witness_CcstepCommand : armed0.Inv ∧ 4 ≤ (4#8 : Byte).toNat ∧ (armed0.slot 3).on = false ∧
    (armed0.slot 0).on = true ∧ (armed0.slot 0).fields = some (fields0 0) ∧
    (fields0 0).left.toNat ≤ (fields0 0).right.toNat := ⟨inv_armed0, by decide⟩

theorem witness_CctickCommand : anim0.Inv ∧ 4 ≤ (4#8 : Byte).toNat ∧ (anim0.slot 3).anim = false ∧
    (anim0.slot 0).anim = true ∧ (anim0.slot 0).fields = some (fields0 0) := ⟨inv_anim0, by decide⟩

theorem witness_CcstopCommand : anim0.Inv ∧ 4 ≤ (4#8 : Byte).toNat ∧ (anim0.slot 3).on = false ∧
    (anim0.slot 0).on = true := ⟨inv_anim0, by decide⟩

theorem witness_CcstatCommand :
    4 ≤ (4#8 : Byte).toNat ∧ (armed0.slot 3).loaded = false ∧
    (armed0.slot 0).loaded = true ∧ (armed0.slot 0).fields = some (fields0 0) := by decide

theorem slotInv_pos (p : Nat) (h : p = 2 ∨ p = 5) :
    SlotInv .mode0 (slotOf 2 5 .fwd 100 p true false none) := by
  obtain rfl | rfl := h <;>
  · refine ⟨by decide, by decide, rfl, rfl, ?_, ?_, ?_⟩
    · intro f hf; injection hf with hf; subst hf; exact ⟨by decide, by decide, by decide⟩
    · intro f ho hf; injection hf with hf; subst hf; decide
    · intro f ho hf; injection hf with hf; subst hf; decide

/-- The position at both ends of the range. -/
theorem witness_RangeReturnsAfterNSteps : ∀ p, p = 2 ∨ p = 5 →
    (withSlot0 (slotOf 2 5 .fwd 100 p true false none)).Inv ∧
    ((withSlot0 (slotOf 2 5 .fwd 100 p true false none)).slot 0).on = true ∧
    ((withSlot0 (slotOf 2 5 .fwd 100 p true false none)).slot 0).fields = some (fields0 p) ∧
    (fields0 p).left.toNat ≤ (fields0 p).pos.toNat ∧ (fields0 p).pos.toNat ≤ (fields0 p).right.toNat := by
  intro p hp
  refine ⟨inv_withSlot0 (slotInv_pos p hp), ?_⟩
  obtain rfl | rfl := hp <;> decide

/-- left = right + 1, and left above right + 1. -/
theorem witness_EmptyRangeStep :
    ((empty0 1 0).Inv ∧ ((empty0 1 0).slot 0).on = true ∧
      ((empty0 1 0).slot 0).fields.map (fun f => (f.left, f.right, f.dir, f.pos)) =
        some (1#16, 0#16, .back, 0#16)) ∧
    ((empty0 5 2).Inv ∧ ((empty0 5 2).slot 0).on = true ∧
      ((empty0 5 2).slot 0).fields.map (fun f => (f.left, f.right, f.dir, f.pos)) =
        some (5#16, 2#16, .back, 2#16)) :=
  ⟨⟨inv_empty_1_0, by decide⟩, ⟨inv_empty_5_2, by decide⟩⟩

theorem witness_StopRestoresLatestStart : off0.Inv ∧ ∃ t u v : State,
    exec (.ccstart 0#8) off0 = .next t ∧
    t.out = off0.out ++ [.response { status := .ok, data := 0#32, stream := [] }] ∧
    runAll [.ccstep 0#8, .palset 2#8 0xFFF#16] t = .next u ∧
    (∀ i ∈ [Instr.ccstep 0#8, .palset 2#8 0xFFF#16], ∀ c, i ≠ .ccstart c) ∧
    (u.slot 0).on = true ∧ exec (.ccstop 0#8) u = .next v :=
  ⟨inv_off0, _, _, _, rfl, rfl, rfl, by simp, by decide, rfl⟩

/-- The word of the first pixel group, mode 2. -/
theorem witness_LaterCommandsSeeWrites :
    (0#24 : Addr).toNat < 16000 ∧ ∃ t : State,
      exec (.pwwr 0#24 0x8000#16) { State.reset with mode := .mode2 } = .next t ∧
      pixIndex t.desc t.pw (0#24 : Addr).toNat = some 1 := ⟨by decide, _, rfl, by decide⟩

/-- Every direction word at most 2; slot 3's direction 3; a trailer of 31 bytes. -/
theorem witness_SlotsOfTrailer :
    (trailer2.length = 32 ∧ ∀ k, k < 4 → trailerWord trailer2 (8 + k) ≤ 2) ∧
    ¬((trailer2.set 23 3#8).length = 32 ∧ ∀ k, k < 4 → trailerWord (trailer2.set 23 3#8) (8 + k) ≤ 2) ∧
    (trailer2.take 31).length ≠ 32 := by decide

theorem witness_BootLoadsRawImage :
    (List.replicate 16 0#16).length = (modeDesc (modeOfId (headerMode 0#16))).rc ∧
    (List.replicate 16000 0#16).length = 16000 ∧ (0#16 : Half).getLsbD 15 = false :=
  ⟨by decide, by rw [List.length_replicate], by decide⟩

/-- Mode 1, compressed; the last scanline's last word of plane 1 is inside the clause. -/
theorem witness_BootLoadsStagedImage :
    (List.replicate 4 0#16).length = (modeDesc (modeOfId (headerMode 0x8001#16))).rc ∧
    (List.replicate 200 (List.replicate 160 0#8)).length = 200 ∧
    (∀ l ∈ List.replicate 200 (List.replicate 160 0#8), l.length = 160) ∧
    (0x8001#16 : Half).getLsbD 15 = true ∧ 39 < 160 / (modeDesc .mode1).p / 2 :=
  ⟨by decide, by rw [List.length_replicate],
    fun l hl => by rw [List.eq_of_mem_replicate hl, List.length_replicate], by decide⟩

end Sys2Proof.Tests
end

section
/-! PROOFS of the scope statements (00_scope.md R15): which commands can fail to complete, and when a
response would carry `⊥`. -/

namespace Sys2Proof.Machine

/-! A slot that is loaded, on or animating has its fields (10_state.md R37, R39). -/

/-- Animating implies on, on implies loaded, a loaded slot has its fields. -/
theorem SlotInv.fields_ne_none {m : GMode} {sl : Slot} (h : SlotInv m sl)
    (hflag : sl.loaded = true ∨ sl.on = true ∨ sl.anim = true) : sl.fields ≠ none := by
  have hloaded : sl.loaded = true := by
    obtain hl | ho | ha := hflag
    · exact hl
    · exact h.on_loaded ho
    · exact h.on_loaded (h.anim_on ha)
  rw [← Option.isSome_iff_ne_none, h.loaded_fields, hloaded]

/-- Settles O5: of the three outcomes of `exec_endsIn`, the read of `⊥` slot fields needs a slot that
the invariants exclude. -/
theorem commandsCompleteOrReadUnspecified : Obligations.CommandsCompleteOrReadUnspecified := by
  intro i s hs
  obtain ⟨t, ht, -⟩ | hread | ⟨-, k, hnone, hflag⟩ := exec_endsIn i s
  · exact .inl ⟨t, ht⟩
  · exact .inr hread
  · exact absurd hnone ((hs.slots_inv k).fields_ne_none hflag)

/-! A value computed from a `⊥` cell is `⊥`. -/

/-- One `⊥` plane word of a pixel makes its color index `⊥`: from that plane's pass of the loop on. -/
theorem pixIndex_eq_none {d : ModeDesc} {pw : Memory Half} {n p : Nat} (hp : p < d.p)
    (hw : pw.get (n / 16 * d.p + p) = none) : pixIndex d pw n = none :=
  forRange_induction (P := fun k (acc : Cell Nat) => p < k → acc = none) d.p
    (fun h => absurd h (Nat.not_lt_zero p))
    (fun k acc _ ih hk => by
      obtain rfl | hlt := Nat.eq_or_lt_of_le (Nat.le_of_lt_succ hk)
      · cases acc with
        | none => rfl
        | some r => simp [hw]
      · rw [ih hlt]; rfl)
    hp

theorem indexElement_eq_none {s : State} {n : Nat} (h : pixIndex s.desc s.pw n = none) :
    indexElement s n = none := by
  simp [indexElement, h]

theorem rgbaElement_of_pixIndex_none {s : State} {n : Nat} (h : pixIndex s.desc s.pw n = none) :
    rgbaElement s n = none := by
  simp [rgbaElement, h]

theorem rgbaElement_of_palRgb_none {s : State} {n r : Nat} (h : pixIndex s.desc s.pw n = some r)
    (hr : s.palRgb.get r = none) : rgbaElement s n = none := by
  simp [rgbaElement, h, hr]

/-- One `⊥` element makes a stream `⊥`. -/
theorem collect_eq_none {α : Type} {f : Nat → Cell α} {n i k : Nat} (hk : k < n)
    (h : f (i + k) = none) : collect f n i = none := by
  rw [Option.eq_none_iff_forall_ne_some]
  intro vs hvs
  obtain ⟨v, -, hv⟩ := (collect_eq_some hvs).2 k hk
  rw [h] at hv
  nomatch hv

/-- The plane words are shared out to the pixels without a rest: word a is the plane `a mod P` word of
the first pixel of group `a / P` (20_memory.md R51, R53). -/
theorem exists_pixel_of_word (s : State) {a : Nat} (ha : a < 16000) :
    ∃ n p, n < s.desc.w * s.desc.h ∧ p < s.desc.p ∧ n / 16 * s.desc.p + p = a := by
  have hpos : 0 < s.desc.p := by unfold State.desc; cases s.mode <;> decide
  have hsize : 16000 * 16 = s.desc.w * s.desc.h * s.desc.p := by
    unfold State.desc; cases s.mode <;> rfl
  refine ⟨16 * (a / s.desc.p), a % s.desc.p, ?_, Nat.mod_lt a hpos, ?_⟩
  · refine Nat.lt_of_mul_lt_mul_right (a := s.desc.p) ?_
    have := Nat.div_mul_le_self a s.desc.p
    calc 16 * (a / s.desc.p) * s.desc.p = 16 * (a / s.desc.p * s.desc.p) := Nat.mul_assoc ..
      _ < 16000 * 16 := by omega
      _ = s.desc.w * s.desc.h * s.desc.p := hsize
  · rw [Nat.mul_div_cancel_left _ (by decide), Nat.div_add_mod']

/-! The two ends that send a value, when it is `⊥`. -/

/-- A command that reads one accessible `⊥` value faults. -/
theorem readCell_eq_fault {n bound : Nat} {c : Cell Word} {d : Word} {s : State} {r : Result}
    (h : r = if bound ≤ n then raise .indexOutOfRange d s else okCell c s) (hn : n < bound)
    (hc : c = none) : r = .fault .unspecifiedResponse := by
  rw [h, if_neg (Nat.not_le_of_lt hn), hc, okCell_none]

/-- A command that sends a stream with a `⊥` element faults. -/
theorem okStreamCell_collect_eq_fault {f : Nat → Cell Word} {n bound : Nat} (d : Word) (s : State)
    (hn : n < bound) (hf : f n = none) :
    okStreamCell d (collect f bound 0) s = .fault .unspecifiedResponse := by
  rw [collect_eq_none hn (by rwa [Nat.zero_add]), okStreamCell_none]

/-! The seven commands of 70_reset_and_hazards.md R234. -/

theorem exec_palrgb_fault {s : State} {i : Byte} (hi : i.toNat < s.desc.rc)
    (h : s.palRgb.get i.toNat = none) : exec (.palrgb i) s = .fault .unspecifiedResponse :=
  readCell_eq_fault rfl hi (by rw [h]; rfl)

theorem exec_palraw_fault {s : State} {i : Byte} (hi : i.toNat < s.desc.rc)
    (h : s.palRaw.get i.toNat = none) : exec (.palraw i) s = .fault .unspecifiedResponse :=
  readCell_eq_fault rfl hi (by rw [h]; rfl)

theorem exec_pwrd_fault {s : State} {a : Addr} (ha : a.toNat < 16000)
    (h : s.pw.get a.toNat = none) : exec (.pwrd a) s = .fault .unspecifiedResponse :=
  readCell_eq_fault rfl ha (by rw [h]; rfl)

theorem exec_pix_fault {s : State} {n : Addr} (hn : n.toNat < s.desc.w * s.desc.h)
    (h : indexElement s n.toNat = none) : exec (.pix n) s = .fault .unspecifiedResponse :=
  readCell_eq_fault rfl hn h

theorem exec_rgba_fault {s : State} {n : Addr} (hn : n.toNat < s.desc.w * s.desc.h)
    (h : rgbaElement s n.toNat = none) : exec (.rgba n) s = .fault .unspecifiedResponse :=
  readCell_eq_fault rfl hn h

theorem exec_unpack_fault {s : State} {n : Nat} (hn : n < s.desc.w * s.desc.h)
    (h : indexElement s n = none) : exec .unpack s = .fault .unspecifiedResponse :=
  okStreamCell_collect_eq_fault _ s hn h

theorem exec_render_fault {s : State} {n : Nat} (hn : n < s.desc.w * s.desc.h)
    (h : rgbaElement s n = none) : exec .render s = .fault .unspecifiedResponse :=
  okStreamCell_collect_eq_fault _ s hn h

/-- Settles O6, clause by clause: a `⊥` cell makes an element of the response `⊥`; for UNPACK and RENDER
it is that of a pixel unpacked from the `⊥` word. -/
theorem unspecifiedResponseFaults : Obligations.UnspecifiedResponseFaults := by
  refine fun s => ⟨fun _ => exec_palrgb_fault, fun _ => exec_palraw_fault, fun _ => exec_pwrd_fault,
    ?pixel, ?namedEntry, ?planeWord, ?renderEntry⟩
  case pixel =>
    rintro n hn ⟨p, hp, hw⟩
    have hnone := pixIndex_eq_none hp hw
    exact ⟨exec_pix_fault hn (indexElement_eq_none hnone),
      exec_rgba_fault hn (rgbaElement_of_pixIndex_none hnone)⟩
  case namedEntry =>
    intro n r hn hr hpal
    exact exec_rgba_fault hn (rgbaElement_of_palRgb_none hr hpal)
  case planeWord =>
    rintro ⟨a, ha, hw⟩
    obtain ⟨n, p, hn, hp, rfl⟩ := exists_pixel_of_word s ha
    have hnone := pixIndex_eq_none hp hw
    exact ⟨exec_unpack_fault hn (indexElement_eq_none hnone),
      exec_render_fault hn (rgbaElement_of_pixIndex_none hnone)⟩
  case renderEntry =>
    rintro ⟨n, r, hn, hr, hpal⟩
    exact exec_render_fault hn (rgbaElement_of_palRgb_none hr hpal)

end Sys2Proof.Machine
end

section
/-! PROOFS of the state statements (10_state.md): reset, the invariants and every step, who writes which
piece of state, who reads the snapshot. -/

namespace Sys2Proof.Machine

/-! What PALREP's writes and a cancellation leave unchanged, field by field. -/

section FieldLemmas
variable (s : State)

@[simp] theorem State.setPals_mode (i : Nat) (vs : List Half) : (s.setPals i vs).mode = s.mode := by
  rw [State.setPals_frame]
@[simp] theorem State.setPals_snap (i : Nat) (vs : List Half) : (s.setPals i vs).snap = s.snap := by
  rw [State.setPals_frame]
@[simp] theorem State.setPals_pw (i : Nat) (vs : List Half) : (s.setPals i vs).pw = s.pw := by
  rw [State.setPals_frame]
@[simp] theorem State.setPals_stg (i : Nat) (vs : List Half) : (s.setPals i vs).stg = s.stg := by
  rw [State.setPals_frame]
@[simp] theorem State.setPals_slots (i : Nat) (vs : List Half) : (s.setPals i vs).slots = s.slots := by
  rw [State.setPals_frame]

@[simp] theorem State.cancelled_mode (k : Fin 4) : (s.cancelled k).mode = s.mode := by
  rw [State.cancelled_eq]
@[simp] theorem State.cancelled_palRaw (k : Fin 4) : (s.cancelled k).palRaw = s.palRaw := by
  rw [State.cancelled_eq]
@[simp] theorem State.cancelled_palRgb (k : Fin 4) : (s.cancelled k).palRgb = s.palRgb := by
  rw [State.cancelled_eq]
@[simp] theorem State.cancelled_snap (k : Fin 4) : (s.cancelled k).snap = s.snap := by
  rw [State.cancelled_eq]
@[simp] theorem State.cancelled_pw (k : Fin 4) : (s.cancelled k).pw = s.pw := by
  rw [State.cancelled_eq]
@[simp] theorem State.cancelled_stg (k : Fin 4) : (s.cancelled k).stg = s.stg := by
  rw [State.cancelled_eq]

end FieldLemmas

/-- A state with its slots untouched reads every slot as before. -/
theorem State.slot_congr {s t : State} (h : t.slots = s.slots) (k : Fin 4) : t.slot k = s.slot k := by
  rw [State.slot, h, State.slot]

/-! The field ranges of a loaded slot (10_state.md R35, R36). -/

theorem delayMs_range (raw : Half) : -1090117 ≤ delayMs raw ∧ delayMs raw ≤ 2133 := by
  have := raw.isLt
  unfold delayMs
  omega

/-- In an empty range a step ends on one of the two ends (42_color_cycle.md R165). -/
theorem nextPos_of_empty {f : SlotFields} (h : f.right.toNat < f.left.toNat) :
    nextPos f = f.left ∨ nextPos f = f.right := by
  unfold nextPos
  simp only
  split
  · exact .inr rfl
  · rw [if_pos (by omega)]
    exact .inl rfl

theorem FieldsInv.load (d : Desc) (dir : Dir) :
    FieldsInv
      { left := d.left, right := d.right, dir := dir,
        delay := BitVec.ofInt 32 (delayMs d.delayRaw), pos := 0#16,
        len := BitVec.ofInt 32 (rangeLen d.left d.right) } where
  len_eq := rangeLen_toInt d.left d.right
  delay_range := by
    rw [delayMs_toInt]
    exact delayMs_range d.delayRaw
  pos_range := .inl rfl

theorem FieldsInv.arm {f : SlotFields} (h : FieldsInv f) :
    FieldsInv { f with pos := 0#16, len := BitVec.ofInt 32 (rangeLen f.left f.right) } where
  len_eq := rangeLen_toInt f.left f.right
  delay_range := h.delay_range
  pos_range := .inl rfl

theorem FieldsInv.nextPos {f : SlotFields} (h : FieldsInv f) :
    FieldsInv { f with pos := nextPos f } where
  len_eq := h.len_eq
  delay_range := h.delay_range
  pos_range := by
    obtain hlt | hle := Nat.lt_or_ge f.right.toNat f.left.toNat
    · obtain hl | hr := nextPos_of_empty hlt
      · exact .inr (.inl hl)
      · exact .inr (.inr (.inl hr))
    · exact .inr (.inr (.inr (nextPos_range hle)))

/-! The slot invariants (10_state.md R37, R39) through every write of a slot. -/

theorem SlotInv.reset (m : GMode) : SlotInv m Slot.reset where
  anim_on h := nomatch h
  on_loaded h := nomatch h
  handle_anim := rfl
  loaded_fields := rfl
  fields_inv _ h := nomatch h
  on_dir _ h := nomatch h
  on_range _ h := nomatch h

theorem SlotInv.load (m : GMode) (d : Desc) (dir : Dir) : SlotInv m (Slot.load d dir) where
  anim_on h := nomatch h
  on_loaded h := nomatch h
  handle_anim := rfl
  loaded_fields := rfl
  fields_inv := by
    rintro _ ⟨⟩
    exact FieldsInv.load d dir
  on_dir _ h := nomatch h
  on_range _ h := nomatch h

section SlotWrites
variable {m : GMode} {sl : Slot} {f : SlotFields}

/-- The mode matters to a slot that is on alone; that is why MODE answers Busy (40_mode_palette.md
R100). -/
theorem SlotInv.of_off (h : SlotInv m sl) (hoff : sl.on = false) (m' : GMode) : SlotInv m' sl :=
  { h with on_range := fun _ hon => by simp [hoff] at hon }

/-- A slot that is off is not animating, so CCUNLD leaves no schedule behind. -/
theorem SlotInv.unload (h : SlotInv m sl) (hoff : sl.on = false) : SlotInv m sl.unload where
  anim_on := h.anim_on
  on_loaded hon := by simp [hoff] at hon
  handle_anim := h.handle_anim
  loaded_fields := rfl
  fields_inv _ hf := nomatch hf
  on_dir _ _ hf := nomatch hf
  on_range _ _ hf := nomatch hf

/-- CCSTART's checks are what an armed slot has to keep (42_color_cycle.md R160). -/
theorem SlotInv.arm (h : SlotInv m sl) (hl : sl.loaded = true) (hf : sl.fields = some f)
    (hd : f.dir ≠ .still) (hr : 1 ≤ rangeLen f.left f.right → f.right.toNat < (modeDesc m).rc) :
    SlotInv m (sl.arm f) where
  anim_on _ := rfl
  on_loaded _ := hl
  handle_anim := h.handle_anim
  loaded_fields := hl.symm
  fields_inv := by
    rintro _ ⟨⟩
    exact (h.fields_inv f hf).arm
  on_dir := by
    rintro _ - ⟨⟩
    exact hd
  on_range := by
    rintro _ - ⟨⟩ hlen
    rw [rangeLen_toInt] at hlen
    exact hr hlen

theorem SlotInv.animate (h : SlotInv m sl) (hon : sl.on = true) (hd : Handle) :
    SlotInv m (sl.animate hd) :=
  { h with anim_on := fun _ => hon, handle_anim := rfl }

theorem SlotInv.disarm (h : SlotInv m sl) : SlotInv m sl.disarm where
  anim_on ha := nomatch ha
  on_loaded ho := nomatch ho
  handle_anim := rfl
  loaded_fields := h.loaded_fields
  fields_inv := h.fields_inv
  on_dir _ ho := nomatch ho
  on_range _ ho := nomatch ho

/-- A step of the engine writes `pos` alone. -/
theorem SlotInv.nextPos (h : SlotInv m sl) (hf : sl.fields = some f) :
    SlotInv m { sl with fields := some { f with pos := nextPos f } } where
  anim_on := h.anim_on
  on_loaded := h.on_loaded
  handle_anim := h.handle_anim
  loaded_fields := by simpa [hf] using h.loaded_fields
  fields_inv := by
    rintro _ ⟨⟩
    exact (h.fields_inv f hf).nextPos
  on_dir := by
    rintro _ hon ⟨⟩
    exact h.on_dir f hon hf
  on_range := by
    rintro _ hon ⟨⟩
    exact h.on_range f hon hf

/-- The palette range of a slot that is on is empty or lies inside the palette (10_state.md R39). -/
theorem SlotInv.range_le (h : SlotInv m sl) (hon : sl.on = true) (hf : sl.fields = some f) :
    f.len.toInt.toNat = 0 ∨ f.left.toNat + f.len.toInt.toNat ≤ (modeDesc m).rc := by
  have hlen : f.len.toInt = f.right.toNat - f.left.toNat + 1 := (h.fields_inv f hf).len_eq
  by_cases hpos : 1 ≤ f.len.toInt
  · have hright := h.on_range f hon hf hpos
    omega
  · omega

end SlotWrites

/-! The loops over cell files. -/

/-- The writes of a step, for a range that is empty or inside the file: the file stays in canonical
form, and every entry is as before or one of the snapshot's (42_color_cycle.md R165). -/
theorem rotate_wf_and_get (snap : Memory Rgb) {left right n c size : Nat} {pal : Memory Rgb}
    (hn : n = 0 ∨ left + n ≤ size) (h : pal.wf size = true) :
    (rotate snap left right n c pal).1.wf size = true ∧
    ∀ a, (rotate snap left right n c pal).1.get a = pal.get a ∨
      ∃ b, (rotate snap left right n c pal).1.get a = snap.get b := by
  obtain rfl | hle := hn
  · exact ⟨h, fun _ => .inl rfl⟩
  · refine ⟨rotate_wf snap left right n c h hle, fun a => ?_⟩
    exact (forRange_induction
      (P := fun _ (x : Memory Rgb × Nat) =>
        x.1.wf size = true ∧ (x.1.get a = pal.get a ∨ ∃ b, x.1.get a = snap.get b))
      n ⟨h, .inl rfl⟩
      fun k x hk hx => ⟨Memory.wf_write _ (by omega) hx.1, by
        rw [Memory.get_write hx.1]
        split
        · exact .inr ⟨x.2, rfl⟩
        · exact hx.2⟩).2

/-- Clearing leaves an entry as before or makes it `⊥` (40_mode_palette.md R100). -/
theorem get_clearCells_eq_or {α : Type} (n : Nat) (m : Memory α) (a : Nat) :
    (clearCells n m).get a = m.get a ∨ (clearCells n m).get a = none := by
  rw [get_clearCells]
  split
  · exact .inr rfl
  · exact .inl rfl

/-- REILV's writes stay below the end of its scanline block (41_bitplane_codec.md R142, R144). -/
theorem wf_reinterleave {d : ModeDesc} {stg : Memory Byte} {base size : Nat} {pw : Memory Half}
    (hsize : base + stagedWords d * d.p ≤ size) (h : pw.wf size = true) :
    (reinterleave d stg base pw).wf size = true :=
  forRange_induction (P := fun _ (m : Memory Half) => m.wf size = true) _ h fun g _ hg hm =>
    forRange_induction (P := fun _ (m : Memory Half) => m.wf size = true) _ hm fun p _ hp hm' => by
      have hrow : (g + 1) * d.p ≤ stagedWords d * d.p := Nat.mul_le_mul_right d.p hg
      rw [Nat.succ_mul] at hrow
      exact Memory.wf_write _ (by omega) hm'

/-! The invariants of the machine through every write of the state. -/

@[simp] theorem State.slot_reset (k : Fin 4) : State.reset.slot k = Slot.reset := by
  fin_cases k <;> rfl

theorem State.inv_reset : State.reset.Inv where
  palRaw_wf := rfl
  palRgb_wf := rfl
  snap_wf := rfl
  pw_wf := rfl
  stg_wf := rfl
  slots_inv k := by
    rw [State.slot_reset]
    exact SlotInv.reset _

section StateWrites
variable {s : State}

theorem State.Inv.withInput (hs : s.Inv) (rest : List Input) : { s with input := rest }.Inv :=
  { hs with }

theorem State.Inv.send (hs : s.Inv) (o : Output) : (s.send o).Inv := { hs with }

theorem State.Inv.respond (hs : s.Inv) (st : Status) (d : Word) (vs : List Word) :
    (s.respond st d vs).Inv := hs.send _

theorem State.Inv.sched (hs : s.Inv) (k : Fin 4) (ms : Word) : (s.sched k ms).Inv := { hs with }

theorem State.Inv.cancelled (hs : s.Inv) (k : Fin 4) : (s.cancelled k).Inv := by
  rw [State.cancelled_eq]
  exact { hs with }

theorem State.inv_applyReset (s : State) (rest : List Input) : (s.applyReset rest).Inv :=
  { State.inv_reset with }

/-- A slot is written with one that keeps its invariants. -/
theorem State.Inv.setSlot (hs : s.Inv) {k : Fin 4} {sl : Slot} (h : SlotInv s.mode sl) :
    (s.setSlot k sl).Inv :=
  { hs with
    slots_inv := fun j => by
      rw [State.slot_setSlot]
      split
      · exact h
      · exact hs.slots_inv j }

/-- MODE, while no slot is on (40_mode_palette.md R100). -/
theorem State.Inv.setMode (hs : s.Inv) (hoff : s.anyOn = false) (m : GMode) :
    { s.clearPalette with mode := m }.Inv :=
  { hs with
    palRaw_wf := wf_clearCells _ hs.palRaw_wf
    palRgb_wf := wf_clearCells _ hs.palRgb_wf
    slots_inv := fun k => (hs.slots_inv k).of_off (s.anyOn_false_iff.mp hoff k) m }

theorem State.Inv.setPals (hs : s.Inv) {i : Nat} {vs : List Half} (h : i + vs.length ≤ s.desc.rc) :
    (s.setPals i vs).Inv := by
  obtain ⟨hraw, hrgb⟩ :=
    s.setPals_wf i vs (h.trans s.rc_le) hs.palRaw_wf hs.palRgb_wf
  rw [State.setPals_frame]
  exact { hs with palRaw_wf := hraw, palRgb_wf := hrgb }

theorem State.Inv.setPal (hs : s.Inv) {i : Nat} (h : i < s.desc.rc) (v : Half) : (s.setPal i v).Inv :=
  hs.setPals (vs := [v]) h

theorem State.Inv.writePw (hs : s.Inv) {a : Nat} (h : a < 16000) (c : Cell Half) :
    (s.writePw a c).Inv :=
  { hs with pw_wf := Memory.wf_write c h hs.pw_wf }

theorem State.Inv.writeStg (hs : s.Inv) {b : Nat} (h : b < 160) (c : Cell Byte) :
    (s.writeStg b c).Inv :=
  { hs with stg_wf := Memory.wf_write c h hs.stg_wf }

/-- REILV of a scanline block that lies in the buffer (41_bitplane_codec.md R144). -/
theorem State.Inv.reinterleave (hs : s.Inv) {y : Nat} (hy : y < 200) :
    { s with pw := reinterleave s.desc s.stg (y * 80) s.pw }.Inv := by
  have h80 : stagedWords s.desc * s.desc.p = 80 := stagedWords_mul_planes s.mode
  exact { hs with pw_wf := wf_reinterleave (by rw [h80, pwWords_eq]; omega) hs.pw_wf }

theorem State.Inv.loadSlots (hs : s.Inv) (d : Quad Desc) (q : Quad Dir) :
    { s with slots := ⟨Slot.load d.s0 q.s0, Slot.load d.s1 q.s1, Slot.load d.s2 q.s2,
                       Slot.load d.s3 q.s3⟩ }.Inv :=
  { hs with slots_inv := fun k => by fin_cases k <;> exact SlotInv.load _ _ _ }

theorem State.Inv.unloadSlots (hs : s.Inv) (hoff : s.anyOn = false) :
    { s with slots := Quad.map Slot.unload s.slots }.Inv :=
  { hs with
    slots_inv := fun k => by
      rw [State.slot, Quad.get_map]
      exact (hs.slots_inv k).unload (s.anyOn_false_iff.mp hoff k) }

theorem State.Inv.takeSnapshot (hs : s.Inv) : s.takeSnapshot.Inv :=
  { hs with snap_wf := wf_copyCells s.rc_le s.palRgb hs.snap_wf }

theorem State.Inv.restorePalette (hs : s.Inv) : s.restorePalette.Inv :=
  { hs with palRgb_wf := wf_copyCells s.rc_le s.snap hs.palRgb_wf }

/-- An animating slot is on, so CCTICK steps a slot that is on, as CCSTEP does. -/
theorem State.Inv.on_of_anim (hs : s.Inv) {k : Fin 4} (h : (s.slot k).anim = true) :
    (s.slot k).on = true := (hs.slots_inv k).anim_on h

/-- A step of a slot that is on writes inside the palette, from the snapshot
(42_color_cycle.md R165). -/
theorem State.Inv.cycleStep_palRgb (hs : s.Inv) {k : Fin 4} {f : SlotFields}
    (hon : (s.slot k).on = true) (hf : (s.slot k).fields = some f) :
    (s.cycleStep k f).palRgb.wf 16 = true ∧
    ∀ a, (s.cycleStep k f).palRgb.get a = s.palRgb.get a ∨
      ∃ b, (s.cycleStep k f).palRgb.get a = s.snap.get b :=
  rotate_wf_and_get s.snap
    (((hs.slots_inv k).range_le hon hf).imp_right fun h => h.trans s.rc_le) hs.palRgb_wf

theorem State.Inv.cycleStep (hs : s.Inv) {k : Fin 4} {f : SlotFields} (hon : (s.slot k).on = true)
    (hf : (s.slot k).fields = some f) : (s.cycleStep k f).Inv :=
  { hs with
    palRgb_wf := (hs.cycleStep_palRgb hon hf).1
    slots_inv := fun j => by
      rw [State.slot_cycleStep]
      split
      · exact (hs.slots_inv k).nextPos hf
      · exact hs.slots_inv j }

end StateWrites

/-- Every command keeps the invariants. -/
theorem Ends.keeps_inv {i : Instr} {s t : State} (h : Ends s i t) (hs : s.Inv) : t.Inv := by
  cases h with
  | turnedAway => exact hs.respond ..
  | read => exact hs.respond ..
  | mode id hoff => exact (hs.setMode hoff _).respond ..
  | palrep vs hlen => exact (hs.setPals (by omega)).respond ..
  | palset i v hi => exact (hs.setPal hi v).respond ..
  | pwwr a v ha => exact (hs.writePw ha _).respond ..
  | stagew b v hb => exact (hs.writeStg hb _).respond ..
  | reilv y hy => exact (hs.reinterleave hy).respond ..
  | ccload d q => exact (hs.loadSlots d q).respond ..
  | ccunld hoff => exact (hs.unloadSlots hoff).respond ..
  | ccstart a ha f hl hf hd hr =>
    exact (hs.takeSnapshot.setSlot ((hs.slots_inv _).arm hl hf hd hr)).respond ..
  | ccanim a ha f hon hf =>
    refine (((hs.cancelled _).sched _ _).setSlot ?_).respond ..
    rw [State.sched_mode, State.cancelled_mode]
    exact (hs.slots_inv _).animate hon _
  | ccstep a ha f hon hf => exact (hs.cycleStep hon hf).respond ..
  | cctick a ha f hanim hf => exact (hs.cycleStep (hs.on_of_anim hanim) hf).respond ..
  | ccstop a ha =>
    refine ((hs.cancelled _).restorePalette.setSlot ?_).respond ..
    rw [State.restorePalette_mode, State.cancelled_mode]
    exact (hs.slots_inv _).disarm

theorem exec_keeps_inv {i : Instr} {s t : State} (hs : s.Inv) (h : exec i s = .next t) : t.Inv :=
  (exec_next h).keeps_inv hs

/-- Words that are no command get a response and nothing else (60_exceptions.md R202). -/
theorem rejectWords_next {e : DecodeError} {s t : State} (h : rejectWords e s = .next t) :
    ∃ st d, t = s.respond st d [] := by
  cases e with
  | badOpcode op => exact ⟨.badOpcode, _, (Host.Outcome.next.inj h).symm⟩
  | reservedField j => exact ⟨.reservedField, _, (Host.Outcome.next.inj h).symm⟩

/-- Everything a step that completes can be: waiting, a RESET, a command, a rejected transaction. -/
theorem step_next {s t : State} (h : step s = .next t) :
    t = s ∨ (∃ rest, t = s.applyReset rest) ∨
    (∃ i rest, exec i { s with input := rest } = .next t) ∨
    ∃ rest st d, t = { s with input := rest }.respond st d [] := by
  unfold step at h
  split at h
  case h_1 => exact .inl (Host.Outcome.next.inj h).symm
  case h_2 rest _ => exact .inr (.inl ⟨rest, (Host.Outcome.next.inj h).symm⟩)
  case h_3 => nomatch h
  case h_4 cw ds rest _ =>
    split at h
    case h_1 i _ => exact .inr (.inr (.inl ⟨i, rest, h⟩))
    case h_2 e _ =>
      obtain ⟨st, d, ht⟩ := rejectWords_next h
      exact .inr (.inr (.inr ⟨rest, st, d, ht⟩))

/-- Settles O3: waiting and a rejected transaction touch nothing the invariants speak of, RESET gives
the reset values, and every command keeps them (`Ends.keeps_inv`). -/
theorem stepKeepsInvariants : Obligations.StepKeepsInvariants := by
  intro s t hs h
  obtain rfl | ⟨rest, rfl⟩ | ⟨i, rest, h⟩ | ⟨rest, st, d, rfl⟩ := step_next h
  · exact hs
  · exact s.inv_applyReset rest
  · exact exec_keeps_inv (hs.withInput rest) h
  · exact (hs.withInput rest).respond st d []

/-- Settles O4: `exec_endsIn` says which slot such a read needs, one with a flag set and its fields
`⊥`, and the invariants exclude it. -/
theorem slotFieldsNeverReadUnspecified : Obligations.SlotFieldsNeverReadUnspecified := by
  intro i s hs hfault
  obtain ⟨t, ht, -⟩ | ⟨-, hread⟩ | ⟨-, k, hnone, hflag⟩ := exec_endsIn i s
  · nomatch hfault.symm.trans ht
  · nomatch hfault.symm.trans hread
  · exact (hs.slots_inv k).fields_ne_none hflag hnone

/-! Who writes what: the commands that change a piece of state, and what they leave there. -/

section Writers
variable {i : Instr} {s t : State}

theorem Ends.mode_writers (h : Ends s i t) :
    t.mode = s.mode ∨ ((∃ id, i = .mode id) ∧ s.anyOn = false) := by
  cases h with
  | mode id hoff => exact .inr ⟨⟨id, rfl⟩, hoff⟩
  | _ => exact .inl (by simp)

theorem Ends.palRaw_writers (h : Ends s i t) (j : Nat) :
    t.palRaw.get j = s.palRaw.get j ∨ (∃ vs, i = .palrep vs) ∨ (∃ a v, i = .palset a v) ∨
    (∃ id, i = .mode id ∧ t.palRaw.get j = none) := by
  cases h with
  | palrep vs => exact .inr (.inl ⟨vs, rfl⟩)
  | palset a v => exact .inr (.inr (.inl ⟨a, v, rfl⟩))
  | mode id =>
    exact (get_clearCells_eq_or 16 s.palRaw j).imp_right fun hn => .inr (.inr ⟨id, rfl, hn⟩)
  | _ => exact .inl (by simp)

/-- PALREP writes an entry's two halves together (10_state.md R26). -/
theorem State.setPals_palRgb_derive (s : State) (i : Nat) (vs : List Half) (j : Nat) :
    (s.setPals i vs).palRgb.get j = s.palRgb.get j ∨
    (s.setPals i vs).palRgb.get j = ((s.setPals i vs).palRaw.get j).map derive := by
  rw [State.setPals_palRgb, State.setPals_palRaw]
  split
  · exact .inr rfl
  · exact .inl rfl

theorem Ends.palRgb_writers (h : Ends s i t) (hs : s.Inv) (j : Nat) :
    t.palRgb.get j = s.palRgb.get j ∨
    (((∃ vs, i = .palrep vs) ∨ (∃ a v, i = .palset a v)) ∧
      t.palRgb.get j = (t.palRaw.get j).map derive) ∨
    ((∃ a, i = .ccstep a ∨ i = .cctick a ∨ i = .ccstop a) ∧
      ∃ c, t.palRgb.get j = s.snap.get c) ∨
    (∃ id, i = .mode id ∧ t.palRgb.get j = none) := by
  cases h with
  | palrep vs =>
    exact (s.setPals_palRgb_derive 0 vs j).imp_right fun hd => .inl ⟨.inl ⟨vs, rfl⟩, hd⟩
  | palset a v =>
    exact (s.setPals_palRgb_derive a.toNat [v] j).imp_right fun hd => .inl ⟨.inr ⟨a, v, rfl⟩, hd⟩
  | ccstep a ha f hon hf =>
    exact ((hs.cycleStep_palRgb hon hf).2 j).imp_right fun hc => .inr (.inl ⟨⟨a, .inl rfl⟩, hc⟩)
  | cctick a ha f hanim hf =>
    exact ((hs.cycleStep_palRgb (hs.on_of_anim hanim) hf).2 j).imp_right fun hc =>
      .inr (.inl ⟨⟨a, .inr (.inl rfl)⟩, hc⟩)
  | ccstop a ha =>
    have hget := get_copyCells (s.cancelled ⟨a.toNat, ha⟩).rc_le s.snap hs.palRgb_wf j
    simp only [State.respond_palRgb, State.setSlot_palRgb, State.restorePalette_palRgb,
      State.cancelled_snap, State.cancelled_palRgb, hget]
    split
    · exact .inr (.inr (.inl ⟨⟨a, .inr (.inr rfl)⟩, j, rfl⟩))
    · exact .inl rfl
  | mode id =>
    exact (get_clearCells_eq_or 16 s.palRgb j).imp_right fun hn => .inr (.inr ⟨id, rfl, hn⟩)
  | _ => exact .inl (by simp)

theorem Ends.snap_writers (h : Ends s i t) (hs : s.Inv) (j : Nat) :
    t.snap.get j = s.snap.get j ∨
    ((∃ a, i = .ccstart a) ∧ j < s.desc.rc ∧ t.snap.get j = s.palRgb.get j) := by
  cases h with
  | ccstart a =>
    have hget := get_copyCells s.rc_le s.palRgb hs.snap_wf j
    split at hget
    · exact .inr ⟨⟨a, rfl⟩, ‹_›, hget⟩
    · exact .inl hget
  | _ => exact .inl (by simp)

theorem Ends.pw_writers (h : Ends s i t) :
    t.pw = s.pw ∨ (∃ a v, i = .pwwr a v) ∨ ∃ y, i = .reilv y := by
  cases h with
  | pwwr a v => exact .inr (.inl ⟨a, v, rfl⟩)
  | reilv y => exact .inr (.inr ⟨y, rfl⟩)
  | _ => exact .inl (by simp)

theorem Ends.stg_writers (h : Ends s i t) : t.stg = s.stg ∨ ∃ b v, i = .stagew b v := by
  cases h with
  | stagew b v => exact .inr ⟨b, v, rfl⟩
  | _ => exact .inl (by simp)

theorem Ends.slots_writers (h : Ends s i t) : t.slots = s.slots ∨ i.isCycle = true := by
  cases h with
  | ccload | ccunld | ccstart | ccanim | ccstep | cctick | ccstop => exact .inr rfl
  | _ => exact .inl (by simp)

end Writers

/-- Settles O10: of all commands only MODE writes the mode, behind its Busy check. -/
theorem modeWrittenOnlyByMode : Obligations.ModeWrittenOnlyByMode := by
  refine ⟨fun m => by cases m <;> decide, fun i s t h hne => ?_⟩
  obtain ⟨hmode, hoff⟩ := (exec_next h).mode_writers.resolve_left hne
  exact ⟨hmode, s.anyOn_false_iff.mp hoff⟩

/-- Settles O11, from the writers of each half of an entry. -/
theorem paletteWriters : Obligations.PaletteWriters := fun _ _ _ hs h j =>
  ⟨((exec_next h).palRaw_writers j).resolve_left, ((exec_next h).palRgb_writers hs j).resolve_left⟩

/-- Settles O12, from the writers of the snapshot. -/
theorem snapshotWriters : Obligations.SnapshotWriters := fun _ _ _ hs h j =>
  ((exec_next h).snap_writers hs j).resolve_left

/-- Settles O14, from the writers of the two buffers. -/
theorem bufferWriters : Obligations.BufferWriters := fun _ _ _ h =>
  ⟨(exec_next h).pw_writers.resolve_left, (exec_next h).stg_writers.resolve_left⟩

/-- Settles O15: a command that is no color-cycle command leaves all four slots as they are. -/
theorem slotsWrittenOnlyByCycleCommands : Obligations.SlotsWrittenOnlyByCycleCommands :=
  fun _ _ _ h k hne => (exec_next h).slots_writers.resolve_left fun hs => hne (State.slot_congr hs k)

/-! Who reads the snapshot. A command is built from the checks and ends of Ops.lean; each of them passes
on that the snapshot is not read. -/

/-- When the first outcome completes, so does the second, and the two end alike outside SNAP. -/
def SameOutsideSnap (r r' : Result) : Prop :=
  ∀ t, r = .next t → ∃ u, r' = .next u ∧ u = { t with snap := u.snap }

namespace SameOutsideSnap

theorem next {t u : State} (h : u = { t with snap := u.snap }) :
    SameOutsideSnap (.next t) (.next u) := by
  rintro _ ⟨⟩
  exact ⟨u, rfl, h⟩

theorem fault (e : Fault) (r' : Result) : SameOutsideSnap (.fault e) r' := fun _ h => nomatch h

theorem ite {c : Prop} [Decidable c] {a b a' b' : Result} (ha : SameOutsideSnap a a')
    (hb : SameOutsideSnap b b') : SameOutsideSnap (if c then a else b) (if c then a' else b') := by
  split
  · exact ha
  · exact hb

theorem okCell (c : Cell Word) (s : State) (m : Memory Rgb) :
    SameOutsideSnap (okCell c s) (okCell c { s with snap := m }) := by
  cases c with
  | none => exact fault _ _
  | some d => exact next rfl

theorem okStreamCell (d : Word) (c : Cell (List Word)) (s : State) (m : Memory Rgb) :
    SameOutsideSnap (okStreamCell d c s) (okStreamCell d c { s with snap := m }) := by
  cases c with
  | none => exact fault _ _
  | some vs => exact next rfl

theorem unlessBusy {s : State} {m : Memory Rgb} {r r' : Result} (h : SameOutsideSnap r r') :
    SameOutsideSnap (unlessBusy s r) (unlessBusy { s with snap := m } r') := ite (next rfl) h

theorem withSlot {a : Byte} {s : State} {m : Memory Rgb} {k k' : Fin 4 → Result}
    (h : ∀ n, SameOutsideSnap (k n) (k' n)) :
    SameOutsideSnap (withSlot a s k) (withSlot a { s with snap := m } k') := by
  obtain ha | ha := Nat.lt_or_ge a.toNat 4
  · rw [withSlot_of_lt ha, withSlot_of_lt ha]
    exact h _
  · rw [withSlot_of_ge ha, withSlot_of_ge ha]
    exact next rfl

theorem withFields {sl : Slot} {k k' : SlotFields → Result} (h : ∀ f, SameOutsideSnap (k f) (k' f)) :
    SameOutsideSnap (withFields sl k) (withFields sl k') := by
  cases hf : sl.fields with
  | none =>
    rw [withFields_none hf]
    exact fault _ _
  | some f =>
    rw [withFields_some hf, withFields_some hf]
    exact h f

end SameOutsideSnap

theorem State.setPals_withSnap (s : State) (m : Memory Rgb) (i : Nat) (vs : List Half) :
    { s with snap := m }.setPals i vs = { s.setPals i vs with snap := m } := by
  induction vs generalizing s i with
  | nil => rfl
  | cons v vs ih => exact ih (s.setPal i v) (i + 1)

theorem State.cancelled_withSnap (s : State) (m : Memory Rgb) (k : Fin 4) :
    { s with snap := m }.cancelled k = { s.cancelled k with snap := m } := by
  rw [State.cancelled_eq, State.cancelled_eq]
  rfl

theorem execCcload_sameOutsideSnap (d : Quad Desc) (s : State) (m : Memory Rgb) :
    SameOutsideSnap (execCcload d s) (execCcload d { s with snap := m }) := by
  refine .unlessBusy ?_
  cases decodeDir d.s0.dirRaw with
  | none => exact .next rfl
  | some d0 =>
    cases decodeDir d.s1.dirRaw with
    | none => exact .next rfl
    | some d1 =>
      cases decodeDir d.s2.dirRaw with
      | none => exact .next rfl
      | some d2 =>
        cases decodeDir d.s3.dirRaw with
        | none => exact .next rfl
        | some d3 => exact .next rfl

/-- CCSTART overwrites entries of the snapshot without reading them (42_color_cycle.md R160). -/
theorem execCcstart_sameOutsideSnap (a : Byte) (s : State) (m : Memory Rgb) :
    SameOutsideSnap (execCcstart a s) (execCcstart a { s with snap := m }) := by
  unfold execCcstart
  refine .withSlot fun _ => .ite (.next rfl) (.withFields fun _ => ?_)
  exact .ite (.next rfl) (.ite (.next rfl) (.next rfl))

theorem execCcanim_sameOutsideSnap (a : Byte) (s : State) (m : Memory Rgb) :
    SameOutsideSnap (execCcanim a s) (execCcanim a { s with snap := m }) := by
  unfold execCcanim
  refine .withSlot fun _ => .ite (.next rfl) (.withFields fun _ => .next ?_)
  rw [State.cancelled_withSnap]
  rfl

theorem execCcstat_sameOutsideSnap (a : Byte) (q : BitVec 2) (s : State) (m : Memory Rgb) :
    SameOutsideSnap (execCcstat a q s) (execCcstat a q { s with snap := m }) := by
  unfold execCcstat
  exact .withSlot fun _ => .ite (.next rfl) (.withFields fun _ => .next rfl)

theorem exec_sameOutsideSnap {i : Instr} (s : State) (m : Memory Rgb)
    (hi : ∀ a, i ≠ .ccstep a ∧ i ≠ .cctick a ∧ i ≠ .ccstop a) :
    SameOutsideSnap (exec i s) (exec i { s with snap := m }) := by
  cases i with
  | mode id => exact .unlessBusy (.next rfl)
  | modeq => exact .next rfl
  | palrep vs =>
    refine .ite (.next rfl) (.next ?_)
    rw [State.setPals_withSnap]
    rfl
  | palset i v => exact .ite (.next rfl) (.next rfl)
  | palrgb i => exact .ite (.next rfl) (.okCell _ s m)
  | palraw i => exact .ite (.next rfl) (.okCell _ s m)
  | pwwr a v => exact .ite (.next rfl) (.next rfl)
  | pwrd a => exact .ite (.next rfl) (.okCell _ s m)
  | stagew b v => exact .ite (.next rfl) (.next rfl)
  | reilv y => exact .ite (.next rfl) (.next rfl)
  | pix n => exact .ite (.next rfl) (.okCell _ s m)
  | rgba n => exact .ite (.next rfl) (.okCell _ s m)
  | unpack => exact .okStreamCell _ _ s m
  | render => exact .okStreamCell _ _ s m
  | ccload d => exact execCcload_sameOutsideSnap d s m
  | ccunld => exact .unlessBusy (.next rfl)
  | ccstart a => exact execCcstart_sameOutsideSnap a s m
  | ccanim a => exact execCcanim_sameOutsideSnap a s m
  | ccstep a => exact absurd rfl (hi a).1
  | cctick a => exact absurd rfl (hi a).2.1
  | ccstop a => exact absurd rfl (hi a).2.2
  | ccstat a q => exact execCcstat_sameOutsideSnap a q s m

/-- Settles O13: every command but the three is built from parts that do not read the snapshot. -/
theorem snapshotReadOnlyByStepAndStop : Obligations.SnapshotReadOnlyByStepAndStop :=
  fun _ s t m hi h => exec_sameOutsideSnap s m hi t h

/-! Reset and the mode table. -/

/-- Settles O1: no cell is listed at reset, and every slot is `Slot.reset`. -/
theorem resetStateValues : Obligations.ResetStateValues := by
  refine ⟨rfl, fun _ => ⟨rfl, rfl, rfl⟩, fun _ => rfl, fun _ => rfl, fun k => ?_⟩
  rw [State.slot_reset]
  exact ⟨rfl, rfl, rfl, rfl, rfl⟩

/-- Settles O2: empty files are in canonical form, and a slot after reset keeps every invariant. -/
theorem resetHasInvariants : Obligations.ResetHasInvariants := State.inv_reset

/-- Settles O27, mode by mode. -/
theorem modeTableUsesWholeBuffer : Obligations.ModeTableUsesWholeBuffer := by
  refine ⟨rfl, rfl, rfl, fun m => ?_⟩
  cases m with
  | mode0 => decide
  | mode1 => decide
  | mode2 => decide

end Sys2Proof.Machine
end

section
/-! PROOFS of the memory statements (20_memory.md): a step performs what it decodes, a read leaves nothing
behind but its response, the bits of a pixel's color index, a read behind a write. -/

namespace Sys2Proof.Machine

/-! The step. -/

/-- Settles O24: the two matches of `step`, resolved by the fetch and by the decoding. -/
theorem stepRunsDecoded : Obligations.StepRunsDecoded := by
  intro s cw ds rest i hfetch hdecode
  unfold step
  rw [hfetch]
  dsimp only
  rw [hdecode]

/-! Reads (20_memory.md R61). What a read answers does not depend on what was sent before it, so the
state a read leaves, in which one more response has been sent, gives the same answer. -/

/-- The outcomes `R` of a computation, one for each record of what was sent before in `s`, are all the
sending of the same one response, or all the same fault. -/
inductive AnswersAlike (s : State) (R : List Output → Result) : Prop where
  | response (r : Response) (h : ∀ o, R o = .next { s with out := o ++ [.response r] })
  | fault (e : Fault) (h : ∀ o, R o = .fault e)

namespace AnswersAlike

variable {s : State}

theorem respond (st : Status) (d : Word) (vs : List Word) :
    AnswersAlike s fun o => .next ({ s with out := o }.respond st d vs) := .response _ fun _ => rfl

theorem okCell (c : Cell Word) : AnswersAlike s fun o => okCell c { s with out := o } := by
  cases c with
  | none => exact .fault _ fun _ => rfl
  | some d => exact respond .ok d []

theorem okStreamCell (d : Word) (c : Cell (List Word)) :
    AnswersAlike s fun o => okStreamCell d c { s with out := o } := by
  cases c with
  | none => exact .fault _ fun _ => rfl
  | some vs => exact respond .ok d vs

theorem ite {c : Prop} [Decidable c] {R R' : List Output → Result} (h : AnswersAlike s R)
    (h' : AnswersAlike s R') : AnswersAlike s fun o => if c then R o else R' o := by
  by_cases hc : c
  · simpa only [if_pos hc] using h
  · simpa only [if_neg hc] using h'

/-- The commands that read one cell. -/
theorem readCell (bound n : Nat) (d : Word) (c : Cell Word) :
    AnswersAlike s fun o =>
      if bound ≤ n then raise .indexOutOfRange d { s with out := o }
      else Machine.okCell c { s with out := o } := ite (respond ..) (okCell c)

theorem withSlot {a : Byte} {K : List Output → Fin 4 → Result}
    (h : ∀ k, AnswersAlike s fun o => K o k) :
    AnswersAlike s fun o => withSlot a { s with out := o } (K o) := by
  obtain ha | ha := Nat.lt_or_ge a.toNat 4
  · simpa only [withSlot_of_lt ha] using h ⟨a.toNat, ha⟩
  · simpa only [withSlot_of_ge ha] using respond ..

theorem withFields {sl : Slot} {K : List Output → SlotFields → Result}
    (h : ∀ f, AnswersAlike s fun o => K o f) : AnswersAlike s fun o => withFields sl (K o) := by
  cases hf : sl.fields with
  | none => simpa only [withFields_none hf] using .fault _ fun _ => rfl
  | some f => simpa only [withFields_some hf] using h f

end AnswersAlike

/-- Each of the nine read commands is built from checks and ends that do not look at what was sent. -/
theorem exec_answersAlike {i : Instr} (hi : i.onlyReads = true) (s : State) :
    AnswersAlike s fun o => exec i { s with out := o } := by
  cases i with
  | pwrd a => exact .readCell 16000 a.toNat _ ((s.pw.get a.toNat).map (·.setWidth 32))
  | pix n => exact .readCell (s.desc.w * s.desc.h) n.toNat _ (indexElement s n.toNat)
  | rgba n => exact .readCell (s.desc.w * s.desc.h) n.toNat _ (rgbaElement s n.toNat)
  | unpack =>
    exact .okStreamCell (BitVec.ofNat 32 (s.desc.w * s.desc.h))
      (collect (indexElement s) (s.desc.w * s.desc.h) 0)
  | render =>
    exact .okStreamCell (BitVec.ofNat 32 (s.desc.w * s.desc.h))
      (collect (rgbaElement s) (s.desc.w * s.desc.h) 0)
  | palrgb j => exact .readCell s.desc.rc j.toNat _ ((s.palRgb.get j.toNat).map packRgb)
  | palraw j => exact .readCell s.desc.rc j.toNat _ ((s.palRaw.get j.toNat).map (·.setWidth 32))
  | modeq => exact .respond .ok (packModeDesc s.mode) []
  | ccstat a q =>
    exact .withSlot (a := a) fun k => .ite (c := (s.slot k).loaded = false) (.respond .ok 0#32 [])
      (.withFields (sl := s.slot k) fun f => .respond .ok (packSlot (s.slot k) f q) [])
  | mode _ | palrep _ | palset _ _ | pwwr _ _ | stagew _ _ | reilv _ | ccload _ | ccunld | ccstart _
  | ccanim _ | ccstep _ | ccstop _ | cctick _ => nomatch hi

/-- Settles O9: the response r that is sent whatever was sent before is the one sent in s, and again in
the state after. -/
theorem readsChangeNothing : Obligations.ReadsChangeNothing := by
  intro i s t hi h
  obtain ⟨r, hr⟩ | ⟨e, he⟩ := exec_answersAlike hi s
  · obtain rfl : { s with out := s.out ++ [.response r] } = t :=
      Host.Outcome.next.inj ((hr s.out).symm.trans h)
    exact ⟨r, rfl, hr _⟩
  · nomatch (he s.out).symm.trans h

/-! The color index of a pixel (41_bitplane_codec.md R120). -/

/-- A row is a whole number of groups of 16 pixels (10_state.md R20, R21). -/
theorem modeDesc_w_dvd (m : GMode) : 16 ∣ (modeDesc m).w := by
  cases m <;> decide

/-- The colors of a mode are the values of P bits (10_state.md R20, R21). -/
theorem modeDesc_rc (m : GMode) : (modeDesc m).rc = 2 ^ (modeDesc m).p := by
  cases m <;> rfl

/-- The group of the pixel at column x, row y, and its place in the group, when a row is a whole number of
groups. -/
theorem pixel_group {w : Nat} (hw : 16 ∣ w) (x y : Nat) :
    (y * w + x) / 16 = y * (w / 16) + x / 16 ∧ (y * w + x) % 16 = x % 16 := by
  obtain ⟨k, rfl⟩ := hw
  rw [Nat.mul_left_comm, Nat.mul_div_cancel_left k (by decide)]
  exact ⟨Nat.mul_add_div (by decide) .., Nat.mul_add_mod ..⟩

/-- Settles O30: `pixIndex_spec` at the pixel's group and its place in the group. -/
theorem pixelIndexBits : Obligations.PixelIndexBits := by
  intro m pw x y _ _ hwords
  obtain ⟨hgroup, hplace⟩ := pixel_group (modeDesc_w_dvd m) x y
  rw [← hgroup] at hwords ⊢
  rw [modeDesc_rc, ← hplace]
  obtain ⟨r, hr, hlt, hbits⟩ := pixIndex_spec hwords
  exact ⟨r, hr, hlt, fun p w hp => hbits p hp w⟩

/-- A color index that is not `⊥` holds, in bit p, the pixel's bit of its plane-p word: none of its words
is `⊥`. -/
theorem testBit_of_pixIndex_eq_some {d : ModeDesc} {pw : Memory Half} {n r p : Nat} {w : Half}
    (h : pixIndex d pw n = some r) (hp : p < d.p) (hw : pw.get (n / 16 * d.p + p) = some w) :
    r.testBit p = w.getLsbD (15 - n % 16) := by
  have hwords : ∀ q, q < d.p → (pw.get (n / 16 * d.p + q)).isSome = true := fun q hq => by
    rw [Option.isSome_iff_ne_none]
    intro hnone
    rw [pixIndex_eq_none hq hnone] at h
    nomatch h
  obtain ⟨r', hr', -, hbits⟩ := pixIndex_spec hwords
  obtain rfl : r' = r := Option.some.inj (hr'.symm.trans h)
  exact hbits p hp w hw

/-! A read behind a write (20_memory.md R64). -/

/-- A command that reads one accessible cell answers its value. -/
theorem readCell_eq_next {n bound : Nat} {c : Cell Word} {d v : Word} {s : State} {r : Result}
    (h : r = if bound ≤ n then raise .indexOutOfRange d s else okCell c s) (hn : n < bound)
    (hc : c = some v) : r = .next (s.respond .ok v []) := by
  rw [h, if_neg (Nat.not_le_of_lt hn), hc, okCell_some]

theorem exec_pwrd_of_get {s : State} {a : Addr} {v : Half} (ha : a.toNat < 16000)
    (h : s.pw.get a.toNat = some v) :
    exec (.pwrd a) s = .next (s.respond .ok (v.setWidth 32) []) :=
  readCell_eq_next rfl ha (by rw [h]; rfl)

theorem exec_pix_of_pixIndex {s : State} {n : Addr} {r : Nat} (hn : n.toNat < s.desc.w * s.desc.h)
    (h : pixIndex s.desc s.pw n.toNat = some r) :
    exec (.pix n) s = .next (s.respond .ok (BitVec.ofNat 32 r) []) :=
  readCell_eq_next rfl hn (by rw [indexElement, h]; rfl)

theorem exec_pwwr_of_lt {a : Addr} (ha : a.toNat < 16000) (v : Half) (s : State) :
    exec (.pwwr a v) s = .next ((s.writePw a.toNat (some v)).respond .ok 0#32 []) :=
  if_neg (Nat.not_le_of_lt ha)

/-- Settles O58: the state after the PWWR holds v at a, and PWRD and PIX read that state. -/
theorem laterCommandsSeeWrites : Obligations.LaterCommandsSeeWrites := by
  intro a v s t ha h
  obtain rfl := Host.Outcome.next.inj ((exec_pwwr_of_lt ha v s).symm.trans h)
  have hget : (s.pw.write a.toNat (some v)).get a.toNat = some v := by
    rw [Memory.get_write_some, if_pos rfl]
  refine ⟨exec_pwrd_of_get ha hget, fun n r p hn hp hword hr => ?_⟩
  exact ⟨exec_pix_of_pixIndex hn hr, testBit_of_pixIndex_eq_some hr hp (hword ▸ hget)⟩

end Sys2Proof.Machine
end

section
/-! PROOFS of the encoding statements (30_encoding.md R70 to R79): the words of a row, encoding and
decoding as inverses, what the decoder rejects, the one response of a command. -/

namespace Sys2Proof

/-! The words of a row (30_encoding.md R74, R75). -/

/-- `cw` is a command word of row o: it has the row's opcode and passes the row's mask. -/
structure RowWord (o : Op) (cw : Word) : Prop where
  op : opField cw = opCode o
  mask : cw &&& opMask o = opMatch o

/-- Every mask covers the opcode; what it covers of `a8` and of `imm16` are its own two fields. -/
theorem opMask_eq_append (o : Op) :
    opMask o = (0xFF#8 ++ a8Field (opMask o) ++ imm16Field (opMask o) : BitVec (8 + 8 + 16)) := by
  cases o <;> rfl

/-- The mask, field by field: the masked bits of `a8` and of `imm16` are 0. -/
theorem rowWord_iff {o : Op} {cw : Word} :
    RowWord o cw ↔ opField cw = opCode o ∧ a8Field cw &&& a8Field (opMask o) = 0#8 ∧
      imm16Field cw &&& imm16Field (opMask o) = 0#16 := by
  constructor
  · rintro ⟨hop, hmask⟩
    exact ⟨hop, fields_of_mask hop (opMask_eq_append o) hmask⟩
  · rintro ⟨hop, ha, hi⟩
    have hmask := formatS_mask (a8Field cw) (imm16Field cw) (opMask_eq_append o) ha hi
    rw [formatS_of_fields hop] at hmask
    exact ⟨hop, hmask⟩

theorem rowWord_formatS {o : Op} {a : Byte} {imm : Half} (ha : a &&& a8Field (opMask o) = 0#8)
    (hi : imm &&& imm16Field (opMask o) = 0#16) : RowWord o (formatS o a imm) :=
  rowWord_iff.mpr ⟨opField_formatS .., by rwa [a8Field_formatS], by rwa [imm16Field_formatS]⟩

theorem rowWord_formatL {o : Op} (a : Addr) (hm : opMask o = 0xFF000000#32) :
    RowWord o (formatL o a) := ⟨opField_formatL .., formatL_mask a hm⟩

namespace RowWord

variable {o : Op} {cw : Word}

/-- A row with no operand has one word. -/
theorem formatS_zero (h : RowWord o cw) (ha : a8Field (opMask o) = BitVec.allOnes 8)
    (hi : imm16Field (opMask o) = BitVec.allOnes 16) : formatS o 0#8 0#16 = cw := by
  obtain ⟨hop, ha0, hi0⟩ := rowWord_iff.mp h
  rw [ha, BitVec.and_allOnes] at ha0
  rw [hi, BitVec.and_allOnes] at hi0
  rw [← formatS_of_fields hop, ha0, hi0]

/-- A row with an operand in `a8` alone. -/
theorem formatS_a8Field (h : RowWord o cw) (hi : imm16Field (opMask o) = BitVec.allOnes 16) :
    formatS o (a8Field cw) 0#16 = cw := by
  obtain ⟨hop, -, hi0⟩ := rowWord_iff.mp h
  rw [hi, BitVec.and_allOnes] at hi0
  rw [← hi0, formatS_of_fields hop]

/-- A row with an operand in `imm16` alone. -/
theorem formatS_imm16Field (h : RowWord o cw) (ha : a8Field (opMask o) = BitVec.allOnes 8) :
    formatS o 0#8 (imm16Field cw) = cw := by
  obtain ⟨hop, ha0, -⟩ := rowWord_iff.mp h
  rw [ha, BitVec.and_allOnes] at ha0
  rw [← ha0, formatS_of_fields hop]

end RowWord

/-! A field whose upper bits are masked (STAGEW's byte, CCSTAT's selector). -/

theorem zero_append_and_mask {n m : Nat} (x : BitVec m) :
    (0#n ++ x) &&& (BitVec.allOnes n ++ 0#m) = 0#(n + m) := by
  rw [BitVec.and_append, BitVec.zero_and, BitVec.and_zero, BitVec.zero_append_zero]

/-- A value whose upper n bits are 0 is its lower m bits, extended. -/
theorem zero_append_low_of_mask {n m : Nat} {x : BitVec (n + m)}
    (h : x &&& (BitVec.allOnes n ++ 0#m) = 0#(n + m)) : 0#n ++ x.extractLsb' 0 m = x := by
  apply BitVec.eq_of_getLsbD_eq
  intro i hi
  have hbit := congrArg (fun v => v.getLsbD i) h
  by_cases hlow : i < m
  · simp [BitVec.getLsbD_append, hlow]
  · have hn : i - m < n := by omega
    simpa [BitVec.getLsbD_append, hlow, hn] using hbit

/-- The low bits of a word of format S are the low bits of its `imm16`. -/
theorem extractLsb'_formatS (o : Op) (a : Byte) (imm : Half) {m : Nat} (hm : m ≤ 16) :
    (formatS o a imm).extractLsb' 0 m = imm.extractLsb' 0 m :=
  BitVec.extractLsb'_append_eq_of_add_le (by omega)

/-- The low bits of a command word are the low bits of its `imm16`. -/
theorem extractLsb'_imm16Field (cw : Word) {m : Nat} (hm : m ≤ 16) :
    (imm16Field cw).extractLsb' 0 m = cw.extractLsb' 0 m := by
  apply BitVec.eq_of_getLsbD_eq
  intro i hi
  have h16 : i < 16 := by omega
  simp [imm16Field, BitVec.getLsbD_extractLsb', h16]

/-! Decoding, branch by branch (30_encoding.md R74). -/

section Decode
variable {cw : Word} {ds : List Word} {o : Op}

theorem decode_of_reserved (h : ∀ o, opCode o ≠ opField cw) :
    decode cw ds = .reject (.badOpcode (opField cw)) := by
  simp [decode, findOp_eq_none.mpr h]

theorem decode_of_mask_ne (hop : opField cw = opCode o) (hmask : cw &&& opMask o ≠ opMatch o) :
    decode cw ds = .reject (.reservedField 0) := by
  simp [decode, hop, hmask]

theorem decode_of_badData {j : Nat} (h : RowWord o cw) (hbad : firstBadData 1 ds = some j) :
    decode cw ds = .reject (.reservedField j) := by
  simp [decode, h.op, h.mask, hbad]

theorem decode_of_row (h : RowWord o cw) (hgood : firstBadData 1 ds = none) :
    decode cw ds = .instr (buildInstr o cw (ds.map imm16Field)) := by
  simp [decode, h.op, h.mask, hgood]

/-- Words decode to a command in one way: by a row whose word and data words pass all checks. -/
theorem decode_eq_instr {i : Instr} (h : decode cw ds = .instr i) :
    ∃ o, RowWord o cw ∧ firstBadData 1 ds = none ∧ buildInstr o cw (ds.map imm16Field) = i := by
  cases hfind : findOp (opField cw) with
  | none => nomatch (decode_of_reserved (findOp_eq_none.mp hfind)).symm.trans h
  | some o =>
    have hop := (findOp_eq_some hfind).symm
    by_cases hmask : cw &&& opMask o = opMatch o
    · have hrow : RowWord o cw := ⟨hop, hmask⟩
      cases hdata : firstBadData 1 ds with
      | some j => nomatch (decode_of_badData hrow hdata).symm.trans h
      | none => exact ⟨o, hrow, rfl, Decoded.instr.inj ((decode_of_row hrow hdata).symm.trans h)⟩
    · nomatch (decode_of_mask_ne hop hmask).symm.trans h

end Decode

/-! Decoding undoes encoding. -/

/-- Every command's encoding is one command word and its data words (30_encoding.md R70, R73). -/
theorem encodeShape : ∀ i : Instr, Laws.EncodeShape.Statement i
  | .mode id => Laws.EncodeShape.mode id
  | .modeq => Laws.EncodeShape.modeq
  | .palrep vs => Laws.EncodeShape.palrep vs
  | .palset i v => Laws.EncodeShape.palset i v
  | .palrgb i => Laws.EncodeShape.palrgb i
  | .palraw i => Laws.EncodeShape.palraw i
  | .pwwr a v => Laws.EncodeShape.pwwr a v
  | .pwrd a => Laws.EncodeShape.pwrd a
  | .stagew b v => Laws.EncodeShape.stagew b v
  | .reilv y => Laws.EncodeShape.reilv y
  | .pix n => Laws.EncodeShape.pix n
  | .rgba n => Laws.EncodeShape.rgba n
  | .unpack => Laws.EncodeShape.unpack
  | .render => Laws.EncodeShape.render
  | .ccload d => Laws.EncodeShape.ccload d
  | .ccunld => Laws.EncodeShape.ccunld
  | .ccstart a => Laws.EncodeShape.ccstart a
  | .ccanim a => Laws.EncodeShape.ccanim a
  | .ccstep a => Laws.EncodeShape.ccstep a
  | .ccstop a => Laws.EncodeShape.ccstop a
  | .cctick a => Laws.EncodeShape.cctick a
  | .ccstat a q => Laws.EncodeShape.ccstat a q

/-- A command's encoding is a word of the row that builds the command, with the encodings of its data
values. -/
theorem exists_row_of_encode (i : Instr) : ∃ o cw vs,
    encode i = cw :: vs.map formatD ∧ RowWord o cw ∧ buildInstr o cw vs = i := by
  cases i with
  | modeq | unpack | render | ccunld =>
    exact ⟨_, _, [], rfl, rowWord_formatS BitVec.zero_and BitVec.zero_and, rfl⟩
  | ccload d => exact ⟨_, _, descWords d, rfl, rowWord_formatS BitVec.zero_and BitVec.zero_and, rfl⟩
  | palrep vs => exact ⟨_, _, vs, rfl, rowWord_formatS BitVec.and_zero BitVec.zero_and, rfl⟩
  | palrgb | palraw | ccstart | ccanim | ccstep | ccstop | cctick =>
    exact ⟨_, _, [], rfl, rowWord_formatS BitVec.and_zero BitVec.zero_and, by simp [buildInstr]⟩
  | mode | reilv =>
    exact ⟨_, _, [], rfl, rowWord_formatS BitVec.zero_and BitVec.and_zero, by simp [buildInstr]⟩
  | palset =>
    exact ⟨_, _, [], rfl, rowWord_formatS BitVec.and_zero BitVec.and_zero, by simp [buildInstr]⟩
  | stagew b v =>
    have hlow : (formatS .stagew b (0#8 ++ v)).extractLsb' 0 8 = v :=
      (extractLsb'_formatS _ _ _ (by decide)).trans BitVec.extractLsb'_append_eq_right
    exact ⟨_, _, [], rfl, rowWord_formatS BitVec.and_zero (zero_append_and_mask v),
      by simp [buildInstr, hlow]⟩
  | ccstat a q =>
    have hlow : (formatS .ccstat a (0#14 ++ q)).extractLsb' 0 2 = q :=
      (extractLsb'_formatS _ _ _ (by decide)).trans BitVec.extractLsb'_append_eq_right
    exact ⟨_, _, [], rfl, rowWord_formatS BitVec.and_zero (zero_append_and_mask q),
      by simp [buildInstr, hlow]⟩
  | pwwr a v => exact ⟨_, _, [v], rfl, rowWord_formatL a rfl, by simp [buildInstr, dataAt]⟩
  | pwrd | pix | rgba => exact ⟨_, _, [], rfl, rowWord_formatL _ rfl, by simp [buildInstr]⟩

theorem decode_encode {i : Instr} {cw : Word} {ds : List Word} (h : encode i = cw :: ds) :
    decode cw ds = .instr i := by
  obtain ⟨o, cw', vs, he, hrow, hbuild⟩ := exists_row_of_encode i
  obtain ⟨rfl, rfl⟩ := List.cons.inj (h.symm.trans he)
  rw [decode_of_row hrow (firstBadData_formatD 1 vs), map_imm16Field_formatD, hbuild]

/-- Settles O19: the encoding has the data words that its command word announces, so the fetch takes
exactly those, and decoding undoes encoding. -/
theorem decodeOfEncode : Obligations.DecodeOfEncode := by
  intro i rest hwf
  obtain ⟨cw, ds, he, -, hlen⟩ := encodeShape i hwf
  exact ⟨cw, ds, he, he ▸ fetch_words cw ds rest hlen, decode_encode he⟩

/-! Encoding undoes decoding. -/

/-- All of a command's data values, read one by one. -/
theorem map_dataAt_range {vs : List Half} {n : Nat} (hn : vs.length = n) :
    (List.range n).map (dataAt vs) = vs := by
  subst hn
  apply List.ext_getElem
  · simp
  · intro k _ hk
    simp [dataAt, hk]

/-- PALREP's count fits its field; no other command needs a check. -/
theorem wellFormed_buildInstr {o : Op} {cw : Word} {vs : List Half}
    (hn : vs.length = rowDataCount o cw) : (buildInstr o cw vs).WellFormed := by
  cases o with
  | palrep => exact decide_eq_true (hn ▸ (a8Field cw).isLt)
  | _ => rfl

/-- A command without data words is encoded as its command word. -/
theorem encode_of_no_data {i : Instr} {w cw : Word} {vs : List Half} (hn : vs.length = 0)
    (he : encode i = [w]) (hw : w = cw) : encode i = cw :: vs.map formatD := by
  rw [he, hw, List.eq_nil_of_length_eq_zero hn, List.map_nil]

/-- The command that a row builds from a word of the row is encoded as that word. -/
theorem encode_buildInstr {o : Op} {cw : Word} {vs : List Half} (h : RowWord o cw)
    (hn : vs.length = rowDataCount o cw) : encode (buildInstr o cw vs) = cw :: vs.map formatD := by
  cases o with
  | modeq | unpack | render | ccunld => exact encode_of_no_data hn rfl (h.formatS_zero rfl rfl)
  | ccload =>
    have hdata : (List.range 16).map (dataAt vs) = vs := map_dataAt_range hn
    exact congrArg₂ (· :: ·) (h.formatS_zero rfl rfl) (congrArg (List.map formatD) hdata)
  | palrep =>
    have hcount : BitVec.ofNat 8 vs.length = a8Field cw := by
      rw [hn, rowDataCount, BitVec.ofNat_toNat, BitVec.setWidth_eq]
    exact congrArg (· :: _) (hcount ▸ h.formatS_a8Field rfl)
  | palrgb | palraw | ccstart | ccanim | ccstep | ccstop | cctick =>
    exact encode_of_no_data hn rfl (h.formatS_a8Field rfl)
  | mode | reilv => exact encode_of_no_data hn rfl (h.formatS_imm16Field rfl)
  | palset => exact encode_of_no_data hn rfl (formatS_of_fields h.op)
  | stagew =>
    obtain ⟨-, -, hi⟩ := rowWord_iff.mp h
    have hlow := zero_append_low_of_mask (n := 8) (m := 8) hi
    rw [extractLsb'_imm16Field cw (by decide)] at hlow
    exact encode_of_no_data hn rfl ((congrArg _ hlow).trans (formatS_of_fields h.op))
  | ccstat =>
    obtain ⟨-, -, hi⟩ := rowWord_iff.mp h
    have hlow := zero_append_low_of_mask (n := 14) (m := 2) hi
    rw [extractLsb'_imm16Field cw (by decide)] at hlow
    exact encode_of_no_data hn rfl ((congrArg _ hlow).trans (formatS_of_fields h.op))
  | pwwr =>
    have hdata : (List.range 1).map (dataAt vs) = vs := map_dataAt_range hn
    exact congrArg₂ (· :: ·) (formatL_of_fields h.op) (congrArg (List.map formatD) hdata)
  | pwrd | pix | rgba => exact encode_of_no_data hn rfl (formatL_of_fields h.op)

/-- Settles O20: the words passed the checks of a row, so their data words are the encodings of the
values that the row's command is built from, and building that command forgets nothing. -/
theorem encodeOfDecode : Obligations.EncodeOfDecode := by
  intro cw ds i hlen hdecode
  obtain ⟨o, hrow, hdata, rfl⟩ := decode_eq_instr hdecode
  have hn : (ds.map imm16Field).length = rowDataCount o cw := by
    rw [List.length_map, hlen, dataCount_of_findOp (hrow.op ▸ findOp_opCode o)]
  refine ⟨?_, wellFormed_buildInstr hn⟩
  rw [encode_buildInstr hrow hn, map_formatD_imm16Field hdata]

/-! What the decoder rejects (30_encoding.md R74, R76). -/

theorem dataCount_of_reserved {cw : Word} (h : ∀ o, opCode o ≠ opField cw) : dataCount cw = 0 := by
  simp [dataCount, findOp_eq_none.mpr h]

/-- Settles O21: a reserved opcode announces no data words and is in no row of the map. -/
theorem reservedOpcodesRejected : Obligations.ReservedOpcodesRejected := by
  intro cw rest h
  exact ⟨fetch_words cw [] rest (dataCount_of_reserved h).symm, decode_of_reserved h⟩

theorem highHalf_eq_zero_iff (d : Word) : d.extractLsb' 16 16 = 0#16 ↔ d.toNat < 65536 := by
  have hd := d.isLt
  rw [BitVec.toNat_eq, BitVec.extractLsb'_toNat, Nat.shiftRight_eq_div_pow]
  simp only [BitVec.toNat_ofNat]
  omega

/-- The first data word that does not fit 16 bits is the one reported. -/
theorem firstBadData_eq_some {ds : List Word} {j : Nat} (k : Nat) (hj : j < ds.length)
    (hbad : 65536 ≤ (ds.getD j 0#32).toNat) (hfirst : ∀ l, l < j → (ds.getD l 0#32).toNat < 65536) :
    firstBadData k ds = some (k + j) := by
  induction ds generalizing j k with
  | nil => exact absurd hj (Nat.not_lt_zero j)
  | cons d ds ih =>
    rw [firstBadData]
    cases j with
    | zero =>
      have hd : ¬ d.extractLsb' 16 16 = 0#16 := by
        rw [highHalf_eq_zero_iff]
        exact Nat.not_lt_of_le hbad
      rw [if_neg hd, Nat.add_zero]
    | succ j =>
      have hd : d.extractLsb' 16 16 = 0#16 := (highHalf_eq_zero_iff d).mpr (hfirst 0 j.succ_pos)
      rw [if_pos hd, ih (k + 1) (Nat.lt_of_succ_lt_succ hj) hbad
        fun l hl => hfirst (l + 1) (Nat.succ_lt_succ hl), Nat.add_right_comm, Nat.add_assoc]

/-- Settles O22: the command word is checked before the data words, and these from the first on. -/
theorem reservedFieldsRejected : Obligations.ReservedFieldsRejected := by
  intro cw ds o hop
  refine ⟨decode_of_mask_ne hop.symm, fun hmask j hj hbad hfirst => ?_⟩
  rw [decode_of_badData ⟨hop.symm, hmask⟩ (firstBadData_eq_some 1 hj hbad hfirst), Nat.add_comm]

/-- Settles O23: the decoder evaluated on each of the eight transactions. -/
theorem knownWordsDecode : Obligations.KnownWordsDecode := by
  unfold Obligations.KnownWordsDecode
  decide

end Sys2Proof

namespace Sys2Proof.Machine

/-! A rejected transaction (60_exceptions.md R200, R202). -/

theorem step_of_reject {s : State} {cw : Word} {ds : List Word} {rest : List Input} {e : DecodeError}
    (hfetch : fetch s.input = .command cw ds rest) (hdecode : decode cw ds = .reject e) :
    step s = rejectWords e { s with input := rest } := by
  unfold step
  rw [hfetch]
  dsimp only
  rw [hdecode]

/-- Settles O25: `rejectWords` of each of the two errors. -/
theorem stepRejectsWords : Obligations.StepRejectsWords := by
  intro s cw ds rest hfetch
  exact ⟨fun op hdecode => step_of_reject hfetch hdecode, fun j hdecode => step_of_reject hfetch hdecode⟩

/-! What a command sends (30_encoding.md R79). -/

@[simp] theorem State.setPals_out (s : State) (i : Nat) (vs : List Half) :
    (s.setPals i vs).out = s.out := by
  rw [State.setPals_frame]

/-- Between s and u only events have been sent, no response. -/
def SendsEvents (s u : State) : Prop :=
  ∃ evs, u.out = s.out ++ evs ∧ ∀ o ∈ evs, o.isResponse = false

namespace SendsEvents

variable {s u v : State}

theorem of_out_eq (h : u.out = s.out) : SendsEvents s u := ⟨[], by simp [h], by simp⟩

theorem event (h : SendsEvents s u) {o : Output} (ho : o.isResponse = false)
    (hv : v.out = u.out ++ [o]) : SendsEvents s v := by
  obtain ⟨evs, hu, hevs⟩ := h
  refine ⟨evs ++ [o], by rw [hv, hu, List.append_assoc], ?_⟩
  rw [List.forall_mem_append]
  exact ⟨hevs, by simpa using ho⟩

/-- A cancellation sends CANCEL or nothing. -/
theorem cancelled (s : State) (k : Fin 4) : SendsEvents s (s.cancelled k) := by
  cases hanim : (s.slot k).anim with
  | false => exact of_out_eq (by simp [State.cancelled_eq, hanim])
  | true =>
    exact (of_out_eq rfl).event (o := .cancel (s.slot k).handle) rfl
      (by simp [State.cancelled_eq, hanim])

end SendsEvents

/-- What a completed command has sent: events, then its response, which holds a stream only where the
command is UNPACK or RENDER and the status OK. -/
theorem Ends.sends {i : Instr} {s t : State} (h : Ends s i t) :
    ∃ u st d vs, t = u.respond st d vs ∧ SendsEvents s u ∧
      (vs ≠ [] → st = .ok ∧ (i = .unpack ∨ i = .render)) := by
  cases h with
  | read _ d vs _ hvs => exact ⟨s, _, _, vs, rfl, .of_out_eq rfl, fun hne => ⟨rfl, hvs hne⟩⟩
  | ccanim a ha f =>
    exact ⟨_, _, _, _, rfl, (SendsEvents.cancelled s ⟨a.toNat, ha⟩).event rfl rfl, nofun⟩
  | ccstep a ha f | cctick a ha f =>
    exact ⟨_, _, _, _, rfl, (SendsEvents.of_out_eq rfl).event rfl rfl, nofun⟩
  | ccstop a ha => exact ⟨_, _, _, _, rfl, SendsEvents.cancelled s ⟨a.toNat, ha⟩, nofun⟩
  | _ => exact ⟨_, _, _, _, rfl, .of_out_eq (by simp), nofun⟩

/-- Settles O7, by `Ends.sends`. -/
theorem oneResponsePerCommand : Obligations.OneResponsePerCommand := by
  intro i s t h
  obtain ⟨u, st, d, vs, rfl, ⟨evs, hu, hevs⟩, hvs⟩ := (exec_next h).sends
  exact ⟨evs, ⟨st, d, vs⟩, by rw [State.respond_out, hu], hevs, hvs⟩

end Sys2Proof.Machine
end

section
/-! PROOFS of the mode and palette statements (40_mode_palette.md): the colour derivation in numbers, what
each command answers and writes, how long a palette entry holds its value. -/

namespace Sys2Proof.Machine

/-! The colour derivation (40_mode_palette.md R101), in numbers. -/

/-- A field of k bits from bit n on, cut out by shift and mask. -/
theorem toNat_shiftRight_and {w : Nat} (v m : BitVec w) (n : Nat) {k : Nat} (hm : m.toNat = 2 ^ k - 1) :
    ((v >>> n) &&& m).toNat = v.toNat / 2 ^ n % 2 ^ k := by
  rw [BitVec.toNat_and, BitVec.toNat_ushiftRight, hm, Nat.and_two_pow_sub_one_eq_mod,
    Nat.shiftRight_eq_div_pow]

theorem redNibble_eq (v : Half) : redNibble v = 2 * (v.toNat / 256 % 8) + v.toNat / 2048 % 2 := by
  simp only [redNibble, toNat_shiftRight_and v 7#16 8 (k := 3) rfl,
    toNat_shiftRight_and v 1#16 11 (k := 1) rfl, Nat.reducePow]

theorem greenNibble_eq (v : Half) : greenNibble v = 2 * (v.toNat / 16 % 8) + v.toNat / 128 % 2 := by
  simp only [greenNibble, toNat_shiftRight_and v 7#16 4 (k := 3) rfl,
    toNat_shiftRight_and v 1#16 7 (k := 1) rfl, Nat.reducePow]

theorem blueNibble_eq (v : Half) : blueNibble v = 2 * (v.toNat % 8) + v.toNat / 8 % 2 := by
  have hlow : (v &&& 7#16).toNat = v.toNat % 8 := Nat.and_two_pow_sub_one_eq_mod v.toNat 3
  simp only [blueNibble, hlow, toNat_shiftRight_and v 1#16 3 (k := 1) rfl, Nat.reducePow]

/-- Seventeen times a nibble fits a component, so no component wraps. -/
theorem toNat_nibble_mul {n : Nat} (hn : n ≤ 15) : (BitVec.ofNat 8 (n * 17)).toNat = 17 * n := by
  rw [BitVec.toNat_ofNat, Nat.mod_eq_of_lt (by omega), Nat.mul_comm]

theorem derive_r_toNat (v : Half) :
    (derive v).r.toNat = 17 * (2 * (v.toNat / 256 % 8) + v.toNat / 2048 % 2) := by
  rw [derive, redNibble_eq, toNat_nibble_mul (by omega)]

theorem derive_g_toNat (v : Half) :
    (derive v).g.toNat = 17 * (2 * (v.toNat / 16 % 8) + v.toNat / 128 % 2) := by
  rw [derive, greenNibble_eq, toNat_nibble_mul (by omega)]

theorem derive_b_toNat (v : Half) :
    (derive v).b.toNat = 17 * (2 * (v.toNat % 8) + v.toNat / 8 % 2) := by
  rw [derive, blueNibble_eq, toNat_nibble_mul (by omega)]

/-- No nibble takes a bit from 15:12. -/
theorem derive_and_0FFF (v : Half) : derive (v &&& 0x0FFF#16) = derive v := by
  have hlow : (v &&& 0x0FFF#16).toNat = v.toNat % 4096 := Nat.and_two_pow_sub_one_eq_mod v.toNat 12
  have hred : redNibble (v &&& 0x0FFF#16) = redNibble v := by
    rw [redNibble_eq, redNibble_eq, hlow]; omega
  have hgreen : greenNibble (v &&& 0x0FFF#16) = greenNibble v := by
    rw [greenNibble_eq, greenNibble_eq, hlow]; omega
  have hblue : blueNibble (v &&& 0x0FFF#16) = blueNibble v := by
    rw [blueNibble_eq, blueNibble_eq, hlow]; omega
  simp only [derive, hred, hgreen, hblue]

/-- A bit under a mask that clears the value is 0. -/
theorem div_two_pow_mod_two_of_and_eq_zero {w : Nat} {v m : BitVec w} (h : v &&& m = 0#w) (n : Nat)
    (hm : m.getLsbD n = true) : v.toNat / 2 ^ n % 2 = 0 := by
  have hbit : v.getLsbD n = false := by
    simpa [hm] using congrArg (BitVec.getLsbD · n) h
  rw [BitVec.getLsbD, Nat.testBit_eq_decide_div_mod_eq, decide_eq_false_iff_not] at hbit
  omega

/-- Settles O28: the three nibbles as numbers; with its extension bit 0 a nibble is twice its 3-bit
value. -/
theorem deriveFormula : Obligations.DeriveFormula := by
  intro v
  refine ⟨derive_r_toNat v, derive_g_toNat v, derive_b_toNat v, (derive_and_0FFF v).symm, fun h => ?_⟩
  have hred : v.toNat / 2048 % 2 = 0 := div_two_pow_mod_two_of_and_eq_zero h 11 rfl
  have hgreen : v.toNat / 128 % 2 = 0 := div_two_pow_mod_two_of_and_eq_zero h 7 rfl
  have hblue : v.toNat / 8 % 2 = 0 := div_two_pow_mod_two_of_and_eq_zero h 3 rfl
  rw [derive_r_toNat, derive_g_toNat, derive_b_toNat, hred, hgreen, hblue]
  omega

/-! MODE and MODEQ (40_mode_palette.md R100, R102). -/

/-- A command that Busy turns away, while some slot is on. -/
theorem answersBusy_of_on {s : State} (h : ∃ k, (s.slot k).on = true) (r : Result) :
    AnswersBusy s (unlessBusy s r) :=
  ⟨s.onMask, if_pos (s.anyOn_iff.mpr h), s.onMask_bit⟩

theorem unlessBusy_of_off {s : State} (h : ∀ k, (s.slot k).on = false) (r : Result) :
    unlessBusy s r = r := by
  rw [unlessBusy, s.anyOn_false_iff.mpr h, if_neg Bool.false_ne_true]

/-- The mode an id selects, by the id's number (30_encoding.md R83). -/
theorem modeOfId_eq (id : Half) :
    modeOfId id = if id.toNat = 1 then .mode1 else if id.toNat = 2 then .mode2 else .mode0 := by
  simp only [modeOfId, BitVec.toNat_eq, BitVec.toNat_ofNat, Nat.reducePow, Nat.reduceMod]

/-- Settles O31: Busy while a slot is on; otherwise the palette is cleared and the mode set. -/
theorem modeCommand : Obligations.ModeCommand := by
  intro id s
  refine ⟨rfl, fun hon => answersBusy_of_on hon _, fun hoff =>
    ⟨_, unlessBusy_of_off hoff _, modeOfId_eq id, fun i hi => ?_, fun i hi => ?_, rfl, rfl⟩⟩
  · constructor <;> exact (get_clearCells 16 _ i).trans (if_pos hi)
  · constructor <;> exact (get_clearCells 16 _ i).trans (if_neg (Nat.not_lt_of_le hi))

/-- Settles O32, mode by mode. -/
theorem modeqCommand : Obligations.ModeqCommand := by
  refine fun s => ⟨rfl, packModeDesc s.mode, execModeq_eq s, ?_⟩
  rw [State.desc]
  cases s.mode with
  | mode0 => decide
  | mode1 => decide
  | mode2 => decide

/-! PALREP and PALSET (40_mode_palette.md R103, R104). -/

/-- A well-formed command that the host has sent is taken off CMD whole, and performed. -/
theorem step_of_encode {i : Instr} (hwf : i.WellFormed) (s : State) (rest : List Input) :
    step { s with input := (encode i).map Input.word ++ rest } = exec i { s with input := rest } := by
  obtain ⟨cw, ds, -, hfetch, hdecode⟩ := decodeOfEncode i rest hwf
  exact stepRunsDecoded _ cw ds rest i hfetch hdecode

/-- PALREP's entries, counted from 0: those the list has a value for hold it and its colour. -/
theorem State.get_setPals_zero (s : State) (vs : List Half) (i : Nat) :
    (s.setPals 0 vs).palRaw.get i = (if i < vs.length then vs[i]? else s.palRaw.get i) ∧
    (s.setPals 0 vs).palRgb.get i = (if i < vs.length then vs[i]?.map derive else s.palRgb.get i) := by
  simp [State.setPals_palRaw, State.setPals_palRgb]

/-- Settles O33: the step by `step_of_encode`, the entries by what PALREP's loop writes. -/
theorem palrepCommand : Obligations.PalrepCommand := by
  intro vs s hlt
  have hwf : (Instr.palrep vs).WellFormed := decide_eq_true hlt
  refine ⟨rfl, step_of_encode hwf s, fun hne => if_pos hne, fun hlen =>
    ⟨(s.setPals 0 vs).respond .ok 0#32 [], if_neg (not_not.mpr hlen), ?written, ?kept, ?sent, ?frame⟩⟩
  case written =>
    intro i hi
    simpa only [State.respond_palRaw, State.respond_palRgb, hlen, if_pos hi]
      using s.get_setPals_zero vs i
  case kept =>
    intro i hi
    simpa only [State.respond_palRaw, State.respond_palRgb, hlen, if_neg (Nat.not_lt_of_le hi)]
      using s.get_setPals_zero vs i
  case sent => rw [State.respond_out, State.setPals_out]
  case frame =>
    rw [State.respond_out, State.setPals_out]
    exact congrArg (State.respond · .ok 0#32 []) (s.setPals_frame 0 vs)

theorem exec_palset_of_lt {s : State} {i : Byte} (hi : i.toNat < s.desc.rc) (v : Half) :
    exec (.palset i v) s = .next ((s.setPal i.toNat v).respond .ok 0#32 []) :=
  if_neg (Nat.not_le_of_lt hi)

/-- Settles O34, from a write of each half at one entry. -/
theorem palsetCommand : Obligations.PalsetCommand := fun _ _ _ =>
  ⟨rfl, fun hge => if_pos hge, fun hlt =>
    ⟨_, exec_palset_of_lt hlt _, Memory.get_write_some _ _ _, Memory.get_write_some _ _ _, rfl, rfl⟩⟩

/-! PALRGB and PALRAW (40_mode_palette.md R105, R106). -/

theorem exec_palrgb_of_get {s : State} {i : Byte} {c : Rgb} (hi : i.toNat < s.desc.rc)
    (h : s.palRgb.get i.toNat = some c) :
    exec (.palrgb i) s = .next (s.respond .ok
      (BitVec.ofNat 32 (c.r.toNat * 2 ^ 16 + c.g.toNat * 2 ^ 8 + c.b.toNat)) []) :=
  readCell_eq_next rfl hi (by rw [h, Option.map_some, packRgb_eq])

theorem exec_palraw_of_get {s : State} {i : Byte} {v : Half} (hi : i.toNat < s.desc.rc)
    (h : s.palRaw.get i.toNat = some v) :
    exec (.palraw i) s = .next (s.respond .ok (v.setWidth 32) []) :=
  readCell_eq_next rfl hi (by rw [h, Option.map_some])

/-- Settles O35: the check, then the packing of the live entry. -/
theorem palrgbCommand : Obligations.PalrgbCommand := fun _ _ =>
  ⟨rfl, fun hge => if_pos hge, fun _ => exec_palrgb_of_get⟩

/-- Settles O36: the check, then the raw entry. -/
theorem palrawCommand : Obligations.PalrawCommand := fun _ _ =>
  ⟨rfl, fun hge => if_pos hge, fun _ => exec_palraw_of_get⟩

/-! How long an entry holds the value PALSET wrote (40_mode_palette.md R107). -/

/-- Every command of a completed run was performed in a state of the run: what each command keeps, the
run keeps. -/
theorem runAll_keeps {P : State → Prop} {is : List Instr} {s u : State} (hrun : runAll is s = .next u)
    (hkeep : ∀ j ∈ is, ∀ s t, exec j s = .next t → P s → P t) (hs : P s) : P u := by
  induction is generalizing s with
  | nil =>
    obtain rfl := Host.Outcome.next.inj hrun
    exact hs
  | cons j is ih =>
    rw [List.forall_mem_cons] at hkeep
    obtain ⟨hj, his⟩ := hkeep
    cases hexec : exec j s with
    | next t =>
      rw [runAll_cons_next hexec] at hrun
      exact ih hrun his (hj s t hexec hs)
    | fault r => simp only [runAll, hexec] at hrun; nomatch hrun
    | refused r => simp only [runAll, hexec] at hrun; nomatch hrun

/-- Entry i is accessible; it holds v and derive(v). -/
structure HoldsEntry (i : Nat) (v : Half) (s : State) : Prop where
  accessible : i < s.desc.rc
  raw : s.palRaw.get i = some v
  rgb : s.palRgb.get i = some (derive v)

section HoldsEntry
variable {i : Nat} {v : Half} {s t : State}

theorem HoldsEntry.congr (h : HoldsEntry i v s) (hmode : t.mode = s.mode)
    (hraw : t.palRaw.get i = s.palRaw.get i) (hrgb : t.palRgb.get i = s.palRgb.get i) :
    HoldsEntry i v t where
  accessible := by rw [State.desc, hmode]; exact h.accessible
  raw := hraw.trans h.raw
  rgb := hrgb.trans h.rgb

theorem HoldsEntry.setPal (hi : i < s.desc.rc) : HoldsEntry i v (s.setPal i v) where
  accessible := hi
  raw := (Memory.get_write_some ..).trans (if_pos rfl)
  rgb := (Memory.get_write_some ..).trans (if_pos rfl)

theorem HoldsEntry.setPal_of_ne (h : HoldsEntry i v s) {j : Nat} (hij : i ≠ j) (w : Half) :
    HoldsEntry i v (s.setPal j w) :=
  h.congr rfl ((Memory.get_write_some ..).trans (if_neg hij))
    ((Memory.get_write_some ..).trans (if_neg hij))

theorem HoldsEntry.respond (h : HoldsEntry i v s) (st : Status) (d : Word) (vs : List Word) :
    HoldsEntry i v (s.respond st d vs) := h.congr rfl rfl rfl

end HoldsEntry

/-- A command that is none of the writers of entry i keeps what it holds. -/
theorem Ends.keeps_holdsEntry {i : Byte} {v : Half} {j : Instr} {s t : State} (h : Ends s j t)
    (hpalrep : ∀ vs, j ≠ .palrep vs) (hpalset : ∀ w, j ≠ .palset i w) (hmode : ∀ id, j ≠ .mode id)
    (hcycle : ∀ a, j ≠ .ccstep a ∧ j ≠ .cctick a ∧ j ≠ .ccstop a) (hs : HoldsEntry i.toNat v s) :
    HoldsEntry i.toNat v t := by
  cases h with
  | palrep vs => exact absurd rfl (hpalrep vs)
  | mode id => exact absurd rfl (hmode id)
  | ccstep a => exact absurd rfl (hcycle a).1
  | cctick a => exact absurd rfl (hcycle a).2.1
  | ccstop a => exact absurd rfl (hcycle a).2.2
  | palset a w =>
    have hne : i.toNat ≠ a.toNat := fun heq => hpalset w (by rw [BitVec.eq_of_toNat_eq heq])
    exact (hs.setPal_of_ne hne w).respond ..
  | _ => exact hs.congr (by simp) (by simp) (by simp)

/-- Settles O37: after the PALSET the entry holds v and derive(v), every command of the run keeps that,
and the two reads read it. -/
theorem palsetReadsBack : Obligations.PalsetReadsBack := by
  intro i v s t u is hi hset hrun hspare
  obtain rfl := Host.Outcome.next.inj ((exec_palset_of_lt hi v).symm.trans hset)
  have hu : HoldsEntry i.toNat v u := by
    refine runAll_keeps hrun (fun j hj s t hexec hs => ?_) ((HoldsEntry.setPal hi).respond ..)
    obtain ⟨hpalrep, hpalset, hmode, hcycle⟩ := hspare j hj
    exact (exec_next hexec).keeps_holdsEntry hpalrep hpalset hmode hcycle hs
  exact ⟨exec_palraw_of_get hu.accessible hu.raw, exec_palrgb_of_get hu.accessible hu.rgb⟩

end Sys2Proof.Machine
end

section
/-! PROOFS of the bitplane codec statements (41_bitplane_codec.md): what each command answers and writes,
which plane words a REILV writes, and that unpacking them gives the staged bits. -/

namespace Sys2Proof.Machine

/-! Writing one cell (41_bitplane_codec.md R123, R141). -/

/-- Settles O38: the step by `step_of_encode`, the word by one write. -/
theorem pwwrCommand : Obligations.PwwrCommand := fun _ _ s =>
  ⟨rfl, step_of_encode rfl s, fun hge => if_pos hge, fun hlt =>
    ⟨_, exec_pwwr_of_lt hlt _ s, Memory.get_write_some _ _ _, rfl, rfl⟩⟩

theorem exec_stagew_of_lt {b : Byte} (hb : b.toNat < 160) (v : Byte) (s : State) :
    exec (.stagew b v) s = .next ((s.writeStg b.toNat (some v)).respond .ok 0#32 []) :=
  if_neg (Nat.not_le_of_lt hb)

/-- Settles O40, from one write of the staging buffer. -/
theorem stagewCommand : Obligations.StagewCommand := fun _ _ s =>
  ⟨rfl, fun hge => if_pos hge, fun hlt =>
    ⟨_, exec_stagew_of_lt hlt _ s, Memory.get_write_some _ _ _, rfl, rfl⟩⟩

/-! Reading one cell or one pixel (41_bitplane_codec.md R124, R125, R127). -/

/-- Settles O39: the check, then the word. -/
theorem pwrdCommand : Obligations.PwrdCommand := fun _ _ =>
  ⟨rfl, fun hge => if_pos hge, fun _ => exec_pwrd_of_get⟩

/-- Settles O43: the index is that of `pixIndex_spec`, below `2 ^ P`, which is RC. -/
theorem pixCommand : Obligations.PixCommand := by
  refine fun n s => ⟨rfl, fun hge => if_pos hge, fun hlt hwords => ?_⟩
  obtain ⟨r, hr, hrc, hbits⟩ := pixIndex_spec hwords
  have hbound : r < s.desc.rc := hrc.trans_eq (modeDesc_rc s.mode).symm
  exact ⟨r, exec_pix_of_pixIndex hlt hr, hbound, fun p w hp => hbits p hp w⟩

theorem indexElement_of_pixIndex {s : State} {n r : Nat} (hr : pixIndex s.desc s.pw n = some r) :
    indexElement s n = some (BitVec.ofNat 32 r) := by
  rw [indexElement, hr, Option.map_some]

theorem rgbaElement_of_pixIndex {s : State} {n r : Nat} {c : Rgb}
    (hr : pixIndex s.desc s.pw n = some r) (hc : s.palRgb.get r = some c) :
    rgbaElement s n = some (BitVec.ofNat 32
      (c.r.toNat * 2 ^ 24 + c.g.toNat * 2 ^ 16 + c.b.toNat * 2 ^ 8 + 255)) := by
  simp [rgbaElement, hr, hc, packRgba_eq]

/-- Settles O44: the check, then the packing of the entry that the pixel names. -/
theorem rgbaCommand : Obligations.RgbaCommand := fun _ _ =>
  ⟨rfl, fun hge => if_pos hge, fun _ _ hlt hr hc =>
    readCell_eq_next rfl hlt (rgbaElement_of_pixIndex hr hc)⟩

/-! The two streams (41_bitplane_codec.md R122, R126, R128). -/

/-- The plane words of every pixel lie in the buffer (20_memory.md R51, R53). -/
theorem plane_word_lt {m : GMode} {n p : Nat} (hn : n < (modeDesc m).w * (modeDesc m).h)
    (hp : p < (modeDesc m).p) : n / 16 * (modeDesc m).p + p < 16000 := by
  cases m <;> simp only [modeDesc] at hn hp ⊢ <;> omega

/-- With every plane word written every pixel has a color index. -/
theorem exists_pixIndex_of_full {s : State} (hfull : ∀ a, a < 16000 → (s.pw.get a).isSome = true)
    {n : Nat} (hn : n < s.desc.w * s.desc.h) : ∃ r, pixIndex s.desc s.pw n = some r := by
  obtain ⟨r, hr, -, -⟩ := pixIndex_spec fun p hp => hfull _ (plane_word_lt (m := s.mode) hn hp)
  exact ⟨r, hr⟩

/-- A command that sends a stream none of whose elements is `⊥` sends them all, in order. -/
theorem okStreamCell_collect_eq_next {f : Nat → Cell Word} {bound : Nat} (d : Word) (s : State)
    (h : ∀ n, n < bound → (f n).isSome = true) :
    ∃ vs, okStreamCell d (collect f bound 0) s = .next (s.respond .ok d vs) ∧ vs.length = bound ∧
      ∀ n, n < bound → vs[n]? = f n := by
  have hsome : (collect f bound 0).isSome = true :=
    collect_isSome fun n _ hn => h n (by omega)
  obtain ⟨vs, hvs⟩ := Option.isSome_iff_exists.mp hsome
  obtain ⟨hlen, helem⟩ := collect_eq_some hvs
  refine ⟨vs, by rw [hvs, okStreamCell_some], hlen, fun n hn => ?_⟩
  obtain ⟨v, hv, hf⟩ := helem n hn
  rw [hv, ← hf, Nat.zero_add]

/-- Settles O45: no element of the stream is `⊥`, because no plane word is. -/
theorem unpackCommand : Obligations.UnpackCommand := by
  refine fun s => ⟨rfl, fun hfull => ?_⟩
  obtain ⟨vs, hexec, hlen, hvs⟩ := okStreamCell_collect_eq_next (f := indexElement s)
    (BitVec.ofNat 32 (s.desc.w * s.desc.h)) s fun n hn => by
      obtain ⟨r, hr⟩ := exists_pixIndex_of_full hfull hn
      rw [indexElement_of_pixIndex hr, Option.isSome_some]
  refine ⟨vs, hexec, hlen, fun n hn => ?_⟩
  obtain ⟨r, hr⟩ := exists_pixIndex_of_full hfull hn
  exact ⟨r, hr, (hvs n hn).trans (indexElement_of_pixIndex hr)⟩

/-- Settles O46: an element would be `⊥` only for a `⊥` plane word or a `⊥` entry that its pixel
names. -/
theorem renderCommand : Obligations.RenderCommand := by
  refine fun s => ⟨rfl, fun hfull hpal => ?_⟩
  have hcolor : ∀ n, n < s.desc.w * s.desc.h →
      ∃ r c, pixIndex s.desc s.pw n = some r ∧ s.palRgb.get r = some c := fun n hn => by
    obtain ⟨r, hr⟩ := exists_pixIndex_of_full hfull hn
    obtain ⟨c, hc⟩ := Option.isSome_iff_exists.mp (hpal n r hn hr)
    exact ⟨r, c, hr, hc⟩
  obtain ⟨vs, hexec, hlen, hvs⟩ := okStreamCell_collect_eq_next (f := rgbaElement s)
    (BitVec.ofNat 32 (s.desc.w * s.desc.h)) s fun n hn => by
      obtain ⟨r, c, hr, hc⟩ := hcolor n hn
      rw [rgbaElement_of_pixIndex hr hc, Option.isSome_some]
  refine ⟨vs, hexec, hlen, fun n hn => ?_⟩
  obtain ⟨r, c, hr, hc⟩ := hcolor n hn
  exact ⟨r, c, hr, hc, (hvs n hn).trans (rgbaElement_of_pixIndex hr hc)⟩

/-! What a REILV writes (41_bitplane_codec.md R142). -/

/-- A loop that writes n cells in a row: the file stays in canonical form, the cells read as what was
written, the others as before. -/
theorem writeRow_wf_and_get {α : Type} {size b : Nat} {m : Memory α} (n : Nat) (v : Nat → Cell α)
    (hn : b + n ≤ size) (h : m.wf size = true) :
    (forRange n (fun k x => x.write (b + k) (v k)) m).wf size = true ∧
    ∀ a, (forRange n (fun k x => x.write (b + k) (v k)) m).get a =
      if b ≤ a ∧ a < b + n then v (a - b) else m.get a :=
  forRange_induction
    (P := fun k (x : Memory α) =>
      x.wf size = true ∧ ∀ a, x.get a = if b ≤ a ∧ a < b + k then v (a - b) else m.get a)
    n ⟨h, fun _ => (if_neg (by omega)).symm⟩
    fun k x hk ⟨hwf, hget⟩ => ⟨Memory.wf_write _ (by omega) hwf, fun a => by
      rw [Memory.get_write hwf, hget]
      by_cases hlast : a = b + k
      · rw [if_pos hlast, if_pos (by omega), hlast, Nat.add_sub_cancel_left]
      · rw [if_neg hlast]
        exact if_congr (by omega) rfl rfl⟩

/-- The plane-word buffer m, after the rows of word positions 0 to k-1 of a scanline block, P words each,
have been written to pw from address `base` on. -/
structure RowsWritten (d : ModeDesc) (stg : Memory Byte) (base size : Nat) (pw : Memory Half) (k : Nat)
    (m : Memory Half) : Prop where
  wf : m.wf size = true
  written : ∀ g p, g < k → p < d.p → m.get (base + g * d.p + p) = stagedWord d stg p g
  outside : ∀ a, a < base ∨ base + k * d.p ≤ a → m.get a = pw.get a

/-- Word position k adds the row behind the rows before it. -/
theorem RowsWritten.succ {d : ModeDesc} {stg : Memory Byte} {base size k : Nat} {pw m : Memory Half}
    (h : RowsWritten d stg base size pw k m) (hsize : base + (k + 1) * d.p ≤ size) :
    RowsWritten d stg base size pw (k + 1)
      (forRange d.p (fun p m => m.write (base + k * d.p + p) (stagedWord d stg p k)) m) := by
  have hend : (k + 1) * d.p = k * d.p + d.p := Nat.succ_mul k d.p
  obtain ⟨hwf, hget⟩ := writeRow_wf_and_get (b := base + k * d.p) d.p
    (fun p => stagedWord d stg p k) (by omega) h.wf
  refine ⟨hwf, fun g p hg hp => ?written, fun a ha => ?outside⟩
  case written =>
    obtain hlt | rfl := Nat.lt_succ_iff_lt_or_eq.mp hg
    · have hrow : (g + 1) * d.p ≤ k * d.p := Nat.mul_le_mul_right d.p hlt
      rw [Nat.succ_mul] at hrow
      rw [hget, if_neg (by omega)]
      exact h.written g p hlt hp
    · rw [hget, if_pos (by omega), Nat.add_sub_cancel_left]
  case outside =>
    rw [hget, if_neg (by omega)]
    exact h.outside a (by omega)

/-- REILV's loop over the word positions, row by row. -/
theorem rowsWritten_reinterleave {d : ModeDesc} {stg : Memory Byte} {base size : Nat} {pw : Memory Half}
    (hsize : base + stagedWords d * d.p ≤ size) (h : pw.wf size = true) :
    RowsWritten d stg base size pw (stagedWords d) (reinterleave d stg base pw) :=
  forRange_induction (P := RowsWritten d stg base size pw) _ ⟨h, nofun, fun _ _ => rfl⟩
    fun k _ hk hm => hm.succ (by
      have hrow : (k + 1) * d.p ≤ stagedWords d * d.p := Nat.mul_le_mul_right d.p hk
      omega)

/-- The scanline block of row y: the 80 words from `80·y` on. -/
theorem rowsWritten_reilv {s : State} (hs : s.Inv) {y : Nat} (hy : y < 200) :
    RowsWritten s.desc s.stg (y * 80) 16000 s.pw (stagedWords s.desc)
      (reinterleave s.desc s.stg (y * 80) s.pw) := by
  have h80 : stagedWords s.desc * s.desc.p = 80 := stagedWords_mul_planes s.mode
  exact rowsWritten_reinterleave (by omega) hs.pw_wf

theorem exec_reilv_of_lt {y : Half} (hy : y.toNat < 200) (s : State) :
    exec (.reilv y) s = .next
      ({ s with pw := reinterleave s.desc s.stg (y.toNat * 80) s.pw }.respond .ok 0#32 []) := by
  obtain ⟨-, h⟩ | ⟨hge, -⟩ := execReilv_cases y s
  · exact h
  · omega

theorem exec_reilv_of_ge {y : Half} (hy : 200 ≤ y.toNat) (s : State) :
    exec (.reilv y) s = .next (s.respond .planeAddressOverflow (y.setWidth 32) []) := by
  obtain ⟨hlt, -⟩ | ⟨-, h⟩ := execReilv_cases y s
  · omega
  · exact h

/-- The plane word of two staged bytes, the first the more significant. -/
theorem stagedWord_of_some {d : ModeDesc} {stg : Memory Byte} {p g : Nat} {hi lo : Byte}
    (hhi : stg.get (p * stagedBytes d + 2 * g) = some hi)
    (hlo : stg.get (p * stagedBytes d + 2 * g + 1) = some lo) :
    stagedWord d stg p g = some (pairBytes hi lo) := by
  simp [stagedWord, hhi, hlo]

/-- A `⊥` byte makes its plane word `⊥`. -/
theorem stagedWord_of_none {d : ModeDesc} {stg : Memory Byte} {p g : Nat}
    (h : stg.get (p * stagedBytes d + 2 * g) = none ∨ stg.get (p * stagedBytes d + 2 * g + 1) = none) :
    stagedWord d stg p g = none := by
  obtain hhi | hlo := h
  · simp [stagedWord, hhi]
  · simp [stagedWord, hlo]

/-- Settles O41: the rows that the loop writes, the words outside them, and the words of the two bytes. -/
theorem reilvCommand : Obligations.ReilvCommand := by
  refine fun y s hs => ⟨rfl, fun hge => exec_reilv_of_ge hge s, fun hy =>
    ⟨_, exec_reilv_of_lt hy s, fun g p hg hp => ?written, fun a ha => ?outside, rfl, rfl⟩⟩
  case written =>
    have hword := (rowsWritten_reilv hs hy).written g p hg hp
    rw [Nat.mul_comm 80, State.respond_pw, hword]
    cases hhi : s.stg.get (p * (160 / s.desc.p) + 2 * g) with
    | none => exact stagedWord_of_none (.inl hhi)
    | some hi =>
      cases hlo : s.stg.get (p * (160 / s.desc.p) + 2 * g + 1) with
      | none => exact stagedWord_of_none (.inr hlo)
      | some lo => rw [stagedWord_of_some hhi hlo, pairBytes_eq]
  case outside =>
    have h80 : stagedWords s.desc * s.desc.p = 80 := stagedWords_mul_planes s.mode
    exact (rowsWritten_reilv hs hy).outside a (by omega)

/-! Unpacking what a REILV wrote (41_bitplane_codec.md R143). -/

/-- Column c of a plane's staged row, most significant bit leftmost, is bit `15 - (c mod 16)` of the plane
word of its 16 columns. -/
theorem exists_stagedWord {d : ModeDesc} {stg : Memory Byte} {p c : Nat}
    (hstg : ∀ b, b < 160 → (stg.get b).isSome = true)
    (hc : p * stagedBytes d + 2 * (c / 16) + 1 < 160) :
    ∃ w, stagedWord d stg p (c / 16) = some w ∧
      ∀ v, stg.get (p * stagedBytes d + c / 8) = some v →
        w.getLsbD (15 - c % 16) = v.getLsbD (7 - c % 8) := by
  obtain ⟨hi, hhi⟩ := Option.isSome_iff_exists.mp (hstg _ (Nat.lt_of_succ_lt hc))
  obtain ⟨lo, hlo⟩ := Option.isSome_iff_exists.mp (hstg _ hc)
  refine ⟨pairBytes hi lo, stagedWord_of_some hhi hlo, fun v hv => ?_⟩
  rw [getLsbD_pairBytes]
  by_cases hleft : c % 16 < 8
  · rw [show c / 8 = 2 * (c / 16) by omega, hhi] at hv
    obtain rfl := Option.some.inj hv
    rw [if_neg (by omega), show 15 - c % 16 - 8 = 7 - c % 8 by omega]
  · rw [show c / 8 = 2 * (c / 16) + 1 by omega, ← Nat.add_assoc, hlo] at hv
    obtain rfl := Option.some.inj hv
    rw [if_pos (by omega), show 15 - c % 16 = 7 - c % 8 by omega]

/-- The two bytes of a word position lie in their plane's part of the staging buffer. -/
theorem staged_byte_lt {m : GMode} {p g : Nat} (hp : p < (modeDesc m).p)
    (hg : g < stagedWords (modeDesc m)) : p * stagedBytes (modeDesc m) + 2 * g + 1 < 160 := by
  cases m <;> simp only [modeDesc, stagedWords, stagedBytes, stgBytes_eq] at hp hg ⊢ <;> omega

/-- The pixels of a scanline block, 16 for each word position, in modes 0 and 1 one row and in mode 2 two:
after the REILV of block y, bit p of the index of pixel c of the block is column c of plane p's staged
row. -/
theorem exists_pixIndex_reinterleave {s : State} (hs : s.Inv) {y c : Nat} (hy : y < 200)
    (hc : c < 16 * stagedWords s.desc) (hstg : ∀ b, b < 160 → (s.stg.get b).isSome = true) :
    ∃ r, pixIndex s.desc (reinterleave s.desc s.stg (y * 80) s.pw)
        (y * (16 * stagedWords s.desc) + c) = some r ∧
      ∀ p v, p < s.desc.p → s.stg.get (p * stagedBytes s.desc + c / 8) = some v →
        r.testBit p = v.getLsbD (7 - c % 8) := by
  have h80 : stagedWords s.desc * s.desc.p = 80 := stagedWords_mul_planes s.mode
  obtain ⟨hgroup, hplace⟩ := pixel_group (Nat.dvd_mul_right 16 (stagedWords s.desc)) c y
  rw [Nat.mul_div_cancel_left _ (by decide)] at hgroup
  have hword : ∀ p, p < s.desc.p → ∃ w, (reinterleave s.desc s.stg (y * 80) s.pw).get
      ((y * (16 * stagedWords s.desc) + c) / 16 * s.desc.p + p) = some w ∧
      ∀ v, s.stg.get (p * stagedBytes s.desc + c / 8) = some v →
        w.getLsbD (15 - c % 16) = v.getLsbD (7 - c % 8) := fun p hp => by
    have hg : c / 16 < stagedWords s.desc := by omega
    rw [hgroup, Nat.add_mul, Nat.mul_assoc, h80, (rowsWritten_reilv hs hy).written _ p hg hp]
    exact exists_stagedWord hstg (staged_byte_lt (m := s.mode) hp hg)
  obtain ⟨r, hr, -, hbits⟩ := pixIndex_spec fun p hp => by
    obtain ⟨w, hw, -⟩ := hword p hp
    exact Option.isSome_of_eq_some hw
  refine ⟨r, hr, fun p v hp hv => ?_⟩
  obtain ⟨w, hw, hbit⟩ := hword p hp
  rw [hbits p hp w hw, hplace, hbit v hv]

/-- A scanline block is one row of pixels, in mode 2 two (41_bitplane_codec.md R140). -/
theorem sixteen_mul_stagedWords (s : State) :
    16 * stagedWords s.desc = if s.mode = .mode2 then 2 * s.desc.w else s.desc.w := by
  rw [State.desc]
  cases s.mode <;> rfl

/-- Settles O42, from the pixel's place in its scanline block: column x, in mode 2 `640·k + x`. -/
theorem reilvUnpackAgree : Obligations.ReilvUnpackAgree := by
  intro y s t x hs hy hexec hstg hx
  obtain rfl := Host.Outcome.next.inj ((exec_reilv_of_lt hy s).symm.trans hexec)
  have hblock := sixteen_mul_stagedWords s
  refine ⟨fun hmode => ?oneRow, fun hmode k hk => ?twoRows⟩
  case oneRow =>
    rw [if_neg hmode] at hblock
    have hpix := exists_pixIndex_reinterleave hs hy (hx.trans_eq hblock.symm) hstg
    rwa [hblock] at hpix
  case twoRows =>
    have hw : s.desc.w = 640 := by rw [State.desc, hmode]; rfl
    have hplane : 0 < s.desc.p := by rw [State.desc, hmode]; decide
    rw [if_pos hmode, hw] at hblock
    rw [hw] at hx ⊢
    obtain ⟨r, hr, hbits⟩ := exists_pixIndex_reinterleave (c := 640 * k + x) hs hy (by omega) hstg
    rw [hblock, show y.toNat * (2 * 640) + (640 * k + x) = (2 * y.toNat + k) * 640 + x by omega] at hr
    refine ⟨r, hr, fun v hv => ?_⟩
    rw [show 80 * k + x / 8 = 0 * stagedBytes s.desc + (640 * k + x) / 8 by omega] at hv
    rw [hbits 0 v hplane hv, show (640 * k + x) % 8 = x % 8 by omega]

end Sys2Proof.Machine
end

section
/-! PROOFS of the color-cycle statements (42_color_cycle.md): what each command answers and writes, what
one step and a whole round of steps do to the palette, what CCSTOP restores. -/

namespace Sys2Proof.Machine

/-! The engine's numbers (42_color_cycle.md R150, R152; 10_state.md R35, R36). -/

/-- `delayMs` is the floor of `100·x/6 + 1/2`, and the even number 100·x is never 3 modulo 6, so the
rounding misses by a third at most. -/
theorem six_mul_delayMs (raw : Half) :
    100 * (128 - (raw.toNat : Int)) - 2 ≤ 6 * delayMs raw ∧
    6 * delayMs raw ≤ 100 * (128 - (raw.toNat : Int)) + 2 := by
  unfold delayMs
  omega

/-- Settles O29: ten times the rounding of `six_mul_delayMs`, and the range of `delayMs_range`. -/
theorem delayIsNearest : Obligations.DelayIsNearest := by
  intro raw
  obtain ⟨hlow, hhigh⟩ := six_mul_delayMs raw
  obtain ⟨hmin, hmax⟩ := delayMs_range raw
  exact ⟨by omega, by omega, hmin, hmax, fun hraw => by omega⟩

theorem delayMs_eq_fdiv (raw : Half) :
    delayMs raw = Int.fdiv (100 * (128 - (raw.toNat : Int)) + 3) 6 :=
  (Int.fdiv_eq_ediv_of_nonneg _ (by decide)).symm

theorem decodeDir_eq_none_iff {raw : Half} : decodeDir raw = none ↔ 2 < raw.toNat := by
  obtain ⟨hgt, h⟩ | ⟨hle, d, h, -⟩ := decodeDir_spec raw
  · exact iff_of_true h hgt
  · rw [h]
    exact iff_of_false nofun (Nat.not_lt_of_le hle)

theorem dirInt_of_decodeDir {raw : Half} {d : Dir} (h : decodeDir raw = some d) :
    dirInt d = (raw.toNat : Int) - 1 := by
  obtain ⟨-, hnone⟩ | ⟨-, e, he, hdir⟩ := decodeDir_spec raw
  · nomatch hnone.symm.trans h
  · obtain rfl := Option.some.inj (he.symm.trans h)
    exact hdir

theorem dirInt_eq_zero_iff {d : Dir} : dirInt d = 0 ↔ d = .still := by
  cases d <;> decide

theorem dirInt_bounds (d : Dir) : -1 ≤ dirInt d ∧ dirInt d ≤ 1 := by
  cases d <;> decide

/-- A range holds an entry when its ends are in order. -/
theorem one_le_rangeLen_iff {left right : Half} :
    1 ≤ rangeLen left right ↔ left.toNat ≤ right.toNat := by
  unfold rangeLen
  omega

/-- The stored length is the one CCSTART recomputes (10_state.md R36). -/
theorem FieldsInv.ofInt_rangeLen {f : SlotFields} (h : FieldsInv f) :
    BitVec.ofInt 32 (rangeLen f.left f.right) = f.len :=
  BitVec.eq_of_toInt_eq ((rangeLen_toInt ..).trans h.len_eq.symm)

/-- The number of entries a step writes: none when the range is empty. -/
theorem FieldsInv.toNat_len {f : SlotFields} (h : FieldsInv f) :
    f.len.toInt.toNat = f.right.toNat + 1 - f.left.toNat := by
  rw [h.len_eq]
  unfold rangeLen
  omega

/-- Two 16-bit fields of a response. -/
theorem half_or_half (p q : Half) :
    ((p.setWidth 32 <<< 16) ||| q.setWidth 32 : Word).toNat = p.toNat * 65536 + q.toNat := by
  rw [← BitVec.ofNat_toNat 32 q, half_or_low p q.isLt]

/-! Slots of a written state. -/

theorem State.slot_setSlot_of_ne (s : State) {k j : Fin 4} (h : j ≠ k) (sl : Slot) :
    (s.setSlot k sl).slot j = s.slot j := by
  rw [State.slot_setSlot, if_neg h]

theorem State.cancelled_out (s : State) (k : Fin 4) : (s.cancelled k).out =
    s.out ++ if (s.slot k).anim then [.cancel (s.slot k).handle] else [] := by
  rw [State.cancelled_eq]

/-- A command with a slot operand leaves the slots of other numbers as they are. -/
theorem Ends.slot_of_ne {i : Instr} {s t : State} {a : Byte} (h : Ends s i t)
    (hi : i.slotOperand = some a) {k : Fin 4} (hk : k.val ≠ a.toNat) : t.slot k = s.slot k := by
  cases h with
  | turnedAway | read => rfl
  | ccstart b hb f =>
    obtain rfl := Option.some.inj hi
    exact State.slot_setSlot_of_ne _ (Fin.ne_of_val_ne hk) _
  | ccanim b hb f | ccstop b hb =>
    obtain rfl := Option.some.inj hi
    exact (State.slot_setSlot_of_ne _ (Fin.ne_of_val_ne hk) _).trans (s.slot_cancelled _ k)
  | ccstep b hb f | cctick b hb f =>
    obtain rfl := Option.some.inj hi
    exact (s.slot_cycleStep _ k f).trans (if_neg (Fin.ne_of_val_ne hk))
  | _ => nomatch hi

/-- Settles O16, by `Ends.slot_of_ne`. -/
theorem slotsAreIndependent : Obligations.SlotsAreIndependent :=
  fun _ _ _ _ hi h _ hk => (exec_next h).slot_of_ne hi hk

/-! Who sends CANCEL (42_color_cycle.md R164). -/

/-- What a cancellation of slot k sends is the handle of an animating slot. -/
theorem cancel_mem_cancelled {s : State} {k : Fin 4} {h : Option Handle}
    (hmem : Output.cancel h ∈
      (if (s.slot k).anim then [.cancel (s.slot k).handle] else [] : List Output)) :
    (s.slot k).anim = true ∧ h = (s.slot k).handle := by
  cases hanim : (s.slot k).anim with
  | false => simp [hanim] at hmem
  | true => exact ⟨rfl, by simpa [hanim] using hmem⟩

/-- Of what a command sends, CANCEL is the cancellation of CCANIM or CCSTOP. -/
theorem Ends.cancel_sender {i : Instr} {s t : State} (hends : Ends s i t) {evs : List Output}
    {h : Option Handle} (hout : t.out = s.out ++ evs) (hmem : Output.cancel h ∈ evs) :
    ∃ (a : Byte) (k : Fin 4), (i = .ccanim a ∨ i = .ccstop a) ∧ k.val = a.toNat ∧
      (s.slot k).anim = true ∧ h = (s.slot k).handle := by
  cases hends with
  | ccanim a ha f =>
    simp only [State.respond_out, State.setSlot_out, State.sched_out, State.cancelled_out,
      List.append_assoc, List.append_cancel_left_eq] at hout
    subst hout
    exact ⟨a, ⟨a.toNat, ha⟩, .inl rfl, rfl, cancel_mem_cancelled (by simpa using hmem)⟩
  | ccstop a ha =>
    simp only [State.respond_out, State.setSlot_out, State.restorePalette_out, State.cancelled_out,
      List.append_assoc, List.append_cancel_left_eq] at hout
    subst hout
    exact ⟨a, ⟨a.toNat, ha⟩, .inr rfl, rfl, cancel_mem_cancelled (by simpa using hmem)⟩
  | ccstep a ha f | cctick a ha f =>
    obtain ⟨r, rfl⟩ : ∃ r, evs = [.redraw, .response r] := ⟨_, by simpa using hout.symm⟩
    simp at hmem
  | _ =>
    obtain ⟨r, rfl⟩ : ∃ r, evs = [.response r] := ⟨_, by simpa using hout.symm⟩
    simp at hmem

/-- Settles O18: the sender's slot is animating, and an animating slot has a handle. -/
theorem cancelOnlyFromAnimatingSlot : Obligations.CancelOnlyFromAnimatingSlot := by
  intro i s t evs h hs hexec hout hmem
  obtain ⟨a, k, hi, hk, hanim, rfl⟩ := (exec_next hexec).cancel_sender hout hmem
  have hsome : (s.slot k).handle.isSome = true := (hs.slots_inv k).handle_anim.trans hanim
  exact ⟨a, k, hi, hk, hanim, rfl, Option.isSome_iff_ne_none.mp hsome⟩

/-! CCLOAD and CCUNLD (42_color_cycle.md R155, R156). -/

/-- The data of BadDirection for slot k. -/
theorem badDirection_data (k : Fin 4) (v : Half) :
    ((BitVec.ofNat 32 k.val <<< 16) ||| v.setWidth 32 : Word).toNat = k.val * 65536 + v.toNat := by
  have hk : BitVec.ofNat 32 k.val = (BitVec.ofNat 16 k.val).setWidth 32 := by
    fin_cases k <;> rfl
  have hnat : (BitVec.ofNat 16 k.val).toNat = k.val := by
    fin_cases k <;> rfl
  rw [hk, half_or_half, hnat]

theorem exec_ccload_of_bad {d : Quad Desc} {s : State} (hoff : ∀ k, (s.slot k).on = false) {k : Fin 4}
    (hbad : 2 < (Quad.get d k).dirRaw.toNat)
    (hfirst : ∀ j, j < k → (Quad.get d j).dirRaw.toNat ≤ 2) :
    exec (.ccload d) s = .next (s.respond .badDirection
      ((BitVec.ofNat 32 k.val <<< 16) ||| (Quad.get d k).dirRaw.setWidth 32) []) := by
  obtain ⟨-, q, hq, -⟩ | ⟨-, j, hnone, hbelow, h⟩ | ⟨hon, -⟩ := execCcload_cases d s
  · nomatch (decodeDir_eq_none_iff.mpr hbad).symm.trans (hq k)
  · obtain hlt | rfl | hgt := lt_trichotomy j k
    · exact absurd (decodeDir_eq_none_iff.mp hnone) (Nat.not_lt_of_le (hfirst j hlt))
    · exact h
    · have hsome := hbelow k hgt
      rw [decodeDir_eq_none_iff.mpr hbad] at hsome
      nomatch hsome
  · nomatch (s.anyOn_false_iff.mpr hoff).symm.trans hon

theorem exec_ccload_of_good {d : Quad Desc} {s : State} (hoff : ∀ k, (s.slot k).on = false)
    (hgood : ∀ k, (Quad.get d k).dirRaw.toNat ≤ 2) :
    ∃ q : Quad Dir, (∀ k, decodeDir (Quad.get d k).dirRaw = some (Quad.get q k)) ∧
      exec (.ccload d) s = .next
        ({ s with slots := ⟨Slot.load d.s0 q.s0, Slot.load d.s1 q.s1, Slot.load d.s2 q.s2,
                            Slot.load d.s3 q.s3⟩ }.respond .ok 0#32 []) := by
  obtain ⟨-, hload⟩ | ⟨-, j, hnone, -⟩ | ⟨hon, -⟩ := execCcload_cases d s
  · exact hload
  · exact absurd (decodeDir_eq_none_iff.mp hnone) (Nat.not_lt_of_le (hgood j))
  · nomatch (s.anyOn_false_iff.mpr hoff).symm.trans hon

/-- The slots that CCLOAD writes. -/
theorem get_loadSlots (d : Quad Desc) (q : Quad Dir) (k : Fin 4) :
    Quad.get ⟨Slot.load d.s0 q.s0, Slot.load d.s1 q.s1, Slot.load d.s2 q.s2, Slot.load d.s3 q.s3⟩ k =
      Slot.load (Quad.get d k) (Quad.get q k) := by
  fin_cases k <;> rfl

/-- Settles O47: Busy, the lowest bad direction, or `Slot.load` of each descriptor. -/
theorem ccloadCommand : Obligations.CcloadCommand := by
  refine fun d s => ⟨rfl, fun hon => answersBusy_of_on hon _, fun hoff k hbad hfirst =>
    ⟨_, exec_ccload_of_bad hoff hbad hfirst, badDirection_data k _⟩, fun hoff hgood => ?loaded⟩
  case loaded =>
    obtain ⟨q, hq, hexec⟩ := exec_ccload_of_good hoff hgood
    exact ⟨_, hexec, fun k => ⟨_, get_loadSlots d q k, rfl, rfl, dirInt_of_decodeDir (hq k),
      (delayMs_toInt _).trans (delayMs_eq_fdiv _), rfl, rangeLen_toInt _ _⟩, rfl, rfl⟩

/-- Settles O48: Busy, or `Slot.unload` of each slot. -/
theorem ccunldCommand : Obligations.CcunldCommand := fun s =>
  ⟨rfl, fun hon => answersBusy_of_on hon _, fun hoff =>
    ⟨_, unlessBusy_of_off hoff _, fun k => Quad.get_map Slot.unload s.slots k, rfl, rfl⟩⟩

/-! The commands that name one slot, behind their checks (30_encoding.md R77). -/

section SlotCommands
variable {a : Byte} {s : State} {f : SlotFields} (h : a.toNat < 4)

theorem exec_ccstart_of_unloaded (hl : (s.slot ⟨a.toNat, h⟩).loaded = false) :
    exec (.ccstart a) s = .next (s.respond .slotNotLoaded (a.setWidth 32) []) := by
  rw [exec, execCcstart, withSlot_of_lt h, if_pos hl, raise_eq]

theorem exec_ccstart_of_loaded (hl : (s.slot ⟨a.toNat, h⟩).loaded = true)
    (hf : (s.slot ⟨a.toNat, h⟩).fields = some f) :
    exec (.ccstart a) s =
      if f.dir = .still then fail s
      else if 1 ≤ rangeLen f.left f.right ∧ s.desc.rc ≤ f.right.toNat then
        raise .cycleRange (f.right.setWidth 32) s
      else ok 0#32 (s.takeSnapshot.setSlot ⟨a.toNat, h⟩ ((s.slot ⟨a.toNat, h⟩).arm f)) := by
  rw [exec, execCcstart, withSlot_of_lt h, if_neg (by simp [hl]), withFields_some hf]

theorem exec_ccanim_of_off (hoff : (s.slot ⟨a.toNat, h⟩).on = false) :
    exec (.ccanim a) s = .next (s.respond .fail 0#32 []) := by
  rw [exec, execCcanim, withSlot_of_lt h, if_pos hoff, fail_eq]

theorem exec_ccanim_of_on (hon : (s.slot ⟨a.toNat, h⟩).on = true)
    (hf : (s.slot ⟨a.toNat, h⟩).fields = some f) :
    exec (.ccanim a) s = .next ((((s.cancelled ⟨a.toNat, h⟩).sched ⟨a.toNat, h⟩ f.delay).setSlot
      ⟨a.toNat, h⟩ ((s.slot ⟨a.toNat, h⟩).animate (Config.hostHandle s.schedCount))).respond
        .ok 0#32 []) := by
  rw [exec, execCcanim, withSlot_of_lt h, if_neg (by simp [hon]), withFields_some hf, ok_eq]

theorem exec_ccstep_of_off (hoff : (s.slot ⟨a.toNat, h⟩).on = false) :
    exec (.ccstep a) s = .next (s.respond .fail 0#32 []) := by
  rw [exec, execCcstep, withSlot_of_lt h, if_pos hoff, fail_eq]

theorem exec_ccstep_of_on (hon : (s.slot ⟨a.toNat, h⟩).on = true)
    (hf : (s.slot ⟨a.toNat, h⟩).fields = some f) :
    exec (.ccstep a) s = .next ((s.cycleStep ⟨a.toNat, h⟩ f).respond .ok 0#32 []) := by
  rw [exec, execCcstep, withSlot_of_lt h, if_neg (by simp [hon]), withFields_some hf, ok_eq]

theorem exec_cctick_of_idle (hidle : (s.slot ⟨a.toNat, h⟩).anim = false) :
    exec (.cctick a) s = .next (s.respond .fail 0#32 []) := by
  rw [exec, execCctick, withSlot_of_lt h, if_pos hidle, fail_eq]

theorem exec_cctick_of_anim (hanim : (s.slot ⟨a.toNat, h⟩).anim = true)
    (hf : (s.slot ⟨a.toNat, h⟩).fields = some f) :
    exec (.cctick a) s = .next ((s.cycleStep ⟨a.toNat, h⟩ f).respond .ok 0#32 []) := by
  rw [exec, execCctick, withSlot_of_lt h, if_neg (by simp [hanim]), withFields_some hf, ok_eq]

theorem exec_ccstop_of_off (hoff : (s.slot ⟨a.toNat, h⟩).on = false) :
    exec (.ccstop a) s = .next (s.respond .fail 0#32 []) := by
  rw [exec, execCcstop, withSlot_of_lt h, if_pos hoff, fail_eq]

theorem exec_ccstop_of_on (hon : (s.slot ⟨a.toNat, h⟩).on = true) :
    exec (.ccstop a) s = .next (((s.cancelled ⟨a.toNat, h⟩).restorePalette.setSlot ⟨a.toNat, h⟩
      (s.slot ⟨a.toNat, h⟩).disarm).respond .ok 0#32 []) := by
  rw [exec, execCcstop, withSlot_of_lt h, if_neg (by simp [hon]), ok_eq]

theorem exec_ccstat_of_unloaded (hl : (s.slot ⟨a.toNat, h⟩).loaded = false) (q : BitVec 2) :
    exec (.ccstat a q) s = .next (s.respond .ok 0#32 []) := by
  rw [exec, execCcstat, withSlot_of_lt h, if_pos hl, ok_eq]

theorem exec_ccstat_of_loaded (hl : (s.slot ⟨a.toNat, h⟩).loaded = true)
    (hf : (s.slot ⟨a.toNat, h⟩).fields = some f) (q : BitVec 2) :
    exec (.ccstat a q) s = .next (s.respond .ok (packSlot (s.slot ⟨a.toNat, h⟩) f q) []) := by
  rw [exec, execCcstat, withSlot_of_lt h, if_neg (by simp [hl]), withFields_some hf, ok_eq]

end SlotCommands

/-! CCSTART, CCANIM, CCSTOP, CCSTAT (42_color_cycle.md R160, R162, R175, R180). -/

/-- Arming a slot that keeps the invariants moves the position and sets `on`, no more: the recomputed
length is the stored one. -/
theorem SlotInv.arm_eq {m : GMode} {sl : Slot} {f : SlotFields} (h : SlotInv m sl)
    (hf : sl.fields = some f) :
    sl.arm f = { sl with on := true, fields := some { f with pos := 0#16 } } := by
  rw [Slot.arm, (h.fields_inv f hf).ofInt_rangeLen]

/-- Settles O49: the checks in their order, then the snapshot and the armed slot. -/
theorem ccstartCommand : Obligations.CcstartCommand := by
  refine fun a s hs => ⟨rfl, fun hge => execCcstart_badSlot hge s, fun h =>
    ⟨exec_ccstart_of_unloaded h, fun f hl hf => ?_⟩⟩
  rw [exec_ccstart_of_loaded h hl hf, Ne, dirInt_eq_zero_iff]
  refine ⟨fun hd => if_pos hd, fun hd hle hrc => ?range, fun hd hrange => ?armed⟩
  case range => rw [if_neg hd, if_pos ⟨one_le_rangeLen_iff.mpr hle, hrc⟩, raise_eq]
  case armed =>
    have hfit : ¬(1 ≤ rangeLen f.left f.right ∧ s.desc.rc ≤ f.right.toNat) := fun ⟨hpos, hrc⟩ =>
      Nat.not_lt_of_le hrc (hrange (one_le_rangeLen_iff.mp hpos))
    rw [if_neg hd, if_neg hfit, ok_eq]
    have hslot := hs.slots_inv ⟨a.toNat, h⟩
    exact ⟨_, rfl, get_copyCells s.rc_le s.palRgb hs.snap_wf,
      (State.slot_setSlot_same ..).trans (hslot.arm_eq hf), (hslot.fields_inv f hf).len_eq,
      fun k hk => State.slot_setSlot_of_ne _ hk _, rfl, rfl⟩

/-- Settles O50: the cancellation, the request with its handle, and the slot that stores it. -/
theorem ccanimCommand : Obligations.CcanimCommand := by
  refine fun a s => ⟨rfl, fun hge => execCcanim_badSlot hge s, fun h =>
    ⟨exec_ccanim_of_off h, fun f hon hf => ?_⟩⟩
  refine ⟨_, Config.hostHandle s.schedCount, exec_ccanim_of_on h hon hf,
    State.slot_setSlot_same .., fun k hk => ?others, ?sent, ?frame⟩
  case others => exact (State.slot_setSlot_of_ne _ hk _).trans (s.slot_cancelled _ k)
  case sent => rw [State.cancelled_eq]; simp
  case frame => rw [State.cancelled_eq]; rfl

/-- Settles O53: the cancellation, the entries of the snapshot, and the slot that is off. -/
theorem ccstopCommand : Obligations.CcstopCommand := by
  refine fun a s hs => ⟨rfl, fun hge => execCcstop_badSlot hge s, fun h =>
    ⟨exec_ccstop_of_off h, fun hon => ?_⟩⟩
  refine ⟨_, exec_ccstop_of_on h hon, fun i => ?palette, State.slot_setSlot_same .., fun k hk => ?others,
    ?sent, ?frame⟩
  case palette =>
    rw [State.cancelled_eq]
    exact get_copyCells s.rc_le s.snap hs.palRgb_wf i
  case others => exact (State.slot_setSlot_of_ne _ hk _).trans (s.slot_cancelled _ k)
  case sent => rw [State.cancelled_eq]; rfl
  case frame => rw [State.cancelled_eq]; rfl

/-- Settles O54: the four selectors of `packSlot`. -/
theorem ccstatCommand : Obligations.CcstatCommand := by
  refine fun a q s => ⟨rfl, fun hge => execCcstat_badSlot hge q s, fun h =>
    ⟨fun hl => exec_ccstat_of_unloaded h hl q, fun f hl hf =>
      ⟨_, exec_ccstat_of_loaded h hl hf q, ?state, ?range, ?delay, ?len⟩⟩⟩
  case state =>
    rintro rfl
    exact packSlotState_toNat _ f
  case range =>
    rintro rfl
    exact half_or_half f.right f.left
  case delay =>
    rintro rfl
    rfl
  case len =>
    rintro rfl
    rfl

/-! One step (42_color_cycle.md R165, R167). -/

/-- The stored position is the exact one: what leaves `[left, right]` re-enters it. -/
theorem nextPos_toNat (f : SlotFields) : ((nextPos f).toNat : Int) = steppedPos f := by
  have hright := f.right.isLt
  simp only [nextPos, steppedPos, gt_iff_lt]
  generalize (f.pos.toNat : Int) - dirInt f.dir = q
  split
  · rfl
  · split
    · rfl
    · rw [BitVec.toNat_ofInt]
      omega

/-- A step of an on slot, with its response: the position by `nextPos_toNat`, the entries of a range
that is not empty by `rotate_get`, and no entry outside it. -/
theorem stepEffect_cycleStep {s : State} {k : Fin 4} {f : SlotFields} (hs : s.Inv)
    (hon : (s.slot k).on = true) (hf : (s.slot k).fields = some f) :
    StepEffect s ((s.cycleStep k f).respond .ok 0#32 []) k f := by
  have hslot := hs.slots_inv k
  have hlen := (hslot.fields_inv f hf).toNat_len
  have hsize : f.len.toInt.toNat = 0 ∨ f.left.toNat + f.len.toInt.toNat ≤ 16 :=
    (hslot.range_le hon hf).imp_right fun hle => hle.trans s.rc_le
  refine ⟨⟨nextPos f, nextPos_toNat f, (s.slot_cycleStep k k f).trans (if_pos rfl)⟩,
    fun j hj => (s.slot_cycleStep k j f).trans (if_neg hj), fun hle j hj => ?range,
    fun i hi => ?outside, ?sent, rfl⟩
  case range =>
    obtain ⟨hleft, hright⟩ := nextPos_range hle
    have hget := rotate_get hle s.snap f.len.toInt.toNat (nextPos f).toNat hs.palRgb_wf
      (hsize.resolve_left (by omega)) hleft hright j (by omega)
    rwa [← nextPos_toNat, Int.toNat_natCast]
  case outside =>
    obtain hzero | hfit := hsize
    · rw [State.respond_palRgb, State.cycleStep_palRgb, hzero, rotate_none]
    · exact rotate_frame _ _ _ _ _ _ i hs.palRgb_wf hfit (by omega)
  case sent => rw [State.respond_out, State.cycleStep_out, List.append_assoc]; rfl

/-- CCSTEP of an on slot. -/
theorem exec_ccstep_stepEffect {a : Byte} {s : State} {f : SlotFields} (hs : s.Inv) (h : a.toNat < 4)
    (hon : (s.slot ⟨a.toNat, h⟩).on = true) (hf : (s.slot ⟨a.toNat, h⟩).fields = some f) :
    ∃ t, exec (.ccstep a) s = .next t ∧ StepEffect s t ⟨a.toNat, h⟩ f :=
  ⟨_, exec_ccstep_of_on h hon hf, stepEffect_cycleStep hs hon hf⟩

/-- Settles O51: the checks, then the step. -/
theorem ccstepCommand : Obligations.CcstepCommand := fun _ s hs =>
  ⟨rfl, fun hge => execCcstep_badSlot hge s, fun h =>
    ⟨exec_ccstep_of_off h, fun _ => exec_ccstep_stepEffect hs h⟩⟩

/-- Settles O52: the checks, then the same step, because an animating slot is on. -/
theorem cctickCommand : Obligations.CctickCommand := fun _ s hs =>
  ⟨rfl, fun hge => execCctick_badSlot hge s, fun h =>
    ⟨exec_cctick_of_idle h, fun _ hanim hf =>
      ⟨_, exec_cctick_of_anim h hanim hf, stepEffect_cycleStep hs (hs.on_of_anim hanim) hf⟩⟩⟩

/-- Settles O56: every entry lies outside an empty range; the position is `steppedPos` in each case. -/
theorem emptyRangeStep : Obligations.EmptyRangeStep := by
  intro a s h f hs hon hf hempty
  obtain ⟨t, hexec, heff⟩ := exec_ccstep_stepEffect hs h hon hf
  obtain ⟨q, hq, hslot⟩ := heff.pos_eq
  unfold steppedPos at hq
  refine ⟨t, { f with pos := q }, hexec, fun i => heff.outside i (by omega), heff.sent,
    congrArg Slot.fields hslot, fun hgap hpos => ?below, fun hadj hdir hpos => ?adjacent⟩
  case below =>
    obtain ⟨hdir, -⟩ := dirInt_bounds f.dir
    rw [if_pos (by omega)] at hq
    exact BitVec.eq_of_toNat_eq (Int.ofNat_inj.mp hq)
  case adjacent =>
    rw [hdir, hpos, dirInt, if_neg (by omega), if_pos (by omega)] at hq
    exact BitVec.eq_of_toNat_eq (Int.ofNat_inj.mp hq)

/-! A round of steps (42_color_cycle.md R168). -/

/-- Inside the range a step counts modulo the range's length. -/
theorem steppedPos_eq_mod {f : SlotFields} (hleft : f.left.toNat ≤ f.pos.toNat)
    (hright : f.pos.toNat ≤ f.right.toNat) :
    steppedPos f = f.left.toNat +
      ((f.pos.toNat : Int) - f.left.toNat - dirInt f.dir) % rangeLen f.left f.right := by
  obtain ⟨hlow, hhigh⟩ := dirInt_bounds f.dir
  unfold steppedPos rangeLen
  split
  · rw [← Int.add_emod_right, Int.emod_eq_of_lt (by omega) (by omega)]
    omega
  · split
    · rw [show (f.pos.toNat : Int) - f.left.toNat - dirInt f.dir =
        f.right.toNat - f.left.toNat + 1 by omega, Int.emod_self, Int.add_zero]
    · rw [Int.emod_eq_of_lt (by omega) (by omega)]
      omega

/-- A step from the place x, counted from `left` modulo the range's length. -/
theorem steppedPos_of_mod {f : SlotFields} {p : Half} {x : Int} (hle : f.left.toNat ≤ f.right.toNat)
    (hp : (p.toNat : Int) = f.left.toNat + x % rangeLen f.left f.right) :
    steppedPos { f with pos := p } =
      f.left.toNat + (x - dirInt f.dir) % rangeLen f.left f.right := by
  have hlen : rangeLen f.left f.right = f.right.toNat - f.left.toNat + 1 := rfl
  have hpos : 0 < rangeLen f.left f.right := one_le_rangeLen_iff.mpr hle
  have hlow := Int.emod_nonneg x hpos.ne'
  have hhigh := Int.emod_lt_of_pos x hpos
  rw [steppedPos_eq_mod (show f.left.toNat ≤ p.toNat by omega) (show p.toNat ≤ f.right.toNat by omega),
    hp, add_sub_cancel_left, Int.emod_sub_emod]

/-- State t, n steps of slot k after s, where the slot had the fields f: the slot is at position p, n
places on modulo the range's length, and once it has stepped the range holds the snapshot rotated to
start at p. -/
structure AfterSteps (s : State) (k : Fin 4) (f : SlotFields) (n : Nat) (p : Half) (t : State) :
    Prop where
  inv : t.Inv
  snap_eq : t.snap = s.snap
  pos_eq : (p.toNat : Int) = f.left.toNat +
    ((f.pos.toNat : Int) - f.left.toNat - n * dirInt f.dir) % rangeLen f.left f.right
  slot_eq : t.slot k = { s.slot k with fields := some { f with pos := p } }
  range : 0 < n → ∀ j, j < f.right.toNat - f.left.toNat + 1 →
    t.palRgb.get (f.left.toNat + j) = s.snap.get (f.left.toNat +
      (p.toNat - f.left.toNat + j) % (f.right.toNat - f.left.toNat + 1))

theorem AfterSteps.zero {s : State} {k : Fin 4} {f : SlotFields} (hs : s.Inv)
    (hf : (s.slot k).fields = some f) (hleft : f.left.toNat ≤ f.pos.toNat)
    (hright : f.pos.toNat ≤ f.right.toNat) : AfterSteps s k f 0 f.pos s where
  inv := hs
  snap_eq := rfl
  pos_eq := by
    unfold rangeLen
    rw [Int.emod_eq_of_lt (by omega) (by omega)]
    omega
  slot_eq := by rw [← hf]
  range h := absurd h (Nat.lt_irrefl 0)

/-- One CCSTEP more. -/
theorem AfterSteps.succ {a : Byte} {s t : State} {h : a.toNat < 4} {f : SlotFields} {n : Nat} {p : Half}
    (ht : AfterSteps s ⟨a.toNat, h⟩ f n p t) (hon : (s.slot ⟨a.toNat, h⟩).on = true)
    (hle : f.left.toNat ≤ f.right.toNat) :
    ∃ u q, exec (.ccstep a) t = .next u ∧ AfterSteps s ⟨a.toNat, h⟩ f (n + 1) q u := by
  obtain ⟨u, hexec, heff⟩ := exec_ccstep_stepEffect (f := { f with pos := p }) ht.inv h
    (by rw [ht.slot_eq]; exact hon) (by rw [ht.slot_eq])
  obtain ⟨q, hq, hslot⟩ := heff.pos_eq
  refine ⟨u, q, hexec, exec_keeps_inv ht.inv hexec, ?snap, ?pos, ?slot, fun _ j hj => ?range⟩
  case snap =>
    rw [heff.frame]
    exact ht.snap_eq
  case pos =>
    rw [hq, steppedPos_of_mod hle ht.pos_eq, Nat.cast_add_one, add_one_mul, sub_sub]
  case slot => rw [hslot, ht.slot_eq]
  case range =>
    have hget := heff.range hle j hj
    rwa [← hq, Int.toNat_natCast, ht.snap_eq] at hget

/-- A run of n CCSTEPs completes. -/
theorem runAll_ccsteps {a : Byte} {s : State} {h : a.toNat < 4} {f : SlotFields} (hs : s.Inv)
    (hon : (s.slot ⟨a.toNat, h⟩).on = true) (hf : (s.slot ⟨a.toNat, h⟩).fields = some f)
    (hleft : f.left.toNat ≤ f.pos.toNat) (hright : f.pos.toNat ≤ f.right.toNat) (n : Nat) :
    ∃ t p, runAll (List.replicate n (.ccstep a)) s = .next t ∧
      AfterSteps s ⟨a.toNat, h⟩ f n p t := by
  induction n with
  | zero => exact ⟨s, f.pos, rfl, .zero hs hf hleft hright⟩
  | succ n ih =>
    obtain ⟨t, p, hrun, ht⟩ := ih
    obtain ⟨u, q, hexec, hu⟩ := ht.succ hon (hleft.trans hright)
    refine ⟨u, q, ?_, hu⟩
    rw [List.replicate_succ', runAll_append_next hrun, runAll_cons_next hexec, runAll_nil]

/-- Settles O55: the length of the range is 0 modulo itself, so a round ends where it began. -/
theorem rangeReturnsAfterNSteps : Obligations.RangeReturnsAfterNSteps := by
  intro a s h f hs hon hf hleft hright
  obtain ⟨t, p, hrun, ht⟩ :=
    runAll_ccsteps hs hon hf hleft hright (f.right.toNat - f.left.toNat + 1)
  obtain rfl : p = f.pos := by
    have hN : ((f.right.toNat - f.left.toNat + 1 : Nat) : Int) = rangeLen f.left f.right := by
      unfold rangeLen
      omega
    have hzero := (AfterSteps.zero hs hf hleft hright).pos_eq
    rw [Nat.cast_zero, zero_mul, sub_zero] at hzero
    have hpos := ht.pos_eq
    rw [hN, Int.sub_mul_emod_self_left] at hpos
    exact BitVec.eq_of_toNat_eq (Int.ofNat_inj.mp (hpos.trans hzero.symm))
  exact ⟨t, hrun, by rw [ht.slot_eq, ← hf], ht.range (Nat.succ_pos _)⟩

/-! What CCSTOP restores (42_color_cycle.md R161, R175). -/

/-- Of all commands only CCSTART turns a slot on. -/
theorem Ends.on_of_on {i : Instr} {s t : State} (h : Ends s i t) (hi : ∀ a, i ≠ .ccstart a) {k : Fin 4}
    (hon : (t.slot k).on = true) : (s.slot k).on = true := by
  cases h with
  | ccstart a => exact absurd rfl (hi a)
  | ccload d q hoff =>
    rw [State.slot_respond, State.slot, get_loadSlots] at hon
    nomatch hon
  | ccunld hoff =>
    rw [State.slot_respond, State.slot, Quad.get_map] at hon
    exact hon
  | ccanim a ha f hk =>
    by_cases hne : k = ⟨a.toNat, ha⟩
    · exact hne ▸ hk
    · rwa [State.slot_respond, State.slot_setSlot_of_ne _ hne, State.slot_congr (State.sched_slots ..),
        State.slot_cancelled] at hon
  | ccstep a ha f | cctick a ha f =>
    rw [State.slot_respond, State.slot_cycleStep] at hon
    split at hon
    · subst_vars
      exact hon
    · exact hon
  | ccstop a ha hk =>
    by_cases hne : k = ⟨a.toNat, ha⟩
    · exact hne ▸ hk
    · rwa [State.slot_respond, State.slot_setSlot_of_ne _ hne,
        State.slot_congr (State.restorePalette_slots _), State.slot_cancelled] at hon
  | palrep vs => rwa [State.slot_respond, State.slot_congr (State.setPals_slots ..)] at hon
  | _ => exact hon

/-- CCSTART that answers OK has put the live palette into the snapshot; the mode is as before. -/
theorem Ends.snapshot_of_ccstart {a : Byte} {s t : State} (h : Ends s (.ccstart a) t) (hs : s.Inv)
    (hout : t.out = s.out ++ [.response { status := .ok, data := 0#32, stream := [] }]) :
    t.mode = s.mode ∧ ∀ i, i < s.desc.rc → t.snap.get i = s.palRgb.get i := by
  cases h with
  | turnedAway _ e d hne =>
    obtain ⟨he, -⟩ : e = .ok ∧ d = 0#32 := by simpa using hout
    exact absurd he hne
  | read _ _ _ hread => nomatch hread
  | ccstart _ _ f =>
    exact ⟨rfl, fun i hi => (get_copyCells s.rc_le s.palRgb hs.snap_wf i).trans (if_pos hi)⟩

/-- The snapshot holds the palette that s, the state of the latest CCSTART, had, and the mode is still
that of s as long as some slot is on. -/
structure KeepsSnapshotOf (s u : State) : Prop where
  inv : u.Inv
  snap_eq : ∀ i, i < s.desc.rc → u.snap.get i = s.palRgb.get i
  mode_eq : ∀ k, (u.slot k).on = true → u.mode = s.mode

/-- Without another CCSTART nobody writes the snapshot, and the mode changes only once all slots are
off, to stay off. -/
theorem KeepsSnapshotOf.of_exec {s u v : State} {i : Instr} (h : KeepsSnapshotOf s u)
    (hexec : exec i u = .next v) (hi : ∀ a, i ≠ .ccstart a) : KeepsSnapshotOf s v where
  inv := exec_keeps_inv h.inv hexec
  snap_eq j hj := by
    obtain hsame | ⟨⟨a, ha⟩, -⟩ := (exec_next hexec).snap_writers h.inv j
    · exact hsame.trans (h.snap_eq j hj)
    · exact absurd ha (hi a)
  mode_eq k hon := by
    have hbefore := (exec_next hexec).on_of_on hi hon
    obtain hsame | ⟨-, hoff⟩ := (exec_next hexec).mode_writers
    · exact hsame.trans (h.mode_eq k hbefore)
    · nomatch hoff.symm.trans (u.anyOn_iff.mpr ⟨k, hbefore⟩)

/-- Settles O57: the run keeps the snapshot, and CCSTOP restores as many entries of it as the mode, that
of the CCSTART, has colours. -/
theorem stopRestoresLatestStart : Obligations.StopRestoresLatestStart := by
  intro a b s t u v is h hs hstart hout hrun hother hon hstop i hi
  obtain ⟨hmode, hsnap⟩ := (exec_next hstart).snapshot_of_ccstart hs hout
  have ht : KeepsSnapshotOf s t := ⟨exec_keeps_inv hs hstart, hsnap, fun _ _ => hmode⟩
  have hu : KeepsSnapshotOf s u :=
    runAll_keeps hrun (fun j hj _ _ hexec hkeep => hkeep.of_exec hexec (hother j hj)) ht
  obtain ⟨-, -, hstops⟩ := ccstopCommand b u hu.inv
  obtain ⟨v', hv, hpal, -⟩ := (hstops h).2 hon
  obtain rfl := Host.Outcome.next.inj (hv.symm.trans hstop)
  have hrc : i < u.desc.rc := by rwa [State.desc, hu.mode_eq _ hon]
  rw [hpal, if_pos hrc, hu.snap_eq i hi]

end Sys2Proof.Machine
end

section
/-! PROOFS of the exception statements (60_exceptions.md): what the status of a response says about the
state and the events of its command. -/

namespace Sys2Proof.Machine

/-- A cancellation sends CANCEL or nothing (42_color_cycle.md R162, R175), so no REDRAW. -/
theorem State.cancelled_sends_no_redraw (s : State) (k : Fin 4) :
    ∃ evs, (s.cancelled k).out = s.out ++ evs ∧ Output.redraw ∉ evs := by
  refine ⟨_, s.cancelled_out k, ?_⟩
  split <;> simp

/-- A read is no step of the engine. -/
theorem ne_step_of_onlyReads {i : Instr} (h : i.onlyReads = true) (a : Byte) :
    i ≠ .ccstep a ∧ i ≠ .cctick a := by
  constructor <;> (rintro rfl; nomatch h)

/-- The two ways a command completes. It is turned away and has done nothing but respond, or it answers
OK behind its events: REDRAW alone for a step of the engine, no REDRAW for any other command. -/
theorem Ends.turnedAway_or_ok {i : Instr} {s t : State} (h : Ends s i t) :
    (∃ e d, e ≠ .ok ∧ t = s.respond e d []) ∨
    ∃ (u : State) (evs : List Output) (d : Word) (vs : List Word),
      t = u.respond .ok d vs ∧ u.out = s.out ++ evs ∧
      (((∃ a, i = .ccstep a ∨ i = .cctick a) ∧ evs = [.redraw]) ∨
       ((∀ a, i ≠ .ccstep a ∧ i ≠ .cctick a) ∧ Output.redraw ∉ evs)) := by
  cases h with
  | turnedAway _ e d he => exact .inl ⟨e, d, he, rfl⟩
  | ccstep a | cctick a =>
    exact .inr ⟨_, _, _, _, rfl, State.cycleStep_out .., .inl ⟨⟨a, by simp⟩, rfl⟩⟩
  | ccanim a ha f =>
    obtain ⟨evs, hout, hnone⟩ := s.cancelled_sends_no_redraw ⟨a.toNat, ha⟩
    have hsched := (s.cancelled ⟨a.toNat, ha⟩).sched_out ⟨a.toNat, ha⟩ f.delay
    rw [hout, List.append_assoc] at hsched
    exact .inr ⟨_, _, _, _, rfl, hsched, .inr ⟨by simp, by simp [hnone]⟩⟩
  | ccstop a ha =>
    obtain ⟨evs, hout, hnone⟩ := s.cancelled_sends_no_redraw ⟨a.toNat, ha⟩
    exact .inr ⟨_, evs, _, _, rfl, hout, .inr ⟨by simp, hnone⟩⟩
  | read _ d vs hreads =>
    exact .inr ⟨s, [], d, vs, rfl, by simp, .inr ⟨ne_step_of_onlyReads hreads, List.not_mem_nil⟩⟩
  | _ => exact .inr ⟨_, [], _, _, rfl, by simp, .inr ⟨by simp, List.not_mem_nil⟩⟩

/-- Settles O8: only a command that was turned away has a status other than OK. -/
theorem errorChangesNothing : Obligations.ErrorChangesNothing := by
  intro i s t h
  obtain ⟨e, d, -, rfl⟩ | ⟨u, evs, d, vs, rfl, hout, -⟩ := (exec_next h).turnedAway_or_ok
  · exact ⟨[], ⟨e, d, []⟩, by simp, fun _ => rfl⟩
  · exact ⟨evs, ⟨.ok, d, vs⟩, by rw [State.respond_out, hout], fun hne => absurd rfl hne⟩

/-- Settles O17: a command that was turned away has no event at all, and one that answers OK has those
of `Ends.turnedAway_or_ok`. -/
theorem redrawOnlyFromSteps : Obligations.RedrawOnlyFromSteps := by
  intro i s t h
  obtain ⟨e, d, he, rfl⟩ | ⟨u, evs, d, vs, rfl, hout, hevs⟩ := (exec_next h).turnedAway_or_ok
  · exact ⟨[], ⟨e, d, []⟩, by simp, fun hok => absurd hok.1 he, fun _ => List.not_mem_nil⟩
  refine ⟨evs, ⟨.ok, d, vs⟩, by rw [State.respond_out, hout], ?_⟩
  obtain ⟨⟨a, hi⟩, rfl⟩ | ⟨hi, hnone⟩ := hevs
  · refine ⟨fun _ => rfl, ?_⟩
    rintro (hne | hother)
    · exact absurd rfl hne
    · exact absurd hi (not_or.mpr (hother a))
  · exact ⟨fun ⟨_, a, hstep⟩ => absurd hstep (not_or.mpr (hi a)), fun _ => hnone⟩

end Sys2Proof.Machine
end

section
/-! PROOFS of the reset and boot statements (70_reset_and_hazards.md): what RESET and a silent CMD do, and
what the host's initialisation leaves in place. -/

namespace Sys2Proof.Machine

/-! RESET and a silent CMD (70_reset_and_hazards.md R230 to R232). -/

theorem step_of_silent {s : State} (h : s.input = []) : step s = .next s := by
  rw [step, h, fetch]

theorem step_of_reset {s : State} {rest : List Input} (h : s.input = .reset :: rest) :
    step s = .next (s.applyReset rest) := by
  rw [step, h, fetch]

@[simp] theorem State.slot_applyReset (s : State) (rest : List Input) (k : Fin 4) :
    (s.applyReset rest).slot k = Slot.reset :=
  (State.slot_congr (s.applyReset_slots rest) k).trans (State.slot_reset k)

/-- Settles O26: the two branches of the step; after a RESET no slot is animating, so a tick fails. -/
theorem stepTakesReset : Obligations.StepTakesReset := by
  refine ⟨fun _ => step_of_silent, fun s rest h => ⟨_, step_of_reset h, rfl, fun a ha => ?_⟩⟩
  have hidle : ((s.applyReset rest).slot ⟨a.toNat, ha⟩).anim = false := by
    rw [State.slot_applyReset]; rfl
  exact exec_cctick_of_idle ha hidle

/-! Filling a file from a list of values, as PWCOPY and STGLINE do (30_encoding.md R90). -/

/-- The values of a list written to the cells i, i+1, … -/
def Memory.writeList {α : Type} (m : Memory α) : Nat → List α → Memory α
  | _, [] => m
  | i, v :: vs => Memory.writeList (m.write i (some v)) (i + 1) vs

/-- The cells the list has a value for hold it, the others are as before. -/
theorem Memory.get_writeList {α : Type} (m : Memory α) (i : Nat) (vs : List α) (a : Nat) :
    (m.writeList i vs).get a = if i ≤ a ∧ a < i + vs.length then vs[a - i]? else m.get a := by
  induction vs generalizing m i with
  | nil => rw [if_neg (by simp)]; rfl
  | cons v vs ih =>
    rw [Memory.writeList, ih, Memory.get_write_some, List.length_cons]
    by_cases hfirst : a = i
    · rw [if_neg (by omega), if_pos hfirst, if_pos (by omega), hfirst, Nat.sub_self,
        List.getElem?_cons_zero]
    · rw [if_neg hfirst]
      refine if_ctx_congr (by omega) (fun hin => ?_) fun _ => rfl
      rw [show a - i = a - (i + 1) + 1 by omega, List.getElem?_cons_succ]

/-- A list of a whole file's size leaves no cell as it was (`hm`: none is listed past the end). -/
theorem Memory.get_writeList_whole {α : Type} {m : Memory α} {vs : List α}
    (hm : m.wf vs.length = true) (a : Nat) : (m.writeList 0 vs).get a = vs[a]? := by
  rw [Memory.get_writeList]
  by_cases ha : a < vs.length
  · rw [if_pos (by omega), Nat.sub_zero]
  · rw [if_neg (by omega), List.getElem?_eq_none (by omega), Memory.get_of_size_le hm (by omega)]

theorem runAll_copyWords {vs : List Half} {a : Addr} {s : State} (h : a.toNat + vs.length ≤ 16000) :
    ∃ o, runAll (copyWords a vs) s =
      .next { s with pw := s.pw.writeList a.toNat vs, out := o } := by
  induction vs generalizing a s with
  | nil => exact ⟨s.out, rfl⟩
  | cons v vs ih =>
    rw [List.length_cons] at h
    have hnext : (a + 1#24).toNat = a.toNat + 1 := BitVec.toNat_add_of_lt (by simp; omega)
    rw [copyWords, runAll_cons_next (exec_pwwr_of_lt (by omega) v s)]
    obtain ⟨o, ho⟩ := ih (a := a + 1#24) (s := (s.writePw a.toNat (some v)).respond .ok 0#32 [])
      (by omega)
    exact ⟨o, by rw [ho, hnext]; rfl⟩

theorem runAll_stageBytes {vs : List Byte} {b : Byte} {s : State} (h : b.toNat + vs.length ≤ 160) :
    ∃ o, runAll (stageBytes b vs) s =
      .next { s with stg := s.stg.writeList b.toNat vs, out := o } := by
  induction vs generalizing b s with
  | nil => exact ⟨s.out, rfl⟩
  | cons v vs ih =>
    rw [List.length_cons] at h
    have hnext : (b + 1#8).toNat = b.toNat + 1 := BitVec.toNat_add_of_lt (by simp; omega)
    rw [stageBytes, runAll_cons_next (exec_stagew_of_lt (by omega) v s)]
    obtain ⟨o, ho⟩ := ih (b := b + 1#8) (s := (s.writeStg b.toNat (some v)).respond .ok 0#32 [])
      (by omega)
    exact ⟨o, by rw [ho, hnext]; rfl⟩

theorem runAll_keeps_inv {is : List Instr} {s t : State} (h : runAll is s = .next t) (hs : s.Inv) :
    t.Inv :=
  runAll_keeps h (fun _ _ _ _ hexec hinv => exec_keeps_inv hinv hexec) hs

/-! The fills: what runs between the palette and the trailer writes the two buffers alone. -/

/-- The run from s ended in t, and only the plane words and the staging bytes were written. -/
structure Fills (is : List Instr) (s t : State) : Prop where
  run : runAll is s = .next t
  frame : t = { s with pw := t.pw, stg := t.stg, out := t.out }

namespace Fills

variable {is js : List Instr} {s t u : State}

theorem append (h : Fills is s t) (h' : Fills js t u) : Fills (is ++ js) s u where
  run := (runAll_append_next h.run js).trans h'.run
  frame := by rw [h'.frame, h.frame]

theorem desc_eq (h : Fills is s t) : t.desc = s.desc := by rw [h.frame]; rfl

end Fills

/-- The raw fill (70_reset_and_hazards.md R233): the buffer holds the image. -/
theorem exists_fills_pwcopy {image : List Half} {s : State} (hlen : image.length = 16000) (hs : s.Inv) :
    ∃ t, Fills (expandPseudo (.pwcopy 0#24 image)) s t ∧ ∀ a, t.pw.get a = image[a]? := by
  obtain ⟨o, hrun⟩ := runAll_copyWords (vs := image) (a := 0#24) (s := s) (by simp [hlen])
  exact ⟨_, ⟨hrun, rfl⟩, Memory.get_writeList_whole (hlen ▸ hs.pw_wf)⟩

/-- The plane word at word position g of plane p, from the bytes of a scanline
(41_bitplane_codec.md R142). -/
def scanlineWord (d : ModeDesc) (bs : List Byte) (p g : Nat) : Half :=
  pairBytes (bs.getD (p * stagedBytes d + 2 * g) 0#8) (bs.getD (p * stagedBytes d + 2 * g + 1) 0#8)

/-- In a staging buffer filled from a scanline, the word REILV builds is the scanline's. -/
theorem stagedWord_writeList {m : GMode} {stg : Memory Byte} {bs : List Byte} {p g : Nat}
    (hlen : bs.length = 160) (hp : p < (modeDesc m).p) (hg : g < stagedWords (modeDesc m)) :
    stagedWord (modeDesc m) (stg.writeList 0 bs) p g = some (scanlineWord (modeDesc m) bs p g) := by
  have hbyte : ∀ b, b < 160 → (stg.writeList 0 bs).get b = some (bs.getD b 0#8) := fun b hb => by
    rw [Memory.get_writeList, if_pos (by omega), Nat.sub_zero, List.getD_eq_getElem?_getD,
      List.getElem?_eq_getElem (by omega), Option.getD_some]
  have hlo := staged_byte_lt hp hg
  exact stagedWord_of_some (hbyte _ (by omega)) (hbyte _ hlo)

/-- A word position's place in its scanline block. -/
theorem stagedWords_place_lt {m : GMode} {p g : Nat} (hp : p < (modeDesc m).p)
    (hg : g < stagedWords (modeDesc m)) : g * (modeDesc m).p + p < 80 := by
  have hrow : (g + 1) * (modeDesc m).p ≤ stagedWords (modeDesc m) * (modeDesc m).p :=
    Nat.mul_le_mul_right _ hg
  rw [stagedWords_mul_planes, Nat.succ_mul] at hrow
  omega

/-- Scanline y staged and re-interleaved: its block holds its words, the words before it are as they
were. -/
theorem exists_fills_scanline {s : State} {bs : List Byte} {y : Half} (hs : s.Inv)
    (hlen : bs.length = 160) (hy : y.toNat < 200) :
    ∃ t, Fills (expandPseudo (.stgline bs) ++ [.reilv y]) s t ∧
      (∀ g p, g < stagedWords s.desc → p < s.desc.p →
        t.pw.get (y.toNat * 80 + g * s.desc.p + p) = some (scanlineWord s.desc bs p g)) ∧
      ∀ a, a < y.toNat * 80 → t.pw.get a = s.pw.get a := by
  obtain ⟨o, hstage⟩ := runAll_stageBytes (vs := bs) (b := 0#8) (s := s) (by simp [hlen])
  have hrows := rowsWritten_reilv (runAll_keeps_inv hstage hs) hy
  refine ⟨_, Fills.append ⟨hstage, rfl⟩ ⟨runAll_cons_next (exec_reilv_of_lt hy _) [], rfl⟩,
    fun g p hg hp => ?_, fun a ha => hrows.outside a (.inl ha)⟩
  exact (hrows.written g p hg hp).trans (stagedWord_writeList (m := s.mode) hlen hp hg)

/-- The scanlines from y on, one after the other: each block holds the words of its scanline, for no
later REILV writes before its own block. -/
theorem exists_fills_scanlines {lines : List (List Byte)} {y : Half} {s : State} (hs : s.Inv)
    (hlen : ∀ l ∈ lines, l.length = 160) (hy : y.toNat + lines.length ≤ 200) :
    ∃ t, Fills (scanlineCommands y lines) s t ∧
      (∀ k g p, k < lines.length → g < stagedWords s.desc → p < s.desc.p →
        t.pw.get ((y.toNat + k) * 80 + g * s.desc.p + p) =
          some (scanlineWord s.desc (lines.getD k []) p g)) ∧
      ∀ a, a < y.toNat * 80 → t.pw.get a = s.pw.get a := by
  induction lines generalizing y s with
  | nil => exact ⟨s, ⟨rfl, rfl⟩, nofun, fun _ _ => rfl⟩
  | cons bs lines ih =>
    rw [List.length_cons] at hy
    obtain ⟨hbs, hlines⟩ := List.forall_mem_cons.mp hlen
    have hnext : (y + 1#16).toNat = y.toNat + 1 := BitVec.toNat_add_of_lt (by simp; omega)
    obtain ⟨t, hfill, hwords, hbelow⟩ := exists_fills_scanline (y := y) hs hbs (by omega)
    obtain ⟨u, hfills, hwords', hbelow'⟩ :=
      ih (y := y + 1#16) (runAll_keeps_inv hfill.run hs) hlines (by omega)
    rw [hfill.desc_eq, hnext] at hwords'
    rw [hnext] at hbelow'
    refine ⟨u, ?fills, fun k g p hk hg hp => ?words, fun a ha => ?below⟩
    case fills =>
      rw [scanlineCommands, List.append_cons]
      exact hfill.append hfills
    case words =>
      cases k with
      | zero =>
        have hplace := stagedWords_place_lt (m := s.mode) hp hg
        exact (hbelow' _ (by rw [State.desc]; omega)).trans (hwords g p hg hp)
      | succ k =>
        rw [← Nat.succ_add_eq_add_succ]
        exact hwords' k g p (Nat.lt_of_succ_lt_succ hk) hg hp
    case below => rw [hbelow' a (by omega), hbelow a ha]

/-! The trailer (30_encoding.md R84, R87; 42_color_cycle.md R155, R157). -/

/-- Word n of the file's bytes, as a number. -/
theorem toNat_dataAt_fileWords {bs : List Byte} {n : Nat} (h : 2 * n + 1 < bs.length) :
    (dataAt (fileWords bs) n).toNat = trailerWord bs n := by
  induction bs using fileWords.induct generalizing n with
  | case1 hi lo bs ih =>
    cases n with
    | zero =>
      have hhi := hi.isLt
      have hlo := lo.isLt
      show (pairBytes hi lo).toNat = hi.toNat * 256 + lo.toNat
      rw [pairBytes_eq, BitVec.toNat_ofNat, Nat.mod_eq_of_lt (by omega)]
    | succ n => exact ih (by simp only [List.length_cons] at h; omega)
  | case2 => simp at h
  | case3 => simp at h

/-- The descriptors of a trailer. -/
def trailerDesc (trailer : List Byte) : Quad Desc :=
  ⟨descAt (fileWords trailer) 0, descAt (fileWords trailer) 1,
   descAt (fileWords trailer) 2, descAt (fileWords trailer) 3⟩

theorem trailerCommand_eq (trailer : List Byte) :
    trailerCommand trailer =
      if trailer.length = 32 then .ccload (trailerDesc trailer) else .ccunld := rfl

theorem get_trailerDesc (trailer : List Byte) (k : Fin 4) :
    Quad.get (trailerDesc trailer) k = descAt (fileWords trailer) k := by
  fin_cases k <;> rfl

/-- The descriptor of slot k of a trailer of 32 bytes, in the trailer's words. -/
theorem trailerDesc_words {trailer : List Byte} (hlen : trailer.length = 32) (k : Fin 4) :
    (Quad.get (trailerDesc trailer) k).left.toNat = trailerWord trailer k ∧
    (Quad.get (trailerDesc trailer) k).right.toNat = trailerWord trailer (4 + k) ∧
    (Quad.get (trailerDesc trailer) k).dirRaw.toNat = trailerWord trailer (8 + k) ∧
    (Quad.get (trailerDesc trailer) k).delayRaw.toNat = trailerWord trailer (12 + k) := by
  have hk := k.isLt
  rw [get_trailerDesc]
  exact ⟨toNat_dataAt_fileWords (by omega), toNat_dataAt_fileWords (by omega),
    toNat_dataAt_fileWords (by omega), toNat_dataAt_fileWords (by omega)⟩

/-- The fields of a loaded slot, as the words of the trailer say. -/
theorem slotsOfTrailer_of_loaded {trailer : List Byte} {t : State} {q : Quad Dir}
    (hlen : trailer.length = 32)
    (hq : ∀ k, decodeDir (Quad.get (trailerDesc trailer) k).dirRaw = some (Quad.get q k))
    (ht : ∀ k, t.slot k = Slot.load (Quad.get (trailerDesc trailer) k) (Quad.get q k)) :
    SlotsOfTrailer trailer t := by
  refine ⟨fun _ _ k => ?loaded, fun hbad => absurd ⟨hlen, fun k hk => ?good⟩ hbad⟩
  case loaded =>
    obtain ⟨hleft, hright, hdir, hdelay⟩ := trailerDesc_words hlen k
    refine ⟨_, ht k, hleft, hright, ?_, ?_, rfl, ?_⟩
    · rw [dirInt_of_decodeDir (hq k), hdir]
    · rw [delayMs_toInt, delayMs_eq_fdiv, hdelay]
    · rw [rangeLen_toInt, rangeLen, hleft, hright]
  case good =>
    obtain ⟨-, -, hdir, -⟩ := trailerDesc_words hlen ⟨k, hk⟩
    refine Nat.le_of_not_lt fun hgt => ?_
    nomatch (decodeDir_eq_none_iff.mpr (hgt.trans_eq hdir.symm)).symm.trans (hq ⟨k, hk⟩)

/-- The trailer's command, with every slot as at reset: CCLOAD loads the four slots, or answers
BadDirection; CCUNLD leaves the slots as they are. -/
theorem exists_exec_trailerCommand (trailer : List Byte) {s : State}
    (hslots : ∀ k, s.slot k = Slot.reset) :
    ∃ t, exec (trailerCommand trailer) s = .next t ∧
      t = { s with slots := t.slots, out := t.out } ∧ SlotsOfTrailer trailer t := by
  have hoff : ∀ k, (s.slot k).on = false := fun k => by rw [hslots k]; rfl
  rw [trailerCommand_eq]
  by_cases hlen : trailer.length = 32
  · rw [if_pos hlen]
    obtain ⟨-, q, hq, hexec⟩ | ⟨-, k, hnone, -, hexec⟩ | ⟨hon, -⟩ :=
      execCcload_cases (trailerDesc trailer) s
    · exact ⟨_, hexec, rfl, slotsOfTrailer_of_loaded hlen hq (get_loadSlots _ q)⟩
    · obtain ⟨-, -, hdir, -⟩ := trailerDesc_words hlen k
      have hbad : ¬ ∀ k, k < 4 → trailerWord trailer (8 + k) ≤ 2 := fun hgood =>
        Nat.not_lt_of_le (hgood k k.isLt) (hdir ▸ decodeDir_eq_none_iff.mp hnone)
      exact ⟨_, hexec, rfl, fun _ hgood => absurd hgood hbad, fun _ => hslots⟩
    · nomatch (s.anyOn_false_iff.mpr hoff).symm.trans hon
  · rw [if_neg hlen]
    refine ⟨_, unlessBusy_of_off hoff _, rfl, fun h => absurd h hlen, fun _ k => ?_⟩
    calc Quad.get (Quad.map Slot.unload s.slots) k = (s.slot k).unload := Quad.get_map _ _ k
      _ = Slot.reset := by rw [hslots k]; rfl

/-! The boot sequence (70_reset_and_hazards.md R233). -/

/-- The state between the palette and the fill: the mode and the palette are set, the slots are as at
reset. -/
structure SetUp (m : GMode) (palette : List Half) (s : State) : Prop where
  mode_eq : s.mode = m
  entries : ∀ i, i < palette.length → s.palRaw.get i = palette[i]? ∧
    s.palRgb.get i = palette[i]?.map derive
  slots_reset : ∀ k, s.slot k = Slot.reset

/-- A fill leaves mode, palette and slots as they are. -/
theorem SetUp.of_fills {m : GMode} {palette : List Half} {is : List Instr} {s t : State}
    (hs : SetUp m palette s) (h : Fills is s t) : SetUp m palette t := by
  rw [h.frame]
  exact { hs with }

theorem exec_mode_of_off {s : State} (h : ∀ k, (s.slot k).on = false) (id : Half) :
    exec (.mode id) s =
      .next ({ s.clearPalette with mode := modeOfId id }.respond .ok 0#32 []) :=
  unlessBusy_of_off h _

theorem exec_palrep_of_length {vs : List Half} {s : State} (h : vs.length = s.desc.rc) :
    exec (.palrep vs) s = .next ((s.setPals 0 vs).respond .ok 0#32 []) :=
  if_neg (not_not.mpr h)

/-- MODE and PALREP, from reset: no slot is on, and the list has the mode's number of colours. -/
theorem exists_setUp {id : Half} {palette : List Half}
    (hlen : palette.length = (modeDesc (modeOfId id)).rc) :
    ∃ s, runAll [.mode id, .palrep palette] State.reset = .next s ∧
      SetUp (modeOfId id) palette s := by
  have hoff : ∀ k, (State.reset.slot k).on = false := fun k => by rw [State.slot_reset]; rfl
  have hrun : runAll [.mode id, .palrep palette] State.reset = _ :=
    (runAll_cons_next (exec_mode_of_off hoff id) _).trans
      (runAll_cons_next (exec_palrep_of_length hlen) [])
  refine ⟨_, hrun, (State.respond_mode ..).trans (State.setPals_mode ..), fun i hi => ?_,
    fun k => (State.slot_congr (State.setPals_slots ..) k).trans (State.slot_reset k)⟩
  simpa only [State.respond_palRaw, State.respond_palRgb, if_pos hi]
    using State.get_setPals_zero _ palette i

/-- The boot is the set-up, a fill and the trailer's command: what the fill makes of the plane words, and
what the trailer's command makes of the slots, stands beside the mode and the palette. -/
theorem exists_boot {id : Half} {palette : List Half} {fill : List Instr}
    {P : Memory Half → Prop} (trailer : List Byte)
    (hlen : palette.length = (modeDesc (modeOfId id)).rc)
    (hfill : ∀ s : State, s.Inv → s.desc = modeDesc (modeOfId id) → ∃ t, Fills fill s t ∧ P t.pw) :
    ∃ t, runAll ([.mode id, .palrep palette] ++ fill ++ [trailerCommand trailer]) State.reset =
        .next t ∧
      t.mode = modeOfId id ∧
      (∀ i, i < palette.length → t.palRaw.get i = palette[i]? ∧
        t.palRgb.get i = palette[i]?.map derive) ∧
      P t.pw ∧ SlotsOfTrailer trailer t := by
  obtain ⟨s, hrun, hsetUp⟩ := exists_setUp hlen
  obtain ⟨t, hfills, ht⟩ := hfill s (runAll_keeps_inv hrun State.inv_reset)
    (congrArg modeDesc hsetUp.mode_eq)
  obtain ⟨hmode, hentries, hslots⟩ := hsetUp.of_fills hfills
  obtain ⟨u, hexec, hframe, hu⟩ := exists_exec_trailerCommand trailer hslots
  have hrunAll := runAll_append_next ((runAll_append_next hrun fill).trans hfills.run)
    [trailerCommand trailer]
  refine ⟨u, hrunAll.trans (runAll_cons_next hexec []), ?_, ?_, ?_, hu⟩
  · rw [hframe]; exact hmode
  · rw [hframe]; exact hentries
  · rw [hframe]; exact ht

/-- Settles O59: bit 15 chooses the raw fill, and the raw fill writes the whole buffer. -/
theorem bootLoadsRawImage : Obligations.BootLoadsRawImage := by
  intro header palette image trailer hpalette himage
  refine ⟨fun hbit rle pixels hpixels => ?choice, ?boot⟩
  case choice =>
    subst hpixels
    obtain ⟨hcompressed, -⟩ | ⟨-, h⟩ := bootImage_cases rle ⟨header, palette, pixels, trailer⟩
    · nomatch hbit.symm.trans hcompressed
    · exact h
  case boot =>
    exact exists_boot trailer hpalette (P := fun pw => ∀ a, pw.get a = image[a]?)
      fun s hs _ => exists_fills_pwcopy himage hs

/-- The scanlines' plane words stand in their blocks, in the bytes of each scanline
(41_bitplane_codec.md R142). -/
def ScanlinesInPlace (d : ModeDesc) (lines : List (List Byte)) (pw : Memory Half) : Prop :=
  ∀ y g p, y < 200 → g < 160 / d.p / 2 → p < d.p →
    pw.get (80 * y + g * d.p + p) = some (BitVec.ofNat 16
      (((lines.getD y []).getD (p * (160 / d.p) + 2 * g) 0#8).toNat * 256 +
       ((lines.getD y []).getD (p * (160 / d.p) + 2 * g + 1) 0#8).toNat))

/-- The staged fill (70_reset_and_hazards.md R233): all 200 scanlines. -/
theorem exists_fills_staged {lines : List (List Byte)} {s : State} (hlen : lines.length = 200)
    (hlines : ∀ l ∈ lines, l.length = 160) (hs : s.Inv) :
    ∃ t, Fills (scanlineCommands 0#16 lines) s t ∧ ScanlinesInPlace s.desc lines t.pw := by
  obtain ⟨t, hfills, hwords, -⟩ := exists_fills_scanlines (y := 0#16) hs hlines (by simp [hlen])
  refine ⟨t, hfills, fun y g p hy hg hp => ?_⟩
  have hword := hwords y g p (hy.trans_eq hlen.symm) hg hp
  rwa [BitVec.toNat_zero, Nat.zero_add, Nat.mul_comm y, scanlineWord, pairBytes_eq] at hword

/-- Settles O60: bit 15 chooses the staged fill, and the staged fill writes every scanline's block. -/
theorem bootLoadsStagedImage : Obligations.BootLoadsStagedImage := by
  intro header palette lines trailer hpalette hlen hlines
  refine ⟨fun hbit rle pixels hpixels => ?choice, ?boot⟩
  case choice =>
    subst hpixels
    obtain ⟨-, h⟩ | ⟨hraw, -⟩ := bootImage_cases rle ⟨header, palette, pixels, trailer⟩
    · exact h
    · nomatch hbit.symm.trans hraw
  case boot =>
    obtain ⟨t, hrun, hmode, hentries, hwords, hslots⟩ := exists_boot trailer hpalette
      (P := ScanlinesInPlace (modeDesc (modeOfId (headerMode header))) lines)
      fun s hs hdesc => hdesc ▸ exists_fills_staged hlen hlines hs
    refine ⟨t, hrun, hmode, hentries, ?_, hslots⟩
    rw [State.desc, hmode]
    exact hwords

end Sys2Proof.Machine
end
